-- ==== Sys2Proof/Word.lean ====
section
/-! DEFINITION. The one width of the block: every access moves one byte (spec/20_memory.md R67), bits are
numbered 7 down to 0 and a byte is unsigned (spec/00_scope.md R16). -/

namespace Sys2Proof

/-- One byte of the block: a buffer cell, a table entry, a scan code, a command or response byte (R16, R67). -/
abbrev Byte := BitVec 8

end Sys2Proof
end

