-- ==== Sys2Proof/Machine/Flags.lean ====
section
/-! DEFINITION. The computations that stand where an ISA has flag computations: the count of 1 bits and the two
parity formulas (spec/30_encoding.md R92, R95, R113). The block has no flags register (spec/10_state.md R38); its
condition bits are fields of State. -/

namespace Sys2Proof.Machine

/-- `d0 + d1 + … + d7`: the number of 1 bits of a byte, what the receiver's running sum counts (R92, R133). -/
def ones (b : Byte) : Nat :=
  (b.getLsbD 0).toNat + (b.getLsbD 1).toNat + (b.getLsbD 2).toNat + (b.getLsbD 3).toNat
    + (b.getLsbD 4).toNat + (b.getLsbD 5).toNat + (b.getLsbD 6).toNat + (b.getLsbD 7).toNat

/-- The parity bit of a sent byte, `p = 1 ^ b[0] ^ … ^ b[7]` (R95). -/
def parityBit (b : Byte) : Bool :=
  true ^^ b.getLsbD 0 ^^ b.getLsbD 1 ^^ b.getLsbD 2 ^^ b.getLsbD 3
    ^^ b.getLsbD 4 ^^ b.getLsbD 5 ^^ b.getLsbD 6 ^^ b.getLsbD 7

/-- The acceptance test of a received frame on its running sum: the count of 1 bits, parity bit included, is odd
(R92, R113, R134). -/
def parityAccepts (sum : Nat) : Bool := sum % 2 == 1

/-- The sentinel test of a table entry, `entry & 0x80`: bit 7 set marks a valid entry (R101, R112). -/
def entryValid (e : Byte) : Bool := e.getLsbD 7

end Sys2Proof.Machine
end

