-- ==== Sys2Proof/Config.lean ====
section
/-! DEFINITION. The implementation parameters of spec/00_scope.md R6 (checklist A4), and the values the spec
leaves open, as constants with no body. A step reads the parameters and never writes them (R76, D3); they are
handed to the machine inside its state because the two entry points `exec` and `step` take no other argument. -/

namespace Sys2Proof

/-- The four modifier combinations that name a row of the TranslationTable (R100, D4). -/
inductive Row where
  | normal | shift | ctrl | shiftCtrl
deriving DecidableEq, Repr

/-- The TranslationTable (R36, R62): four named rows of 8-bit entries, immutable. -/
structure Table where
  normal : List Byte
  shift : List Byte
  ctrl : List Byte
  shiftCtrl : List Byte
deriving DecidableEq, Repr

/-- What a receiver error state does on a clock edge: parameter RX_ERROR_RECOVERY (R6, R138, R139, D7). -/
inductive RxErrorRecovery where
  /-- R138, the hardware's behaviour. -/
  | externalResetOnly
  /-- R139, the recorded alternative. -/
  | resyncOnStart
deriving DecidableEq, Repr

/-- When the watchdog reset is enabled (R345, D31, U16). -/
inductive WdtMode where
  /-- only while MAIN is inside a spin: the spec's choice -/
  | spinOnly
  /-- also at any point at which `wdt_reset` has not just been executed: the wider variant R345 offers -/
  | wide
deriving DecidableEq, Repr

/-- The timing figures of R411, in microseconds. No rule's result depends on one (R410), so no step reads them. -/
structure Timing where
  /-- T_CLK_INHIBIT_MIN, a lower bound (R182, D42) -/
  clkInhibitMin : Nat
  /-- T_TX_SETTLE, in no source (R192, D21) -/
  txSettle : Nat
  /-- T_A2_SETUP, in no source (R291, D30) -/
  a2Setup : Nat
  /-- T_STROBE_MIN, a lower bound (R291) -/
  strobeMin : Nat
  /-- WDT_TIMEOUT, in no source (R345, D31) -/
  wdtTimeout : Nat
deriving DecidableEq, Repr

/-- The parameters of R6 that the spec leaves to the build. -/
structure Params where
  /-- BUF_CAP, the capacity of the ReceiveBuffer (D1, D39) -/
  bufCap : Nat
  /-- TABLE_M, the number of slots of a table row (D2) -/
  tableM : Nat
  /-- TABLE (D3) -/
  table : Table
  /-- BLOCKLIST, the codes step 4 discards (R250, D6) -/
  blocklist : List Byte
  /-- CMD_SET_LEDS, CMD_SET_TYPEMATIC, CMD_SET_SCANSET (R103, D18) -/
  cmdSetLeds : Byte
  cmdSetTypematic : Byte
  cmdSetScanset : Byte
  /-- RESP_ACK, RESP_RESEND (R103, D18) -/
  respAck : Byte
  respResend : Byte
  /-- LEGAL_LEDS, LEGAL_TYPEMATIC (D19); LEGAL_SCANSET is fixed, `Config.legalScanset` -/
  legalLeds : List Byte
  legalTypematic : List Byte
  /-- LED_TEST_SEQ, the startup list of (LED mask, following delay) (R302, D22) -/
  ledTestSeq : List (Byte × Nat)
  /-- TYPEMATIC_BYTE (R302, D22) -/
  typematicByte : Byte
  rxErrorRecovery : RxErrorRecovery
  /-- BUF_POP_ATOMIC (R72, D12, U6) -/
  bufPopAtomic : Bool
  /-- IRQ_LATCH (R41, D14, U17) -/
  irqLatch : Bool
  wdtMode : WdtMode
  timing : Timing
deriving DecidableEq, Repr

namespace Config

/-- SLOT_LEFT and SLOT_RIGHT, the slots of the two arrows, decimal (R6, R244, D5). -/
def slotLeft : Byte := 55
def slotRight : Byte := 56

/-- FILTER_LOW, the lowest code of the discarded high range, decimal (R6, R251, D5). -/
def filterLow : Nat := 58

/-- E1_CONT, the second bytes of an E1 sequence that call for a third byte (R6, R255). -/
def e1Cont : List Byte := [0x1D, 0x9D]

/-- LEGAL_SCANSET = {1, 2, 3} (R6, R216). -/
def legalScanset : List Byte := [1, 2, 3]

/-- SCANSET_ID, the scan-code set selected at startup (R6, R302, D22). -/
def scansetId : Byte := 1

/-- The contents of the TranslationTable are in no source (D3, N2): an open value, nothing is known of it. -/
opaque openTable : Row → Nat → Byte

/-- LED_TEST_SEQ and TYPEMATIC_BYTE have no value in any source (D22, N5). -/
opaque openLedTestSeq : List (Byte × Nat)
opaque openTypematicByte : Byte

/-- T_TX_SETTLE, T_A2_SETUP and WDT_TIMEOUT have no value in any source (N6, N7). -/
opaque openTxSettle : Nat
opaque openA2Setup : Nat
opaque openWdtTimeout : Nat

/-- What `rx_acc`, `rx_bitcnt`, `rx_parity` and `a2_data` hold after the n-th reset: unspecified (R42, U1, U3), so a
free value for each reset, kept inside the element's own range (R22, R23, R24, R31). -/
opaque resetRxAcc : Nat → Byte
opaque resetRxBitcnt : Nat → Fin 9
opaque resetRxParity : Nat → Fin 10
opaque resetA2Data : Nat → Byte

end Config

/-- The row of a table, by name (R100). -/
def Table.row (t : Table) : Row → List Byte
  | .normal => t.normal
  | .shift => t.shift
  | .ctrl => t.ctrl
  | .shiftCtrl => t.shiftCtrl

/-- One row of open entries, `TABLE_M` = 58 of them (D2, D3). -/
def Config.openRow (r : Row) : List Byte := (List.range 58).map (Config.openTable r)

/-- The parameter values of R6: the values the spec takes, its defaults where it gives one, and the open constants
where it gives none. The default bytes come from outside the source (R6, GK2 to GK4). -/
def Params.standard : Params where
  bufCap := 32
  tableM := 58
  table :=
    { normal := Config.openRow .normal
      shift := Config.openRow .shift
      ctrl := Config.openRow .ctrl
      shiftCtrl := Config.openRow .shiftCtrl }
  blocklist := [0x0E, 0x0F, 0x1A, 0x1B, 0x28, 0x29, 0x35]
  cmdSetLeds := 0xED
  cmdSetTypematic := 0xF3
  cmdSetScanset := 0xF0
  respAck := 0xFA
  respResend := 0xFE
  legalLeds := (List.range 8).map (BitVec.ofNat 8)
  legalTypematic := (List.range 128).map (BitVec.ofNat 8)
  ledTestSeq := Config.openLedTestSeq
  typematicByte := Config.openTypematicByte
  rxErrorRecovery := .externalResetOnly
  bufPopAtomic := true
  irqLatch := false
  wdtMode := .spinOnly
  timing :=
    { clkInhibitMin := 100
      txSettle := Config.openTxSettle
      a2Setup := Config.openA2Setup
      strobeMin := 1
      wdtTimeout := Config.openWdtTimeout }

/-- A code BLOCKLIST may hold: in 1..57, no modifier make code, not one of the arrow slots (R6, R244, D6). -/
def Config.blockable (b : Byte) : Bool :=
  0 < b.toNat && b.toNat < Config.filterLow && b != 0x1D && b != 0x2A && b != 0x36
    && b != Config.slotLeft && b != Config.slotRight

/-- The constraints the parameters carry as hypotheses (R6, U15), and two the model adds: BLOCKLIST lists no code
twice, and the three command bytes differ, as R210 says the commands do. -/
def Params.wf (p : Params) : Bool :=
  decide (1 ≤ p.bufCap) && decide (p.bufCap ≤ 255)
    && decide (58 ≤ p.tableM)
    && decide (p.table.normal.length = p.tableM) && decide (p.table.shift.length = p.tableM)
    && decide (p.table.ctrl.length = p.tableM) && decide (p.table.shiftCtrl.length = p.tableM)
    && p.blocklist.all Config.blockable && decide p.blocklist.Nodup
    && p.respAck != p.respResend
    && p.cmdSetLeds != p.cmdSetTypematic && p.cmdSetLeds != p.cmdSetScanset
    && p.cmdSetTypematic != p.cmdSetScanset
    && decide (100 ≤ p.timing.clkInhibitMin) && decide (1 ≤ p.timing.strobeMin)

end Sys2Proof
end

