-- ==== Sys2Proof/Syntax.lean ====
section
/-! DEFINITION. The operations and events of the block, which stand where an ISA has instructions
(spec/00_scope.md R14): one constructor per row of spec/opcode_table.json, in the table's order, each with the
operands its rule gives it. -/

namespace Sys2Proof

/-- The four receive-layer errors, the kinds of the Error* values of `rx_state` (R21, R320). -/
inductive RxErr where
  | start | overrun | parity | stop
deriving DecidableEq, Repr

/-- Which legal set a configuration command checks its parameter against (R210, R213). -/
inductive LegalSet where
  | leds | typematic | scanset
deriving DecidableEq, Repr

/-- The rows of spec/opcode_table.json. -/
inductive Instr where
  -- format RXEV: one edge event of the receiver (R105, R130)
  | rxIdleStart
  | rxIdleBadstart
  | rxData (d : Bool)
  | rxParity (d : Bool)
  | rxStopBad
  | rxStopOk
  | rxError (e : RxErr) (d : Bool)
  -- format D2H: a whole valid frame of byte b (R90, R137)
  | kbdFrame (b : Byte)
  -- format H2D: send byte b (R94, R180)
  | ps2Send (b : Byte)
  -- format SC: a byte met in Ground (R98)
  | xlE1
  | xlE0
  | xlCtrlMake
  | xlCtrlBreak
  | xlShiftMake2A
  | xlShiftMake36
  | xlShiftBreakAA
  | xlShiftBreakB6
  | xlBlocklist0E
  | xlBlocklist0F
  | xlBlocklist1A
  | xlBlocklist1B
  | xlBlocklist28
  | xlBlocklist29
  | xlBlocklist35
  | xlHighrange3A (x : BitVec 1)
  | xlHighrange3C (x : BitVec 2)
  | xlHighrange40 (x : BitVec 6)
  | xlHighrange80 (x : BitVec 7)
  | xlNonpositive
  | xlLookup (code : Byte)
  -- format SC.E0: the byte after E0 (R99)
  | xlE0Ctrl1D
  | xlE0Ctrl9D
  | xlE0Arrow4B
  | xlE0Arrow4D
  | xlE0Other (b : Byte)
  -- format SC.E1: the byte after E1 (R99)
  | xlE1Cont1D
  | xlE1Cont9D
  | xlE1Other (b : Byte)
  -- format SC.E1C: the third byte of an E1 sequence (R99)
  | xlE1Third (b : Byte)
  -- format TE: a table entry (R101)
  | xlOutputValid (c : BitVec 7)
  | xlOutputSentinel (x : BitVec 7)
  -- format A2: write the byte 1ccccccc (R102, R291)
  | a2Write (c : BitVec 7)
  -- format CMD: the three configuration commands with their parameter byte (R103, R214 to R216)
  | cmdSetLeds (mask : Byte)
  | cmdSetTypematic (v : Byte)
  | cmdSetScanset (id : Byte)
  -- format RESP: a response byte inspected by the command layer (R211, R213)
  | respAck
  | respResend
  -- format OP: operations without a bit pattern
  | bufPush (v : Byte)
  | bufPushFull (v : Byte)
  | ps2RecvNonblocking
  | ps2RecvBlocking
  | txPrepare
  | txInhibit
  | txRtsData
  | txRtsRelease
  | txBit (k : Fin 10) (v : Bool)
  | txReleaseData
  | txAck
  | txAckEnd
  | txFinish (ack : Bool)
  | txSettle
  | kbdCommand (cmd param : Byte) (legal : LegalSet)
  | translatePoll
  | xlEmpty
  | init
  | startup
  | loopIteration
  | wdtReset
  | wdtExpire
  | reset
deriving DecidableEq, Repr

end Sys2Proof
end

