-- ==== Sys2Proof/WellFormed.lean ====
section
/-! DEFINITION. Which terms of Instr are operations of the block: the operand ranges its rules give. Where a class is
defined by the parameter BLOCKLIST (spec/30_encoding.md R98 class 7), so is its well-formedness. -/

namespace Sys2Proof

/-- The bytes that R98 classes 1 to 6 take out of the discarded range 0x80 to 0xFF. -/
def specialHigh : List Byte := [0xE1, 0xE0, 0x9D, 0xAA, 0xB6]

/-- The modifier make codes, which R98 classes 3 and 5 take out of the lookup. -/
def modifierMakes : List Byte := [0x1D, 0x2A, 0x36]

/-- The well-formed instructions under parameters `p` (R98, R99, R250, R251, R253). -/
def WellFormed (p : Params) (i : Instr) : Bool :=
  match i with
  -- the seven rows are the first seven members of BLOCKLIST
  | .xlBlocklist0E => decide (0 < p.blocklist.length)
  | .xlBlocklist0F => decide (1 < p.blocklist.length)
  | .xlBlocklist1A => decide (2 < p.blocklist.length)
  | .xlBlocklist1B => decide (3 < p.blocklist.length)
  | .xlBlocklist28 => decide (4 < p.blocklist.length)
  | .xlBlocklist29 => decide (5 < p.blocklist.length)
  | .xlBlocklist35 => decide (6 < p.blocklist.length)
  -- 0x80 to 0xFF less the five special codes
  | .xlHighrange80 x => !specialHigh.contains ((1#1 ++ x : BitVec 8))
  -- 1 to 57 less the modifier makes and BLOCKLIST
  | .xlLookup code =>
    decide (0 < code.toNat) && decide (code.toNat < Config.filterLow)
      && !modifierMakes.contains code && !p.blocklist.contains code
  | .xlE0Other b => !([0x1D, 0x9D, 0x4B, 0x4D] : List Byte).contains b
  | .xlE1Other b => !Config.e1Cont.contains b
  -- the tenth bit is the stop bit, fixed 1 (R186)
  | .txBit k v => v || decide (k.val < 9)
  | .rxIdleStart | .rxIdleBadstart | .rxData _ | .rxParity _ | .rxStopBad | .rxStopOk | .rxError _ _
  | .kbdFrame _ | .ps2Send _ | .xlE1 | .xlE0 | .xlCtrlMake | .xlCtrlBreak | .xlShiftMake2A
  | .xlShiftMake36 | .xlShiftBreakAA | .xlShiftBreakB6 | .xlHighrange3A _ | .xlHighrange3C _
  | .xlHighrange40 _ | .xlNonpositive | .xlE0Ctrl1D | .xlE0Ctrl9D | .xlE0Arrow4B | .xlE0Arrow4D
  | .xlE1Cont1D | .xlE1Cont9D | .xlE1Third _ | .xlOutputValid _ | .xlOutputSentinel _ | .a2Write _
  | .cmdSetLeds _ | .cmdSetTypematic _ | .cmdSetScanset _ | .respAck | .respResend | .bufPush _
  | .bufPushFull _ | .ps2RecvNonblocking | .ps2RecvBlocking | .txPrepare | .txInhibit | .txRtsData
  | .txRtsRelease | .txReleaseData | .txAck | .txAckEnd | .txFinish _ | .txSettle
  | .kbdCommand _ _ _ | .translatePoll | .xlEmpty | .init | .startup | .loopIteration | .wdtReset
  | .wdtExpire | .reset => true

end Sys2Proof
end

