-- ==== Sys2Proof/Decode.lean ====
section
/-! DEFINITION. What the block decodes, bit by bit and byte by byte (spec/30_encoding.md): the receiver event word, the
device-to-host frame, the scan-code byte in each translator position, the table entry, the response byte; and the
forms it builds: the host-to-device frame, the Apple II byte, the configuration command. The formats share words
(the byte 0x1D is a row of SC, of SC.E0 and of SC.E1), so a word is decoded under a format, which the machine's
control state selects. `decode` is total and rejects by name; `encode` is written from the same tables. -/

namespace Sys2Proof

/-- The formats of spec/opcode_table.json. -/
inductive Format where
  /-- RXEV: `sss d`, bits 3:1 the number of `rx_state`, bit 0 the sampled level (R105) -/
  | rxev
  /-- D2H: eleven levels, bit k the level at edge k+1 (R90) -/
  | d2h
  /-- H2D: ten levels, bit k the level at device clock k+1 (R94, R186) -/
  | h2d
  /-- SC, SC.E0, SC.E1, SC.E1C: one scan-code byte (R96 to R99) -/
  | sc | scE0 | scE1 | scE1C
  /-- TE: one table entry (R101) -/
  | te
  /-- A2: one Apple II output byte (R102) -/
  | a2
  /-- CMD: bits 7:0 the command byte, bits 15:8 the parameter byte (R103) -/
  | cmd
  /-- RESP: one response byte (R103) -/
  | resp
  /-- OP: an operation without a bit pattern; the model numbers it by its row -/
  | op
deriving DecidableEq, Repr

/-- Why a word is no instruction of a format. -/
inductive DecodeError where
  /-- the word has bits above the format's width -/
  | tooWide
  /-- D2H: the start bit is 1 (R93) -/
  | startBitOne
  /-- D2H or H2D: the parity is even (R93, R95) -/
  | parityEven
  /-- D2H or H2D: the stop bit is 0 (R93, R186) -/
  | stopBitZero
  /-- A2: bit 7 is 0, the violated precondition of R294 and U4 -/
  | bit7Clear
  /-- CMD: the byte is none of the three command bytes (R210) -/
  | noCommandByte
  /-- RESP: the byte is neither of the two named response codes (R103) -/
  | noResponseCode
  /-- OP: no row has this number -/
  | noSuchOperation
  /-- OP: the operand bits are out of the operation's range -/
  | operandOutOfRange
  /-- the control state has no operation of MAIN due -/
  | noOperationDue
  /-- a bare table word for which no format is chosen -/
  | noFormat
deriving DecidableEq, Repr

/-- The decoder's answer. -/
inductive Decoded where
  | instr (i : Instr)
  | rejected (e : DecodeError)
deriving DecidableEq, Repr

def Decoded.instr? : Decoded → Option Instr
  | .instr i => some i
  | .rejected _ => none

/-! ## The code classes of a scan-code byte -/

/-- The position of a byte in BLOCKLIST, if it is a member. -/
def blockIndex : List Byte → Byte → Option Nat
  | [], _ => none
  | x :: xs, b => if x = b then some 0 else (blockIndex xs b).map (· + 1)

/-- Class 7 of R98 has one row per member of BLOCKLIST: the member at position k is the k-th row of the table. The
table has the seven rows of the default; a member past the seventh is given to the last row, all of them having
the one effect of R250. -/
def blockRow : Nat → Instr
  | 0 => .xlBlocklist0E
  | 1 => .xlBlocklist0F
  | 2 => .xlBlocklist1A
  | 3 => .xlBlocklist1B
  | 4 => .xlBlocklist28
  | 5 => .xlBlocklist29
  | _ => .xlBlocklist35

/-- Class 8 of R98, by its four match and mask pairs. -/
def highRow (b : Byte) : Instr :=
  if b &&& 0xFE = 0x3A then .xlHighrange3A (b.extractLsb' 0 1)
  else if b &&& 0xFC = 0x3C then .xlHighrange3C (b.extractLsb' 0 2)
  else if b &&& 0xC0 = 0x40 then .xlHighrange40 (b.extractLsb' 0 6)
  else .xlHighrange80 (b.extractLsb' 0 7)

/-- The ten classes of a byte in Ground, in the order of R98; the first that matches wins. -/
def scRow (p : Params) (b : Byte) : Instr :=
  if b = 0xE1 then .xlE1
  else if b = 0xE0 then .xlE0
  else if b = 0x1D then .xlCtrlMake
  else if b = 0x9D then .xlCtrlBreak
  else if b = 0x2A then .xlShiftMake2A
  else if b = 0x36 then .xlShiftMake36
  else if b = 0xAA then .xlShiftBreakAA
  else if b = 0xB6 then .xlShiftBreakB6
  else
    match blockIndex p.blocklist b with
    | some k => blockRow k
    | none =>
      if Config.filterLow ≤ b.toNat then highRow b
      else if b = 0 then .xlNonpositive
      else .xlLookup b

/-- The byte after E0 (R99). -/
def scE0Row (b : Byte) : Instr :=
  if b = 0x1D then .xlE0Ctrl1D
  else if b = 0x9D then .xlE0Ctrl9D
  else if b = 0x4B then .xlE0Arrow4B
  else if b = 0x4D then .xlE0Arrow4D
  else .xlE0Other b

/-- The byte after E1 (R99). -/
def scE1Row (b : Byte) : Instr :=
  if b = 0x1D then .xlE1Cont1D
  else if b = 0x9D then .xlE1Cont9D
  else .xlE1Other b

/-- A table entry (R101). -/
def teRow (e : Byte) : Instr :=
  if Machine.entryValid e then .xlOutputValid (e.extractLsb' 0 7) else .xlOutputSentinel (e.extractLsb' 0 7)

/-! ## Frames -/

/-- The byte of a frame whose eight data bits start at bit `lo` of the word (R91). -/
def frameByte (w lo : Nat) : Byte := BitVec.ofNat 8 (w >>> lo)

/-- The receiver event word (R105). -/
def rxevRow (w : Nat) : Decoded :=
  let d := w.testBit 0
  match w / 2 with
  | 0 => .instr (if d then .rxIdleBadstart else .rxIdleStart)
  | 1 => .instr (.rxData d)
  | 2 => .instr (.rxParity d)
  | 3 => .instr (if d then .rxStopOk else .rxStopBad)
  | 4 => .instr (.rxError .start d)
  | 5 => .instr (.rxError .overrun d)
  | 6 => .instr (.rxError .parity d)
  | 7 => .instr (.rxError .stop d)
  | _ => .rejected .tooWide

/-- A device-to-host frame: start 0, eight data bits, odd parity, stop 1 (R90 to R93). -/
def d2hRow (w : Nat) : Decoded :=
  let b := frameByte w 1
  if 2 ^ 11 ≤ w then .rejected .tooWide
  else if w.testBit 0 then .rejected .startBitOne
  else if w.testBit 9 != Machine.parityBit b then .rejected .parityEven
  else if !w.testBit 10 then .rejected .stopBitZero
  else .instr (.kbdFrame b)

/-- The ten bits a send places: eight data bits, odd parity, stop 1 (R94, R95, R186). -/
def h2dRow (w : Nat) : Decoded :=
  let b := frameByte w 0
  if 2 ^ 10 ≤ w then .rejected .tooWide
  else if w.testBit 8 != Machine.parityBit b then .rejected .parityEven
  else if !w.testBit 9 then .rejected .stopBitZero
  else .instr (.ps2Send b)

/-- A configuration command: command byte, then parameter byte (R103, R214 to R216). -/
def cmdRow (p : Params) (w : Nat) : Decoded :=
  let c := BitVec.ofNat 8 w
  let v := BitVec.ofNat 8 (w >>> 8)
  if 2 ^ 16 ≤ w then .rejected .tooWide
  else if c = p.cmdSetLeds then .instr (.cmdSetLeds v)
  else if c = p.cmdSetTypematic then .instr (.cmdSetTypematic v)
  else if c = p.cmdSetScanset then .instr (.cmdSetScanset v)
  else .rejected .noCommandByte

/-- A response byte (R103, R211, R213). -/
def respRow (p : Params) (b : Byte) : Decoded :=
  if b = p.respAck then .instr .respAck
  else if b = p.respResend then .instr .respResend
  else .rejected .noResponseCode

/-! ## Operations without a bit pattern -/

/-- An operation without operands: its operand bits are 0. -/
def opPlain (i : Instr) (arg : Nat) : Decoded :=
  if arg = 0 then .instr i else .rejected .operandOutOfRange

/-- An operation with a byte operand. -/
def opByte (f : Byte → Instr) (arg : Nat) : Decoded :=
  if arg < 256 then .instr (f (BitVec.ofNat 8 arg)) else .rejected .operandOutOfRange

/-- TX.BIT: the bit number, then 16 times the level; the tenth bit is 1 (R186). -/
def opTxBit (arg : Nat) : Decoded :=
  if h : arg % 16 < 10 then
    (if arg / 16 = 0 ∧ arg % 16 < 9 then .instr (.txBit ⟨arg % 16, h⟩ false)
     else if arg / 16 = 1 then .instr (.txBit ⟨arg % 16, h⟩ true)
     else .rejected .operandOutOfRange)
  else .rejected .operandOutOfRange

/-- TX.FINISH: the acknowledge flag to return. -/
def opTxFinish (arg : Nat) : Decoded :=
  if arg = 0 then .instr (.txFinish false)
  else if arg = 1 then .instr (.txFinish true)
  else .rejected .operandOutOfRange

def legalOfNat : Nat → Option LegalSet
  | 0 => some .leds
  | 1 => some .typematic
  | 2 => some .scanset
  | _ => none

def LegalSet.number : LegalSet → Nat
  | .leds => 0
  | .typematic => 1
  | .scanset => 2

/-- kbd_command: command byte, parameter byte, legal set. -/
def opCommand (arg : Nat) : Decoded :=
  match legalOfNat (arg / 65536) with
  | some l => .instr (.kbdCommand (BitVec.ofNat 8 arg) (BitVec.ofNat 8 (arg >>> 8)) l)
  | none => .rejected .operandOutOfRange

/-- An operation word: bits 7:0 the operation's number, which is its row in spec/opcode_table.json counted from 0,
the operands above them. The numbering is the model's own (DESIGN CHOICE, log entry 4), as D33's is the spec's. -/
def opRow (w : Nat) : Decoded :=
  let arg := w / 256
  match w % 256 with
  | 47 => opByte .bufPush arg
  | 48 => opByte .bufPushFull arg
  | 49 => opPlain .ps2RecvNonblocking arg
  | 50 => opPlain .ps2RecvBlocking arg
  | 51 => opPlain .txPrepare arg
  | 52 => opPlain .txInhibit arg
  | 53 => opPlain .txRtsData arg
  | 54 => opPlain .txRtsRelease arg
  | 55 => opTxBit arg
  | 56 => opPlain .txReleaseData arg
  | 57 => opPlain .txAck arg
  | 58 => opPlain .txAckEnd arg
  | 59 => opTxFinish arg
  | 60 => opPlain .txSettle arg
  | 61 => opCommand arg
  | 62 => opPlain .translatePoll arg
  | 63 => opPlain .xlEmpty arg
  | 64 => opPlain .init arg
  | 65 => opPlain .startup arg
  | 66 => opPlain .loopIteration arg
  | 67 => opPlain .wdtReset arg
  | 68 => opPlain .wdtExpire arg
  | 69 => opPlain .reset arg
  | _ => .rejected .noSuchOperation

/-- A format of one byte. -/
def byteRow (f : Byte → Decoded) (w : Nat) : Decoded :=
  if w < 256 then f (BitVec.ofNat 8 w) else .rejected .tooWide

/-- The decoder: the instruction that the word `w` is under the format `f`. -/
def decode (p : Params) (f : Format) (w : Nat) : Decoded :=
  match f with
  | .rxev => rxevRow w
  | .d2h => d2hRow w
  | .h2d => h2dRow w
  | .sc => byteRow (fun b => .instr (scRow p b)) w
  | .scE0 => byteRow (fun b => .instr (scE0Row b)) w
  | .scE1 => byteRow (fun b => .instr (scE1Row b)) w
  | .scE1C => byteRow (fun b => .instr (.xlE1Third b)) w
  | .te => byteRow (fun b => .instr (teRow b)) w
  | .a2 => byteRow (fun b => if b.getLsbD 7 then .instr (.a2Write (b.extractLsb' 0 7)) else .rejected .bit7Clear) w
  | .cmd => cmdRow p w
  | .resp => byteRow (respRow p) w
  | .op => opRow w

/-! ## The encoder -/

/-- The eleven levels of the valid frame of a byte, first on the wire first (R90, R92). -/
def frameLevels (b : Byte) : List Bool :=
  [false, b.getLsbD 0, b.getLsbD 1, b.getLsbD 2, b.getLsbD 3, b.getLsbD 4, b.getLsbD 5, b.getLsbD 6, b.getLsbD 7,
    Machine.parityBit b, true]

/-- The ten bits a send places on the data line, first first (R186). -/
def sendBits (b : Byte) : List Bool :=
  [b.getLsbD 0, b.getLsbD 1, b.getLsbD 2, b.getLsbD 3, b.getLsbD 4, b.getLsbD 5, b.getLsbD 6, b.getLsbD 7,
    Machine.parityBit b, true]

/-- The word whose bit k is the k-th level. -/
def wordOfLevels : List Bool → Nat
  | [] => 0
  | l :: ls => l.toNat + 2 * wordOfLevels ls

/-- The number of an error state in the event word (R105). -/
def RxErr.number : RxErr → Nat
  | .start => 4
  | .overrun => 5
  | .parity => 6
  | .stop => 7

/-- The word of an instruction, with the format it is a word of. -/
def encode (p : Params) (i : Instr) : Format × Nat :=
  match i with
  | .rxIdleStart => (.rxev, 0)
  | .rxIdleBadstart => (.rxev, 1)
  | .rxData d => (.rxev, 2 + d.toNat)
  | .rxParity d => (.rxev, 4 + d.toNat)
  | .rxStopBad => (.rxev, 6)
  | .rxStopOk => (.rxev, 7)
  | .rxError e d => (.rxev, 2 * e.number + d.toNat)
  | .kbdFrame b => (.d2h, wordOfLevels (frameLevels b))
  | .ps2Send b => (.h2d, wordOfLevels (sendBits b))
  | .xlE1 => (.sc, 0xE1)
  | .xlE0 => (.sc, 0xE0)
  | .xlCtrlMake => (.sc, 0x1D)
  | .xlCtrlBreak => (.sc, 0x9D)
  | .xlShiftMake2A => (.sc, 0x2A)
  | .xlShiftMake36 => (.sc, 0x36)
  | .xlShiftBreakAA => (.sc, 0xAA)
  | .xlShiftBreakB6 => (.sc, 0xB6)
  | .xlBlocklist0E => (.sc, (p.blocklist.getD 0 0).toNat)
  | .xlBlocklist0F => (.sc, (p.blocklist.getD 1 0).toNat)
  | .xlBlocklist1A => (.sc, (p.blocklist.getD 2 0).toNat)
  | .xlBlocklist1B => (.sc, (p.blocklist.getD 3 0).toNat)
  | .xlBlocklist28 => (.sc, (p.blocklist.getD 4 0).toNat)
  | .xlBlocklist29 => (.sc, (p.blocklist.getD 5 0).toNat)
  | .xlBlocklist35 => (.sc, (p.blocklist.getD 6 0).toNat)
  | .xlHighrange3A x => (.sc, 0x3A + x.toNat)
  | .xlHighrange3C x => (.sc, 0x3C + x.toNat)
  | .xlHighrange40 x => (.sc, 0x40 + x.toNat)
  | .xlHighrange80 x => (.sc, 0x80 + x.toNat)
  | .xlNonpositive => (.sc, 0)
  | .xlLookup code => (.sc, code.toNat)
  | .xlE0Ctrl1D => (.scE0, 0x1D)
  | .xlE0Ctrl9D => (.scE0, 0x9D)
  | .xlE0Arrow4B => (.scE0, 0x4B)
  | .xlE0Arrow4D => (.scE0, 0x4D)
  | .xlE0Other b => (.scE0, b.toNat)
  | .xlE1Cont1D => (.scE1, 0x1D)
  | .xlE1Cont9D => (.scE1, 0x9D)
  | .xlE1Other b => (.scE1, b.toNat)
  | .xlE1Third b => (.scE1C, b.toNat)
  | .xlOutputValid c => (.te, 0x80 + c.toNat)
  | .xlOutputSentinel x => (.te, x.toNat)
  | .a2Write c => (.a2, 0x80 + c.toNat)
  | .cmdSetLeds v => (.cmd, p.cmdSetLeds.toNat + 256 * v.toNat)
  | .cmdSetTypematic v => (.cmd, p.cmdSetTypematic.toNat + 256 * v.toNat)
  | .cmdSetScanset v => (.cmd, p.cmdSetScanset.toNat + 256 * v.toNat)
  | .respAck => (.resp, p.respAck.toNat)
  | .respResend => (.resp, p.respResend.toNat)
  | .bufPush v => (.op, 47 + 256 * v.toNat)
  | .bufPushFull v => (.op, 48 + 256 * v.toNat)
  | .ps2RecvNonblocking => (.op, 49)
  | .ps2RecvBlocking => (.op, 50)
  | .txPrepare => (.op, 51)
  | .txInhibit => (.op, 52)
  | .txRtsData => (.op, 53)
  | .txRtsRelease => (.op, 54)
  | .txBit k v => (.op, 55 + 256 * (k.val + 16 * v.toNat))
  | .txReleaseData => (.op, 56)
  | .txAck => (.op, 57)
  | .txAckEnd => (.op, 58)
  | .txFinish ack => (.op, 59 + 256 * ack.toNat)
  | .txSettle => (.op, 60)
  | .kbdCommand c v l => (.op, 61 + 256 * (c.toNat + 256 * v.toNat + 65536 * l.number))
  | .translatePoll => (.op, 62)
  | .xlEmpty => (.op, 63)
  | .init => (.op, 64)
  | .startup => (.op, 65)
  | .loopIteration => (.op, 66)
  | .wdtReset => (.op, 67)
  | .wdtExpire => (.op, 68)
  | .reset => (.op, 69)

/-! ## A bare word of the opcode table -/

/-- The format under which a bare word of the table is read, when no control state selects one. The formats share
words; this choice reads every event word below 0x0E as RXEV, the arrow codes as SC.E0, the default command and
response bytes as CMD and RESP, every other byte as SC, and wider words as frames (DESIGN CHOICE, log entry 5). -/
def tableFormat (nbits w : Nat) : Option Format :=
  if nbits ≤ 4 then (if nbits = 0 then none else some .rxev)
  else if nbits ≤ 8 then
    if w < 0x0E then some .rxev
    else if w = 0x4B ∨ w = 0x4D then some .scE0
    else if w = 0xED ∨ w = 0xF3 ∨ w = 0xF0 then some .cmd
    else if w = 0xFA ∨ w = 0xFE then some .resp
    else some .sc
  else if nbits ≤ 16 then (if w.testBit 10 then some .d2h else some .h2d)
  else none

/-- The instruction of a word numbered as the opcode table numbers it, under the standard parameters. -/
def decodeTableWord (nbits w : Nat) : Option Instr :=
  match tableFormat nbits w with
  | some f => (decode Params.standard f w).instr?
  | none => none

end Sys2Proof
end

