-- ==== Sys2Proof/Machine/State.lean ====
section
/-! DEFINITION. The state of the block (spec/10_state.md R20 to R42), of the two environment agents that drive or
observe its lines (spec/00_scope.md R13), and the schedule by which the agents take their steps; the reasons a step
can stop; the state after reset. -/

namespace Sys2Proof.Machine

open Sys2Proof

/-! ## Names of control states -/

/-- `rx_state`, the source's ReceiverState (R21). -/
inductive RxState where
  | idle | collectingDataBits | expectingParity | expectingStop
  | errorStart | errorOverrun | errorParity | errorStop
deriving DecidableEq, Repr

/-- `xl_state`, the translator's position inside a multi-byte sequence (R30). -/
inductive XlState where
  | ground | afterE0 | afterE1 | afterE1Cont
deriving DecidableEq, Repr

/-- `main_phase`, the position of MAIN in its program (R34). -/
inductive MainPhase where
  | init
  | startup (k : Nat)
  | loop
deriving DecidableEq, Repr

/-- One open-collector drive of a PS/2 line (R32, R64). -/
inductive Drive where
  | released | low
deriving DecidableEq, Repr

/-- One call of `kbd_command`: its three operands (R211). -/
structure Cmd where
  cmd : Byte
  param : Byte
  legal : LegalSet
deriving DecidableEq, Repr

/-- A control point of MAIN. "Inside a phase MAIN is at some point of the operation it is executing …; a model holds
that as the continuation of the operation" (R34): the continuation is a list of control points, innermost first, and
the local variables of the routines stand in the points. -/
inductive Point where
  /-- at the beginning of the operation `i` -/
  | op (i : Instr)
  /-- TX.INHIBIT, the delay with the clock held low (R182) -/
  | txInhibitHold
  /-- TX.BIT k, the clock has been seen low: place the level (R185, R187) -/
  | txBitPlace (k : Fin 10) (v : Bool)
  /-- TX.BIT k, the second wait: clock high (R185) -/
  | txBitAwaitHigh (k : Fin 10) (v : Bool)
  /-- TX.ACK, the clock has been seen low: sample the data line (R189) -/
  | txAckSample
  /-- a pop under BUF_POP_ATOMIC = false: the data is loaded, the count is loaded, the count is stored (R72, U6) -/
  | popCount (blocking : Bool) (v : Byte)
  | popStore (blocking : Bool) (v : Byte) (c : Nat)
  | popCursor (blocking : Bool) (v : Byte)
  /-- the translator waits for the result of a receive (R240) -/
  | xlAwait
  /-- the translator has the result of a receive: an optional byte to classify (R98, R99, R258) -/
  | xlByte (r : Option Byte)
  /-- the translator has read the table entry `e` (R253) -/
  | xlEntry (e : Byte)
  /-- the dispatch loop waits for the result of `translate_poll` (R305) -/
  | loopOut
  /-- the dispatch loop has the byte `a` to write (R305) -/
  | a2Byte (a : Byte)
  /-- a2_write: the settle delay, the strobe's fall, the pulse width, the strobe's rise (R291) -/
  | a2Setup (c : BitVec 7)
  | a2Fall (c : BitVec 7)
  | a2Hold (c : BitVec 7)
  | a2Rise (c : BitVec 7)
  /-- a command waits for a response, the first one or the second (R211) -/
  | cmdAwait (c : Cmd) (first : Bool)
  /-- a command has the response `r` to inspect (R211, R212) -/
  | cmdResp (c : Cmd) (first : Bool) (r : Byte)
  /-- startup: a command has returned, its delay follows (R302) -/
  | startupNext
deriving DecidableEq, Repr

/-- The result the last operation of MAIN that returns one has returned. "returned values, not stored state" (R38): the
model's own record of them. -/
inductive Ret where
  /-- nothing has been returned since reset -/
  | nothing
  /-- an optional byte (R163, R240) -/
  | opt (r : Option Byte)
  /-- a byte (R164, R212) -/
  | byte (b : Byte)
  /-- a success flag (R189) -/
  | flag (b : Bool)
deriving DecidableEq, Repr

/-- One step of the schedule: which agent moves next, and how (R13, R70). -/
inductive Stimulus where
  /-- MAIN takes its next step -/
  | main
  /-- KBD sets its two drives (R64, D41) -/
  | lines (clk data : Drive)
  /-- KBD sends the valid frame of a byte, its eleven edges without a step of MAIN between them (R108, R137) -/
  | frame (b : Byte)
  /-- time passes: the watchdog counts (R35) -/
  | tick
  /-- WDT takes its step, the watchdog reset (R345) -/
  | wdt
  /-- power-on (R370) -/
  | powerOn
deriving DecidableEq, Repr

/-- The ReceiveBuffer's cells (R25, R61): pairs of index and byte, indices strictly rising. A cell nothing has written
since reset is not listed and has no value (R42, U2). -/
structure Memory where
  cells : List Host.Cell
deriving DecidableEq, Repr

/-- The canonical form. -/
abbrev Memory.wf (m : Memory) : Prop := m.cells.Pairwise (fun a b => a.1 < b.1)

structure State where
  /-- the parameters of R6: read by steps, changed by none (R5, R76) -/
  params : Params
  -- receiver, interrupt-owned
  /-- R21 -/
  rxState : RxState
  /-- R22, 8 bits -/
  rxAcc : Byte
  /-- R23, a natural in 0..8 -/
  rxBitcnt : Nat
  /-- R24, a natural in 0..9 -/
  rxParity : Nat
  -- ReceiveBuffer, shared
  /-- R25 -/
  buf : Memory
  /-- R26, a natural in 0..BUF_CAP−1, 8 bits wide -/
  bufWr : Nat
  /-- R27, a natural in 0..BUF_CAP−1, 8 bits wide -/
  bufRd : Nat
  /-- R28, a natural in 0..BUF_CAP, 8 bits wide -/
  bufCount : Nat
  -- translator, main-owned
  /-- R29 -/
  ctrlDown : Bool
  shiftDown : Bool
  /-- R30 -/
  xlState : XlState
  -- parallel output
  /-- R31, bits 6:0 the seven lines, bit 7 the unconnected line -/
  a2Data : Byte
  /-- R31, true is 1 (inactive) -/
  a2StrobeN : Bool
  -- line drives and interrupt enable
  /-- R32 -/
  ps2ClkDrive : Drive
  ps2DataDrive : Drive
  /-- R33 -/
  irqEnable : Bool
  /-- the pending-edge latch of R41 item 4; never set while IRQ_LATCH is false -/
  irqPending : Bool
  -- control state of MAIN
  /-- R34 -/
  mainPhase : MainPhase
  /-- R34, the continuation of the running operation -/
  cont : List Point
  /-- the model's record of the last returned result (R38) -/
  ret : Ret
  /-- R35: the watchdog's count since it was cleared; it always runs -/
  wdt : Nat
  -- environment
  /-- the keyboard's drives (R64) -/
  kbdClkDrive : Drive
  kbdDataDrive : Drive
  /-- the agents' steps to come, soonest first; when none is listed MAIN moves (R70) -/
  inputs : List Stimulus
  /-- what agent A2 has latched at the strobe's falling edges, oldest first (R15, R293) -/
  a2Seen : List (BitVec 7)
  /-- the model's counter of resets, to which the free values of R42 are applied -/
  resets : Nat
deriving DecidableEq, Repr

/-- Faults: a step that the block, in a state its rules give, does not take. -/
inductive Fault where
  /-- raised by a push or a pop whose cursor is outside 0..BUF_CAP−1, a cell that does not exist (R61, R67). Safe: the
  model stops, and no state the rules give reaches it. -/
  | noSuchCell (index : Nat)
  /-- raised by a pop of a cell nothing has written since reset (R42: "reading it before the first write is a fault of the
  model"). Safe: the model stops, and no state the rules give reaches it. -/
  | cellNeverWritten (index : Nat)
deriving DecidableEq, Repr

/-- Refusals: the spec gives the operation no meaning there. -/
inductive Refusal where
  /-- raised by `exec` for an instruction without a meaning yet. Safe. -/
  | notModelled (mnemonic : String)
  /-- raised by a meaning of MAIN or of the receiver when the control state does not stand at that operation: "so that a
  model does not offer the phases as separately callable operations" (U5, U11). Safe: the model stops. -/
  | outOfSequence
  /-- raised by BUF.PUSH on a full buffer and by BUF.PUSH.FULL on one that is not: a violated precondition (R161, R162).
  Safe: the model stops. -/
  | pushCondition
  /-- raised by WDT.EXPIRE where the watchdog reset is not enabled (R345). Safe: such a schedule is no run of the block. -/
  | watchdogNotEnabled
  /-- raised by a table read that the parameters do not provide for (R62, U15): only under parameters that break
  `Params.wf`. Safe: the model stops. -/
  | parameterConstraint
  /-- raised by `step` when the word at the control point is no instruction: a byte with bit 7 clear at the writer (R294,
  U4), or a control point that is only a return address. Safe: the model stops. -/
  | undecodable (e : DecodeError)
deriving DecidableEq, Repr

/-- The outcome of a step of this machine. -/
abbrev Out := Host.Outcome State Fault Refusal

/-- The state right after a power-on reset (R42). The unspecified elements hold the free values of the first reset, the
buffer cells have no value, and the environment is quiet: the keyboard drives neither line, nothing is scheduled, the
Apple II has latched nothing. -/
def State.reset : State where
  params := Params.standard
  rxState := .idle
  rxAcc := Config.resetRxAcc 0
  rxBitcnt := (Config.resetRxBitcnt 0).val
  rxParity := (Config.resetRxParity 0).val
  buf := { cells := [] }
  bufWr := 0
  bufRd := 0
  bufCount := 0
  ctrlDown := false
  shiftDown := false
  xlState := .ground
  a2Data := Config.resetA2Data 0
  a2StrobeN := true
  ps2ClkDrive := .released
  ps2DataDrive := .released
  irqEnable := false
  irqPending := false
  mainPhase := .init
  cont := []
  ret := .nothing
  wdt := 0
  kbdClkDrive := .released
  kbdDataDrive := .released
  inputs := []
  a2Seen := []
  resets := 0

end Sys2Proof.Machine
end

