-- ==== Sys2Proof/Machine/Operands.lean ====
section
/-! DEFINITION. The operand forms: the level of a wired line, the receiver's event word, the legal sets of the
commands, the row and slot of the table, the lists a send and the startup run through. -/

namespace Sys2Proof.Machine

open Sys2Proof

/-- `Level(line)`: 0 if either driver pulls low, 1 if both release (R64). -/
def level (block kbd : Drive) : Bool :=
  match block, kbd with
  | .released, .released => true
  | .released, .low => false
  | .low, _ => false

/-- `Level(PS2_CLK)`. -/
def State.clkLevel (s : State) : Bool := level s.ps2ClkDrive s.kbdClkDrive

/-- `Level(PS2_DATA)`. -/
def State.dataLevel (s : State) : Bool := level s.ps2DataDrive s.kbdDataDrive

/-- The drive that presents a level on an open-collector line: 0 pulls low, 1 releases (R187). -/
def driveOf (v : Bool) : Drive := if v then .released else .low

/-- The clock fell between two states: a change of level from 1 to 0, whichever driver caused it (R64). -/
def clockFell (old new : State) : Bool := old.clkLevel && !new.clkLevel

/-- The number of `rx_state` in the event word (R105, D33). -/
def RxState.number : RxState → Nat
  | .idle => 0
  | .collectingDataBits => 1
  | .expectingParity => 2
  | .expectingStop => 3
  | .errorStart => 4
  | .errorOverrun => 5
  | .errorParity => 6
  | .errorStop => 7

/-- The Error* value of `rx_state` that an error is recorded as (R321). -/
def RxState.ofErr : RxErr → RxState
  | .start => .errorStart
  | .overrun => .errorOverrun
  | .parity => .errorParity
  | .stop => .errorStop

/-- The event word of an edge event in state `s`: the number of `rx_state`, then the sampled level (R105, R130). -/
def State.eventWord (s : State) : Nat := 2 * s.rxState.number + s.dataLevel.toNat

/-- The format of the byte the translator classifies, by its position (R98, R99). -/
def XlState.format : XlState → Format
  | .ground => .sc
  | .afterE0 => .scE0
  | .afterE1 => .scE1
  | .afterE1Cont => .scE1C

/-- The legal parameter values of a command (R6, R213 to R216). -/
def legalValues (p : Params) : LegalSet → List Byte
  | .leds => p.legalLeds
  | .typematic => p.legalTypematic
  | .scanset => Config.legalScanset

/-- The table row of the current modifiers (R100). -/
def State.row (s : State) : Row :=
  match s.shiftDown, s.ctrlDown with
  | false, false => .normal
  | true, false => .shift
  | false, true => .ctrl
  | true, true => .shiftCtrl

/-- `TableRead(row, slot)` (R17, R62); no value at a slot the table does not have. -/
def tableRead (p : Params) (r : Row) (slot : Byte) : Option Byte := (p.table.row r)[slot.toNat]?

/-- The successor of a cursor (R61, R111). -/
def cursorNext (p : Params) (c : Nat) : Nat := (c + 1) % p.bufCap

/-- `bits[k]` of a send (R186). -/
def sendBit (b : Byte) (k : Fin 10) : Bool :=
  if k.val < 8 then b.getLsbD k.val else if k.val = 8 then parityBit b else true

/-- The phases of `ps2_send(b)` up to its acknowledge, in order (R180). TX.ACK puts the last two after it. -/
def sendPhases (b : Byte) : List Point :=
  [.op .txPrepare, .op .txInhibit, .op .txRtsData, .op .txRtsRelease,
    .op (.txBit 0 (sendBit b 0)), .op (.txBit 1 (sendBit b 1)), .op (.txBit 2 (sendBit b 2)),
    .op (.txBit 3 (sendBit b 3)), .op (.txBit 4 (sendBit b 4)), .op (.txBit 5 (sendBit b 5)),
    .op (.txBit 6 (sendBit b 6)), .op (.txBit 7 (sendBit b 7)), .op (.txBit 8 (sendBit b 8)),
    .op (.txBit 9 (sendBit b 9)), .op .txReleaseData, .op .txAck]

/-- Send a byte, wait the settle delay, receive the response (R211). -/
def exchange (b : Byte) (c : Cmd) (first : Bool) : List Point :=
  [.op (.ps2Send b), .op .txSettle, .op .ps2RecvBlocking, .cmdAwait c first]

/-- The startup commands in order: LED test sequence, typematic rate, scan-code set (R302). -/
def startupCommands (p : Params) : List Instr :=
  p.ledTestSeq.map (fun e => .cmdSetLeds e.1) ++ [.cmdSetTypematic p.typematicByte, .cmdSetScanset Config.scansetId]

end Sys2Proof.Machine
end

