-- ==== Sys2Proof/Machine/Fetch.lean ====
section
/-! DEFINITION. What runs next. The block fetches no instructions (spec/10_state.md R37): the next operation of MAIN is
selected by its control state and, where the control point holds a byte to inspect, decoded from that byte; an edge
event is decoded from `rx_state` and the sampled level. The schedule `inputs` says which agent moves (R13, R70). -/

namespace Sys2Proof.Machine

open Sys2Proof

/-- The control point MAIN stands at: the innermost of its continuation, or the operation its phase calls for
(R300, R302, R304). -/
def mainTop (s : State) : Point :=
  match s.cont with
  | p :: _ => p
  | [] =>
    match s.mainPhase with
    | .init => .op .init
    | .startup _ => .op .startup
    | .loop => .op .loopIteration

/-- The operation of a pop that is under way. -/
def popOperation (blocking : Bool) : Instr := if blocking then .ps2RecvBlocking else .ps2RecvNonblocking

/-- The instruction due at a control point. A byte to classify, a table entry, a response and a byte to write are
decoded; a response that is neither named code is left to `kbd_command` (R211, R212). -/
def dueAt (p : Params) (x : XlState) : Point → Decoded
  | .op i => .instr i
  | .txInhibitHold => .instr .txInhibit
  | .txBitPlace k v => .instr (.txBit k v)
  | .txBitAwaitHigh k v => .instr (.txBit k v)
  | .txAckSample => .instr .txAck
  | .popCount b _ => .instr (popOperation b)
  | .popStore b _ _ => .instr (popOperation b)
  | .popCursor b _ => .instr (popOperation b)
  | .xlByte none => .instr .xlEmpty
  | .xlByte (some b) => decode p x.format b.toNat
  | .xlEntry e => decode p .te e.toNat
  | .a2Byte a => decode p .a2 a.toNat
  | .a2Setup c => .instr (.a2Write c)
  | .a2Fall c => .instr (.a2Write c)
  | .a2Hold c => .instr (.a2Write c)
  | .a2Rise c => .instr (.a2Write c)
  | .cmdResp c _ r =>
    match decode p .resp r.toNat with
    | .instr i => .instr i
    | .rejected _ => .instr (.kbdCommand c.cmd c.param c.legal)
  | .startupNext => .instr .startup
  | .xlAwait => .rejected .noOperationDue
  | .loopOut => .rejected .noOperationDue
  | .cmdAwait _ _ => .rejected .noOperationDue

/-- The instruction MAIN executes at its next step. -/
def mainDue (s : State) : Decoded := dueAt s.params s.xlState (mainTop s)

/-- The receiver's instruction for an edge event (R105, R130). -/
def rxDue (s : State) : Decoded := decode s.params .rxev s.eventWord

/-- KBD sets its two drives. -/
def State.setKbd (clk data : Drive) (s : State) : State := { s with kbdClkDrive := clk, kbdDataDrive := data }

/-- A falling edge while interrupts are disabled: lost, or remembered under IRQ_LATCH (R41, R130, R328). -/
def State.missEdge (s : State) : State := if s.params.irqLatch then { s with irqPending := true } else s

/-- What a step does: run an instruction at a state, or an environment change that runs none. -/
inductive Fetched where
  | run (d : Decoded) (s : State)
  | quiet (s : State)
deriving DecidableEq, Repr

/-- The head of the schedule moves its agent; without one MAIN moves. -/
def fetch (s : State) : Fetched :=
  match s.inputs with
  | [] => .run (mainDue s) s
  | .main :: r => let t := { s with inputs := r }; .run (mainDue t) t
  | .lines c d :: r =>
    let t := { s with inputs := r }.setKbd c d
    if clockFell s t then
      (if t.irqEnable then .run (rxDue t) t else .quiet t.missEdge)
    else .quiet t
  | .frame b :: r => .run (decode s.params .d2h (wordOfLevels (frameLevels b))) { s with inputs := r }
  | .tick :: r => .quiet { s with inputs := r, wdt := s.wdt + 1 }
  | .wdt :: r => .run (.instr .wdtExpire) { s with inputs := r }
  | .powerOn :: r => .run (.instr .reset) { s with inputs := r }

/-- MAIN is inside a spin: it stands at one of its `WaitUntil`s (R19, R340): the 22 of a send (R195) and the blocking
receive (R164). -/
def inSpin (s : State) : Bool :=
  match mainTop s with
  | .op (.txBit _ _) => true
  | .txBitAwaitHigh _ _ => true
  | .op .txAck => true
  | .op .txAckEnd => true
  | .op .ps2RecvBlocking => true
  | _ => false

/-! ## Placing an instruction at the fetch point -/

/-- The receiver in state `x`, the keyboard about to pull the clock low with level `d` on the data line. -/
def placeEdge (x : RxState) (d : Bool) (s : State) : State :=
  { s with
    rxState := x
    irqEnable := true
    ps2ClkDrive := .released
    ps2DataDrive := .released
    kbdClkDrive := .released
    inputs := [.lines .low (driveOf d)] }

/-- MAIN at the control point `p`, in front of what it was doing; no other agent moves first. -/
def placePoint (p : Point) (s : State) : State := { s with cont := p :: s.cont, inputs := [] }

/-- The translator, in position `x`, with the byte `b` to classify. -/
def placeByte (x : XlState) (b : Nat) (s : State) : State :=
  { placePoint (.xlByte (some (BitVec.ofNat 8 b))) s with xlState := x }

/-- A command exchange to stand around a placed response byte. -/
def placedCommand (p : Params) : Cmd := { cmd := p.cmdSetScanset, param := Config.scansetId, legal := .scanset }

/-- The state in which the very next step runs the instruction `i`. BUF.PUSH and BUF.PUSH.FULL are never a step of their
own, only the halves of RX.STOP.OK (R161, R162), so they have no such state. -/
def State.place (i : Instr) (s : State) : State :=
  let w := (encode s.params i).2
  match i with
  | .rxIdleStart => placeEdge .idle false s
  | .rxIdleBadstart => placeEdge .idle true s
  | .rxData d => placeEdge .collectingDataBits d s
  | .rxParity d => placeEdge .expectingParity d s
  | .rxStopBad => placeEdge .expectingStop false s
  | .rxStopOk => placeEdge .expectingStop true s
  | .rxError e d => placeEdge (RxState.ofErr e) d s
  | .kbdFrame b => { s with inputs := [.frame b] }
  | .xlE1 | .xlE0 | .xlCtrlMake | .xlCtrlBreak | .xlShiftMake2A | .xlShiftMake36 | .xlShiftBreakAA | .xlShiftBreakB6
  | .xlBlocklist0E | .xlBlocklist0F | .xlBlocklist1A | .xlBlocklist1B | .xlBlocklist28 | .xlBlocklist29
  | .xlBlocklist35 | .xlHighrange3A _ | .xlHighrange3C _ | .xlHighrange40 _ | .xlHighrange80 _ | .xlNonpositive
  | .xlLookup _ => placeByte .ground w s
  | .xlE0Ctrl1D | .xlE0Ctrl9D | .xlE0Arrow4B | .xlE0Arrow4D | .xlE0Other _ => placeByte .afterE0 w s
  | .xlE1Cont1D | .xlE1Cont9D | .xlE1Other _ => placeByte .afterE1 w s
  | .xlE1Third _ => placeByte .afterE1Cont w s
  | .xlOutputValid _ | .xlOutputSentinel _ => placePoint (.xlEntry (BitVec.ofNat 8 w)) s
  | .a2Write _ => placePoint (.a2Byte (BitVec.ofNat 8 w)) s
  | .respAck | .respResend => placePoint (.cmdResp (placedCommand s.params) true (BitVec.ofNat 8 w)) s
  | .xlEmpty => placePoint (.xlByte none) s
  | .init => { s with mainPhase := .init, cont := [], inputs := [] }
  | .startup => { s with mainPhase := .startup 0, cont := [], inputs := [] }
  | .loopIteration => { s with mainPhase := .loop, cont := [], inputs := [] }
  | .wdtExpire => { placePoint (.op .ps2RecvBlocking) s with inputs := [.wdt] }
  | .reset => { s with inputs := [.powerOn] }
  | .bufPush _ | .bufPushFull _ => s
  | .ps2Send _ | .cmdSetLeds _ | .cmdSetTypematic _ | .cmdSetScanset _ | .ps2RecvNonblocking | .ps2RecvBlocking
  | .txPrepare | .txInhibit | .txRtsData | .txRtsRelease | .txBit _ _ | .txReleaseData | .txAck | .txAckEnd
  | .txFinish _ | .txSettle | .kbdCommand _ _ _ | .translatePoll | .wdtReset => placePoint (.op i) s

end Sys2Proof.Machine
end

