-- ==== Sys2Proof/Machine/Ops.lean ====
section
/-! DEFINITION. The shared operations over the state: the buffer's cells, raising a receiver error, the control flow of
MAIN (standing at an operation, being called, returning), the line drives, reset. -/

namespace Sys2Proof.Machine

open Sys2Proof

/-! ## Outcomes -/

/-- Go on from a next state. -/
def andThen (o : Out) (f : State → Out) : Out :=
  match o with
  | .next s => f s
  | .fault r => .fault r
  | .refused r => .refused r

/-! ## The ReceiveBuffer's cells -/

/-- The byte at an index, if one has been written. -/
def findCell : List Host.Cell → Nat → Option Byte
  | [], _ => none
  | c :: cs, i => if c.1 = i then some c.2 else findCell cs i

/-- Write a byte at an index, keeping the indices rising. -/
def insertCell : List Host.Cell → Nat → Byte → List Host.Cell
  | [], i, v => [(i, v)]
  | c :: cs, i, v =>
    if i < c.1 then (i, v) :: c :: cs
    else if i = c.1 then (i, v) :: cs
    else c :: insertCell cs i v

def Memory.read (m : Memory) (i : Nat) : Option Byte := findCell m.cells i

def Memory.write (m : Memory) (i : Nat) (v : Byte) : Memory := { cells := insertCell m.cells i v }

/-- `BufRead(i)` (R17): go on with the byte of an existing, written cell. -/
def bufRead (s : State) (i : Nat) (f : Byte → Out) : Out :=
  if i < s.params.bufCap then
    match s.buf.read i with
    | some v => f v
    | none => .fault (.cellNeverWritten i)
  else .fault (.noSuchCell i)

/-- `BufWrite(i, v)` (R17): go on with the cell written. -/
def bufWrite (s : State) (i : Nat) (v : Byte) (f : State → Out) : Out :=
  if i < s.params.bufCap then f { s with buf := s.buf.write i v } else .fault (.noSuchCell i)

/-- The push: write the cell, advance the write cursor, increment the count (R71, R161). -/
def push (v : Byte) (s : State) : Out :=
  bufWrite s s.bufWr v fun t =>
    .next { t with bufWr := cursorNext t.params t.bufWr, bufCount := t.bufCount + 1 }

/-! ## Raising an error

The block's whole exception entry: "the single assignment `rx_state <- Error<kind>`, performed inside the edge event
that detected it, after which the event ends as any other; no handler is invoked, no state is saved" (R322). There is
no return operation (R332). -/

/-- `raise RxError(kind)` (R17, R322). -/
def raiseRx (e : RxErr) (s : State) : State := { s with rxState := RxState.ofErr e }

/-! ## MAIN's control flow -/

/-- MAIN at the control point `p`, in front of its continuation. -/
def State.goto (p : Point) (s : State) : State := { s with cont := p :: s.cont }

/-- MAIN's control point left. -/
def State.popPoint (s : State) : State := { s with cont := s.cont.tail }

/-- An operation that is only ever a part of another: it runs where MAIN's control state stands at it, and is no
separately callable operation (U5). `f` gets the control point and the state that has left it. -/
def whenDue (i : Instr) (s : State) (f : Point → State → Out) : Out :=
  if mainDue s = .instr i then f (mainTop s) s.popPoint else .refused .outOfSequence

/-- An operation that MAIN calls: it runs where MAIN's control state stands at it, or is called from a point at which
MAIN is in no operation, as a line of a script does (R108). -/
def whenCalled (i : Instr) (s : State) (f : Point → State → Out) : Out :=
  if mainDue s = .instr i then f (mainTop s) s.popPoint
  else if s.cont = [] then f (.op i) s
  else .refused .outOfSequence

/-- Return a result to the caller, whose return address is the innermost point of the continuation. The dispatch loop's
own test of the result, `if r = some a then a2_write(a)`, belongs to the return (R305). -/
def returnTo (r : Ret) (s : State) : State :=
  match s.cont, r with
  | .xlAwait :: k, .opt o => { s with ret := r, cont := .xlByte o :: k }
  | .xlAwait :: k, .byte b => { s with ret := r, cont := .xlByte (some b) :: k }
  | .loopOut :: k, .opt none => { s with ret := r, cont := k }
  | .loopOut :: k, .opt (some a) => { s with ret := r, cont := .a2Byte a :: k }
  | .cmdAwait c first :: k, .byte b => { s with ret := r, cont := .cmdResp c first b :: k }
  | _, _ => { s with ret := r }

/-! ## Reset -/

/-- Every state element at its value after a reset (R42, R370). The parameters are no state (R5). The environment is not
reset (R372): the keyboard's drives, the schedule and what the Apple II has latched stay as they are. -/
def State.afterReset (s : State) : State :=
  let n := s.resets + 1
  { State.reset with
    params := s.params
    rxAcc := Config.resetRxAcc n
    rxBitcnt := (Config.resetRxBitcnt n).val
    rxParity := (Config.resetRxParity n).val
    a2Data := Config.resetA2Data n
    kbdClkDrive := s.kbdClkDrive
    kbdDataDrive := s.kbdDataDrive
    inputs := s.inputs
    a2Seen := s.a2Seen
    resets := n }

/-- The watchdog reset is enabled (R345). -/
def watchdogEnabled (s : State) : Bool :=
  inSpin s || (s.params.wdtMode == .wide && s.wdt != 0)

end Sys2Proof.Machine
end

