-- ==== Sys2Proof/Machine/Buffer.lean ====
section
/-! DEFINITION. The ReceiveBuffer's operations (spec/41_receive_buffer.md R160 to R164). -/

namespace Sys2Proof.Machine

open Sys2Proof

/-- R161, BUF.PUSH: precondition `buf_count < BUF_CAP`. -/
def execBufPush (v : Byte) (s : State) : Out :=
  if s.bufCount < s.params.bufCap then push v s else .refused .pushCondition

/-- R162, BUF.PUSH.FULL: the byte is lost, OverrunError. -/
def execBufPushFull (_v : Byte) (s : State) : Out :=
  if s.bufCount < s.params.bufCap then .refused .pushCondition else .next (raiseRx .overrun s)

/-- The result of a receive that has the byte `v`: a byte, or an optional byte (R163, R164, D13). -/
def received (blocking : Bool) (v : Byte) : Ret := if blocking then .byte v else .opt (some v)

/-- A pop with `buf_count > 0`: read the data, decrement the count, advance the cursor (R72, R163), in one step, or
under BUF_POP_ATOMIC = false its first step, the load of the data. `s` has left the pop's control point. -/
def pop (blocking : Bool) (s : State) : Out :=
  bufRead s s.bufRd fun v =>
    if s.params.bufPopAtomic then
      .next <| returnTo (received blocking v)
        { s with bufCount := s.bufCount - 1, bufRd := cursorNext s.params s.bufRd }
    else .next (s.goto (.popCount blocking v))

/-- A receive: its beginning is `atStart`, the rest the later steps of a pop that is not atomic: load the count, store
the count less one, advance the cursor and return (R72, U6). -/
def receive (blocking : Bool) (s : State) (atStart : State → Out) : Out :=
  whenCalled (popOperation blocking) s fun p t =>
    match p with
    | .popCount _ v => .next (t.goto (.popStore blocking v t.bufCount))
    | .popStore _ v c => .next ({ t with bufCount := c - 1 }.goto (.popCursor blocking v))
    | .popCursor _ v => .next (returnTo (received blocking v) { t with bufRd := cursorNext t.params t.bufRd })
    | _ => atStart t

/-- R163, `ps2_recv` non-blocking. -/
def execPs2RecvNonblocking (s : State) : Out :=
  receive false s fun t => if t.bufCount = 0 then .next (returnTo (.opt none) t) else pop false t

/-- R164, `ps2_recv` blocking: while the buffer is empty MAIN stays in the spin. -/
def execPs2RecvBlocking (s : State) : Out :=
  receive true s fun t => if t.bufCount = 0 then .next (t.goto (.op .ps2RecvBlocking)) else pop true t

end Sys2Proof.Machine
end

