-- ==== Sys2Proof/Machine/Command.lean ====
section
/-! DEFINITION. The command layer (spec/43_command_layer.md R210 to R219). -/

namespace Sys2Proof.Machine

open Sys2Proof

/-- R211, `kbd_command(cmd, param, legal)`: an illegal parameter returns RESP_RESEND at once (R213); a legal one sends the
command byte and waits for the response. A response that is neither named code is returned (R212). -/
def execKbdCommand (cmd param : Byte) (legal : LegalSet) (s : State) : Out :=
  whenCalled (.kbdCommand cmd param legal) s fun p t =>
    match p with
    | .cmdResp _ _ r => .next (returnTo (.byte r) t)
    | _ =>
      if (legalValues t.params legal).contains param then
        .next { t with cont := exchange cmd { cmd := cmd, param := param, legal := legal } true ++ t.cont }
      else .next (returnTo (.byte t.params.respResend) t)

/-- R214, CMD.SET_LEDS: the call of `kbd_command` with its operands. -/
def execCmdSetLeds (mask : Byte) (s : State) : Out :=
  whenCalled (.cmdSetLeds mask) s fun _ t => .next (t.goto (.op (.kbdCommand t.params.cmdSetLeds mask .leds)))

/-- R215, CMD.SET_TYPEMATIC. -/
def execCmdSetTypematic (v : Byte) (s : State) : Out :=
  whenCalled (.cmdSetTypematic v) s fun _ t =>
    .next (t.goto (.op (.kbdCommand t.params.cmdSetTypematic v .typematic)))

/-- R216, CMD.SET_SCANSET. -/
def execCmdSetScanset (id : Byte) (s : State) : Out :=
  whenCalled (.cmdSetScanset id) s fun _ t => .next (t.goto (.op (.kbdCommand t.params.cmdSetScanset id .scanset)))

/-- RESP_ACK inspected: after the command byte the parameter byte is sent; after the parameter byte it is the command's
result (R211, R212). -/
def execRespAck (s : State) : Out :=
  whenDue .respAck s fun p t =>
    match p with
    | .cmdResp c true _ => .next { t with cont := exchange c.param c false ++ t.cont }
    | _ => .next (returnTo (.byte t.params.respAck) t)

/-- RESP_RESEND inspected: it is the command's result, after either byte (R211, R212). -/
def execRespResend (s : State) : Out :=
  whenDue .respResend s fun _ t => .next (returnTo (.byte t.params.respResend) t)

end Sys2Proof.Machine
end

