-- ==== Sys2Proof/Machine/Loop.lean ====
section
/-! DEFINITION. MAIN's program: initialisation, startup commands, dispatch loop (spec/46_dispatch_loop.md R300 to R306),
and the two reset events (spec/60_exceptions.md R345, spec/70_reset_and_hazards.md R370). -/

namespace Sys2Proof.Machine

open Sys2Proof

/-- R300, `init`: the state elements it lists take their reset values, the watchdog starts from zero, interrupts are
enabled, MAIN is about to issue its first startup command. It runs in phase Init only. -/
def execInit (s : State) : Out :=
  whenDue .init s fun _ t =>
    if t.mainPhase = .init then
      .next
        { t with
          rxState := .idle
          bufWr := 0
          bufRd := 0
          bufCount := 0
          ctrlDown := false
          shiftDown := false
          xlState := .ground
          a2StrobeN := true
          ps2ClkDrive := .released
          ps2DataDrive := .released
          wdt := 0
          irqEnable := true
          irqPending := false
          mainPhase := .startup 0 }
    else .refused .outOfSequence

/-- R302, `startup` at its k-th command: issue it; when it has returned, its result discarded (R303), go on to the next;
after the last, enter the loop. -/
def execStartup (s : State) : Out :=
  whenDue .startup s fun p t =>
    match t.mainPhase with
    | .startup k =>
      match p with
      | .startupNext => .next { t with mainPhase := .startup (k + 1) }
      | _ =>
        match (startupCommands t.params)[k]? with
        | some c => .next { t with cont := .op c :: .startupNext :: t.cont }
        | none => .next { t with mainPhase := .loop }
    | _ => .refused .outOfSequence

/-- R305, `loop_iteration`: service the watchdog, poll and translate, write if there is output. -/
def execLoopIteration (s : State) : Out :=
  whenCalled .loopIteration s fun _ t =>
    .next { t with cont := .op .wdtReset :: .op .translatePoll :: .loopOut :: t.cont }

/-- R306, `wdt_reset`. -/
def execWdtReset (s : State) : Out := whenCalled .wdtReset s fun _ t => .next { t with wdt := 0 }

/-- R345, WDT.EXPIRE: a full reset, where it is enabled. -/
def execWdtExpire (s : State) : Out :=
  if watchdogEnabled s then .next s.afterReset else .refused .watchdogNotEnabled

/-- R370, RESET. -/
def execReset (s : State) : Out := .next s.afterReset

end Sys2Proof.Machine
end

