-- ==== Sys2Proof/Machine/Translator.lean ====
section
/-! DEFINITION. The scan code translator (spec/44_translator.md R240 to R262), one step per byte (R261) inside one call
(R240): the bytes after an opening E0 or E1 are fetched with the blocking receive before the call returns (R262). -/

namespace Sys2Proof.Machine

open Sys2Proof

/-- The call returns `r`; the translator is at its beginning again. -/
def xlReturn (r : Option Byte) (t : State) : Out := .next (returnTo (.opt r) { t with xlState := .ground })

/-- One more byte of the sequence, with the blocking receive. -/
def xlMore (x : XlState) (t : State) : Out :=
  .next { t with xlState := x, cont := .op .ps2RecvBlocking :: .xlAwait :: t.cont }

/-- The lookup: the entry of the current row at the code's slot (R253). -/
def xlRead (code : Byte) (t : State) : Out :=
  match tableRead t.params t.row code with
  | some e => .next ({ t with xlState := .ground }.goto (.xlEntry e))
  | none => .refused .parameterConstraint

/-- Steps 4 to 6 with a code (R240): filter it, or look it up. -/
def xlFilter (code : Byte) (t : State) : Out :=
  if t.params.blocklist.contains code then xlReturn none t
  else if Config.filterLow ≤ code.toNat then xlReturn none t
  else if code = 0 then xlReturn none t
  else xlRead code t

/-- R240, `translate_poll()`: the first byte is fetched with the non-blocking receive. -/
def execTranslatePoll (s : State) : Out :=
  whenCalled .translatePoll s fun _ t =>
    .next { t with xlState := .ground, cont := .op .ps2RecvNonblocking :: .xlAwait :: t.cont }

/-- R258, XL.EMPTY. -/
def execXlEmpty (s : State) : Out := whenDue .xlEmpty s fun _ t => xlReturn none t

/-- R241, XL.E1. -/
def execXlE1 (s : State) : Out := whenDue .xlE1 s fun _ t => xlMore .afterE1 t

/-- R242, XL.E0. -/
def execXlE0 (s : State) : Out := whenDue .xlE0 s fun _ t => xlMore .afterE0 t

/-- R246, XL.CTRL.MAKE. -/
def execXlCtrlMake (s : State) : Out := whenDue .xlCtrlMake s fun _ t => xlReturn none { t with ctrlDown := true }

/-- R247, XL.CTRL.BREAK. -/
def execXlCtrlBreak (s : State) : Out := whenDue .xlCtrlBreak s fun _ t => xlReturn none { t with ctrlDown := false }

/-- R248, XL.SHIFT.MAKE, byte 0x2A. -/
def execXlShiftMake2A (s : State) : Out :=
  whenDue .xlShiftMake2A s fun _ t => xlReturn none { t with shiftDown := true }

/-- R248, XL.SHIFT.MAKE, byte 0x36. -/
def execXlShiftMake36 (s : State) : Out :=
  whenDue .xlShiftMake36 s fun _ t => xlReturn none { t with shiftDown := true }

/-- R249, XL.SHIFT.BREAK, byte 0xAA. -/
def execXlShiftBreakAA (s : State) : Out :=
  whenDue .xlShiftBreakAA s fun _ t => xlReturn none { t with shiftDown := false }

/-- R249, XL.SHIFT.BREAK, byte 0xB6. -/
def execXlShiftBreakB6 (s : State) : Out :=
  whenDue .xlShiftBreakB6 s fun _ t => xlReturn none { t with shiftDown := false }

/-- R250, XL.BLOCKLIST, first member (default 0x0E, backspace). -/
def execXlBlocklist0E (s : State) : Out := whenDue .xlBlocklist0E s fun _ t => xlReturn none t

/-- R250, XL.BLOCKLIST, second member (default 0x0F, tab). -/
def execXlBlocklist0F (s : State) : Out := whenDue .xlBlocklist0F s fun _ t => xlReturn none t

/-- R250, XL.BLOCKLIST, third member (default 0x1A, left bracket). -/
def execXlBlocklist1A (s : State) : Out := whenDue .xlBlocklist1A s fun _ t => xlReturn none t

/-- R250, XL.BLOCKLIST, fourth member (default 0x1B, right bracket). -/
def execXlBlocklist1B (s : State) : Out := whenDue .xlBlocklist1B s fun _ t => xlReturn none t

/-- R250, XL.BLOCKLIST, fifth member (default 0x28, quote). -/
def execXlBlocklist28 (s : State) : Out := whenDue .xlBlocklist28 s fun _ t => xlReturn none t

/-- R250, XL.BLOCKLIST, sixth member (default 0x29, backtick). -/
def execXlBlocklist29 (s : State) : Out := whenDue .xlBlocklist29 s fun _ t => xlReturn none t

/-- R250, XL.BLOCKLIST, seventh member (default 0x35, forward slash) and any after it. -/
def execXlBlocklist35 (s : State) : Out := whenDue .xlBlocklist35 s fun _ t => xlReturn none t

/-- R251, XL.HIGHRANGE, 0x3A and 0x3B. -/
def execXlHighrange3A (x : BitVec 1) (s : State) : Out := whenDue (.xlHighrange3A x) s fun _ t => xlReturn none t

/-- R251, XL.HIGHRANGE, 0x3C to 0x3F. -/
def execXlHighrange3C (x : BitVec 2) (s : State) : Out := whenDue (.xlHighrange3C x) s fun _ t => xlReturn none t

/-- R251, XL.HIGHRANGE, 0x40 to 0x7F. -/
def execXlHighrange40 (x : BitVec 6) (s : State) : Out := whenDue (.xlHighrange40 x) s fun _ t => xlReturn none t

/-- R251, XL.HIGHRANGE, 0x80 to 0xFF less the five special codes. -/
def execXlHighrange80 (x : BitVec 7) (s : State) : Out := whenDue (.xlHighrange80 x) s fun _ t => xlReturn none t

/-- R252, XL.NONPOSITIVE: the byte 0x00. -/
def execXlNonpositive (s : State) : Out := whenDue .xlNonpositive s fun _ t => xlReturn none t

/-- R253, XL.LOOKUP: the entry is then tested (R254). -/
def execXlLookup (code : Byte) (s : State) : Out := whenDue (.xlLookup code) s fun _ t => xlRead code t

/-- R243, XL.E0.CTRL, E0 1D: as XL.CTRL.MAKE. -/
def execXlE0Ctrl1D (s : State) : Out := whenDue .xlE0Ctrl1D s fun _ t => xlReturn none { t with ctrlDown := true }

/-- R243, XL.E0.CTRL, E0 9D: as XL.CTRL.BREAK. -/
def execXlE0Ctrl9D (s : State) : Out := whenDue .xlE0Ctrl9D s fun _ t => xlReturn none { t with ctrlDown := false }

/-- R244, XL.E0.ARROW, E0 4B: the code becomes slot 55, in the row of the current modifiers. -/
def execXlE0Arrow4B (s : State) : Out := whenDue .xlE0Arrow4B s fun _ t => xlFilter Config.slotLeft t

/-- R244, XL.E0.ARROW, E0 4D: the code becomes slot 56. -/
def execXlE0Arrow4D (s : State) : Out := whenDue .xlE0Arrow4D s fun _ t => xlFilter Config.slotRight t

/-- R245, XL.E0.OTHER. -/
def execXlE0Other (b : Byte) (s : State) : Out := whenDue (.xlE0Other b) s fun _ t => xlReturn none t

/-- R255, XL.E1.CONT, E1 1D: one more byte; `ctrl_down` is not changed. -/
def execXlE1Cont1D (s : State) : Out := whenDue .xlE1Cont1D s fun _ t => xlMore .afterE1Cont t

/-- R255, XL.E1.CONT, E1 9D. -/
def execXlE1Cont9D (s : State) : Out := whenDue .xlE1Cont9D s fun _ t => xlMore .afterE1Cont t

/-- R257, XL.E1.OTHER: both bytes are discarded (D23). -/
def execXlE1Other (b : Byte) (s : State) : Out := whenDue (.xlE1Other b) s fun _ t => xlReturn none t

/-- R256, XL.E1.THIRD: the third byte is not examined. -/
def execXlE1Third (b : Byte) (s : State) : Out := whenDue (.xlE1Third b) s fun _ t => xlReturn none t

/-- R254, XL.OUTPUT, a valid entry: the whole entry is returned, bit 7 included (D27). -/
def execXlOutputValid (c : BitVec 7) (s : State) : Out :=
  whenDue (.xlOutputValid c) s fun _ t => xlReturn (some (1#1 ++ c : BitVec 8)) t

/-- R254, XL.OUTPUT, a sentinel: dropped. -/
def execXlOutputSentinel (x : BitVec 7) (s : State) : Out := whenDue (.xlOutputSentinel x) s fun _ t => xlReturn none t

end Sys2Proof.Machine
end

