-- ==== Sys2Proof/Machine/Receiver.lean ====
section
/-! DEFINITION. The receiver, agent RX (spec/40_receiver.md R130 to R139), and the keyboard's whole frame (R137). -/

namespace Sys2Proof.Machine

open Sys2Proof

/-- An edge event runs the rule of the present `rx_state`; its operand names that state (R130). -/
def whenRx (x : RxState) (s : State) (o : Out) : Out :=
  if s.rxState = x then o else .refused .outOfSequence

/-- A start bit accepted: clear the accumulator, the bit counter and the parity accumulator (R131). -/
def acceptStart (s : State) : State :=
  { s with rxAcc := 0, rxBitcnt := 0, rxParity := 0, rxState := .collectingDataBits }

/-- R131, RX.IDLE.START. -/
def execRxIdleStart (s : State) : Out := whenRx .idle s (.next (acceptStart s))

/-- R132, RX.IDLE.BADSTART: StartBitError. -/
def execRxIdleBadstart (s : State) : Out := whenRx .idle s (.next (raiseRx .start s))

/-- R133, RX.DATA: bit number `rx_bitcnt` of the accumulator takes the level (D10); the test uses the incremented
count. -/
def execRxData (d : Bool) (s : State) : Out :=
  whenRx .collectingDataBits s <|
    let n := s.rxBitcnt + 1
    .next
      { s with
        rxAcc := s.rxAcc ||| (BitVec.ofNat 8 d.toNat <<< s.rxBitcnt)
        rxParity := s.rxParity + d.toNat
        rxBitcnt := n
        rxState := if n = 8 then .expectingParity else .collectingDataBits }

/-- R134, RX.PARITY: the parity bit is added to the sum (D11), whose oddness accepts the frame; else ParityError. -/
def execRxParity (d : Bool) (s : State) : Out :=
  whenRx .expectingParity s <|
    let t := { s with rxParity := s.rxParity + d.toNat }
    .next (if parityAccepts t.rxParity then { t with rxState := .expectingStop } else raiseRx .parity t)

/-- R135, RX.STOP.BAD: StopBitError, whether the buffer is full or not (R326). -/
def execRxStopBad (s : State) : Out := whenRx .expectingStop s (.next (raiseRx .stop s))

/-- R136, RX.STOP.OK: commit the byte and return to Idle, or OverrunError on a full buffer (R161, R162). -/
def execRxStopOk (s : State) : Out :=
  whenRx .expectingStop s <|
    if s.bufCount < s.params.bufCap then
      andThen (push s.rxAcc s) fun t => .next { t with rxState := .idle }
    else .next (raiseRx .overrun s)

/-- R138, RX.ERROR: nothing; or R139 under `resync_on_start`. -/
def execRxError (e : RxErr) (d : Bool) (s : State) : Out :=
  whenRx (RxState.ofErr e) s <|
    match s.params.rxErrorRecovery with
    | .externalResetOnly => .next s
    | .resyncOnStart =>
      if !d && (decide (e ≠ .overrun) || decide (s.bufCount < s.params.bufCap)) then .next (acceptStart s)
      else .next s

/-- RX.EDGE (R130), the interrupt's entry (R331): sample the data line and run the one rule of `rx_state` and the
sample. Nothing is saved and there is nothing to return to (R332). -/
def takeEdge (s : State) : Out :=
  let d := s.dataLevel
  match s.rxState with
  | .idle => if d then execRxIdleBadstart s else execRxIdleStart s
  | .collectingDataBits => execRxData d s
  | .expectingParity => execRxParity d s
  | .expectingStop => if d then execRxStopOk s else execRxStopBad s
  | .errorStart => execRxError .start d s
  | .errorOverrun => execRxError .overrun d s
  | .errorParity => execRxError .parity d s
  | .errorStop => execRxError .stop d s

/-- After a change of a drive: a falling edge of the clock is an edge event while interrupts are enabled, and produces
none while they are not (R64, R130). -/
def clockChanged (old new : State) : Out :=
  if clockFell old new then (if new.irqEnable then takeEdge new else .next new.missEdge) else .next new

/-- One clock pulse of the keyboard with the level `d` on the data line: data set, clock pulled low, clock released. -/
def kbdPulse (d : Bool) (s : State) : Out :=
  let t := s.setKbd .released (driveOf d)
  andThen (clockChanged t (t.setKbd .low (driveOf d))) fun u => .next (u.setKbd .released (driveOf d))

/-- The pulses of a list of levels, one after the other (R108, KBD.BITS). -/
def kbdPulses : List Bool → State → Out
  | [], s => .next s
  | d :: ds, s => andThen (kbdPulse d s) (kbdPulses ds)

/-- R137, KBD.FRAME: the eleven edge events of the valid frame of `b` (R90, R108). -/
def execKbdFrame (b : Byte) (s : State) : Out := kbdPulses (frameLevels b) s

end Sys2Proof.Machine
end

