-- ==== Sys2Proof/Machine/Transmitter.lean ====
section
/-! DEFINITION. The transmitter (spec/42_transmitter.md R180 to R197). The phases of a send are control points that
only `ps2_send` puts into MAIN's continuation. -/

namespace Sys2Proof.Machine

open Sys2Proof

/-- R180, `ps2_send(b)`: the phases of the send, in order. -/
def execPs2Send (b : Byte) (s : State) : Out :=
  whenCalled (.ps2Send b) s fun _ t => .next { t with cont := sendPhases b ++ t.cont }

/-- R181, TX.PREPARE. -/
def execTxPrepare (s : State) : Out :=
  whenDue .txPrepare s fun _ t => .next { t with irqEnable := false, rxState := .idle }

/-- R182, TX.INHIBIT: pull the clock low, then the delay, which always completes (R410). -/
def execTxInhibit (s : State) : Out :=
  whenDue .txInhibit s fun p t =>
    match p with
    | .txInhibitHold => .next t
    | _ => clockChanged s ({ t with ps2ClkDrive := .low }.goto .txInhibitHold)

/-- R183, TX.RTS.DATA. -/
def execTxRtsData (s : State) : Out :=
  whenDue .txRtsData s fun _ t => .next { t with ps2DataDrive := .low }

/-- R184, TX.RTS.RELEASE. -/
def execTxRtsRelease (s : State) : Out :=
  whenDue .txRtsRelease s fun _ t => .next { t with ps2ClkDrive := .released }

/-- R185, TX.BIT k: wait for clock low, place the level (R187), wait for clock high. A wait whose condition does not
hold leaves MAIN where it is (R195). -/
def execTxBit (k : Fin 10) (v : Bool) (s : State) : Out :=
  whenDue (.txBit k v) s fun p t =>
    match p with
    | .txBitPlace _ _ => .next ({ t with ps2DataDrive := driveOf v }.goto (.txBitAwaitHigh k v))
    | .txBitAwaitHigh _ _ => if s.clkLevel then .next t else .next s
    | _ => if s.clkLevel then .next s else .next (t.goto (.txBitPlace k v))

/-- R188, TX.RELEASE.DATA. -/
def execTxReleaseData (s : State) : Out :=
  whenDue .txReleaseData s fun _ t => .next { t with ps2DataDrive := .released }

/-- R189, TX.ACK: wait for clock low, sample the data line; low is an acknowledge. -/
def execTxAck (s : State) : Out :=
  whenDue .txAck s fun p t =>
    match p with
    | .txAckSample => .next { t with cont := .op .txAckEnd :: .op (.txFinish (!s.dataLevel)) :: t.cont }
    | _ => if s.clkLevel then .next s else .next (t.goto .txAckSample)

/-- R190, TX.ACK.END: wait for both lines high. -/
def execTxAckEnd (s : State) : Out :=
  whenDue .txAckEnd s fun _ t => if s.clkLevel && s.dataLevel then .next t else .next s

/-- R191, TX.FINISH: re-enable interrupts, return the acknowledge; under IRQ_LATCH an edge remembered during the send is
delivered here, with the data level of this moment (R41). -/
def execTxFinish (ack : Bool) (s : State) : Out :=
  whenDue (.txFinish ack) s fun _ t =>
    let u := returnTo (.flag ack) { t with irqEnable := true }
    if u.params.irqLatch && u.irqPending then takeEdge { u with irqPending := false } else .next u

/-- R192, TX.SETTLE: a delay, which always completes (R410). -/
def execTxSettle (s : State) : Out := whenDue .txSettle s fun _ t => .next t

end Sys2Proof.Machine
end

