-- ==== Sys2Proof/Machine/Writer.lean ====
section
/-! DEFINITION. The Apple II parallel writer (spec/45_writer.md R290 to R294). -/

namespace Sys2Proof.Machine

open Sys2Proof

/-- The strobe is pulled low: at a fall from 1 to 0 agent A2 latches the seven data lines (R293). -/
def strobeFall (s : State) : State :=
  { s with
    a2StrobeN := false
    a2Seen := if s.a2StrobeN then s.a2Seen ++ [s.a2Data.extractLsb' 0 7] else s.a2Seen }

/-- R291, `a2_write(a)` with `a = 1ccccccc`: data, settle delay, strobe low, pulse width, strobe high. -/
def execA2Write (c : BitVec 7) (s : State) : Out :=
  whenCalled (.a2Write c) s fun p t =>
    match p with
    | .a2Setup _ => .next (t.goto (.a2Fall c))
    | .a2Fall _ => .next ((strobeFall t).goto (.a2Hold c))
    | .a2Hold _ => .next (t.goto (.a2Rise c))
    | .a2Rise _ => .next { t with a2StrobeN := true }
    | _ => .next ({ t with a2Data := (1#1 ++ c : BitVec 8) }.goto (.a2Setup c))

end Sys2Proof.Machine
end

