-- ==== Sys2Proof/Machine/Dispatch.lean ====
section
/-! DEFINITION. One arm per row of spec/opcode_table.json. -/

namespace Sys2Proof.Machine

def exec (i : Instr) (s : State) : Host.Outcome State Fault Refusal :=
  match i with
  | .rxIdleStart => Sys2Proof.Machine.execRxIdleStart s
  | .rxIdleBadstart => Sys2Proof.Machine.execRxIdleBadstart s
  | .rxData d => Sys2Proof.Machine.execRxData d s
  | .rxParity d => Sys2Proof.Machine.execRxParity d s
  | .rxStopBad => Sys2Proof.Machine.execRxStopBad s
  | .rxStopOk => Sys2Proof.Machine.execRxStopOk s
  | .rxError e d => Sys2Proof.Machine.execRxError e d s
  | .kbdFrame b => Sys2Proof.Machine.execKbdFrame b s
  | .ps2Send b => Sys2Proof.Machine.execPs2Send b s
  | .xlE1 => Sys2Proof.Machine.execXlE1 s
  | .xlE0 => Sys2Proof.Machine.execXlE0 s
  | .xlCtrlMake => Sys2Proof.Machine.execXlCtrlMake s
  | .xlCtrlBreak => Sys2Proof.Machine.execXlCtrlBreak s
  | .xlShiftMake2A => Sys2Proof.Machine.execXlShiftMake2A s
  | .xlShiftMake36 => Sys2Proof.Machine.execXlShiftMake36 s
  | .xlShiftBreakAA => Sys2Proof.Machine.execXlShiftBreakAA s
  | .xlShiftBreakB6 => Sys2Proof.Machine.execXlShiftBreakB6 s
  | .xlBlocklist0E => Sys2Proof.Machine.execXlBlocklist0E s
  | .xlBlocklist0F => Sys2Proof.Machine.execXlBlocklist0F s
  | .xlBlocklist1A => Sys2Proof.Machine.execXlBlocklist1A s
  | .xlBlocklist1B => Sys2Proof.Machine.execXlBlocklist1B s
  | .xlBlocklist28 => Sys2Proof.Machine.execXlBlocklist28 s
  | .xlBlocklist29 => Sys2Proof.Machine.execXlBlocklist29 s
  | .xlBlocklist35 => Sys2Proof.Machine.execXlBlocklist35 s
  | .xlHighrange3A x => Sys2Proof.Machine.execXlHighrange3A x s
  | .xlHighrange3C x => Sys2Proof.Machine.execXlHighrange3C x s
  | .xlHighrange40 x => Sys2Proof.Machine.execXlHighrange40 x s
  | .xlHighrange80 x => Sys2Proof.Machine.execXlHighrange80 x s
  | .xlNonpositive => Sys2Proof.Machine.execXlNonpositive s
  | .xlLookup code => Sys2Proof.Machine.execXlLookup code s
  | .xlE0Ctrl1D => Sys2Proof.Machine.execXlE0Ctrl1D s
  | .xlE0Ctrl9D => Sys2Proof.Machine.execXlE0Ctrl9D s
  | .xlE0Arrow4B => Sys2Proof.Machine.execXlE0Arrow4B s
  | .xlE0Arrow4D => Sys2Proof.Machine.execXlE0Arrow4D s
  | .xlE0Other b => Sys2Proof.Machine.execXlE0Other b s
  | .xlE1Cont1D => Sys2Proof.Machine.execXlE1Cont1D s
  | .xlE1Cont9D => Sys2Proof.Machine.execXlE1Cont9D s
  | .xlE1Other b => Sys2Proof.Machine.execXlE1Other b s
  | .xlE1Third b => Sys2Proof.Machine.execXlE1Third b s
  | .xlOutputValid c => Sys2Proof.Machine.execXlOutputValid c s
  | .xlOutputSentinel x => Sys2Proof.Machine.execXlOutputSentinel x s
  | .a2Write c => Sys2Proof.Machine.execA2Write c s
  | .cmdSetLeds mask => Sys2Proof.Machine.execCmdSetLeds mask s
  | .cmdSetTypematic v => Sys2Proof.Machine.execCmdSetTypematic v s
  | .cmdSetScanset id => Sys2Proof.Machine.execCmdSetScanset id s
  | .respAck => Sys2Proof.Machine.execRespAck s
  | .respResend => Sys2Proof.Machine.execRespResend s
  | .bufPush v => Sys2Proof.Machine.execBufPush v s
  | .bufPushFull v => Sys2Proof.Machine.execBufPushFull v s
  | .ps2RecvNonblocking => Sys2Proof.Machine.execPs2RecvNonblocking s
  | .ps2RecvBlocking => Sys2Proof.Machine.execPs2RecvBlocking s
  | .txPrepare => Sys2Proof.Machine.execTxPrepare s
  | .txInhibit => Sys2Proof.Machine.execTxInhibit s
  | .txRtsData => Sys2Proof.Machine.execTxRtsData s
  | .txRtsRelease => Sys2Proof.Machine.execTxRtsRelease s
  | .txBit k v => Sys2Proof.Machine.execTxBit k v s
  | .txReleaseData => Sys2Proof.Machine.execTxReleaseData s
  | .txAck => Sys2Proof.Machine.execTxAck s
  | .txAckEnd => Sys2Proof.Machine.execTxAckEnd s
  | .txFinish ack => Sys2Proof.Machine.execTxFinish ack s
  | .txSettle => Sys2Proof.Machine.execTxSettle s
  | .kbdCommand cmd param legal => Sys2Proof.Machine.execKbdCommand cmd param legal s
  | .translatePoll => Sys2Proof.Machine.execTranslatePoll s
  | .xlEmpty => Sys2Proof.Machine.execXlEmpty s
  | .init => Sys2Proof.Machine.execInit s
  | .startup => Sys2Proof.Machine.execStartup s
  | .loopIteration => Sys2Proof.Machine.execLoopIteration s
  | .wdtReset => Sys2Proof.Machine.execWdtReset s
  | .wdtExpire => Sys2Proof.Machine.execWdtExpire s
  | .reset => Sys2Proof.Machine.execReset s

end Sys2Proof.Machine
end

