-- ==== Sys2Proof/Machine/Step.lean ====
section
/-! DEFINITION. One step of the block, and the placing of a table word at the point where the next step fetches. -/

namespace Sys2Proof.Machine

open Sys2Proof

/-- One step: the agent the schedule names takes its step (R13, R70). An instruction that is due is executed; an
environment change that makes no edge event runs none. -/
def step (s : State) : Host.Outcome State Fault Refusal :=
  match fetch s with
  | .quiet t => .next t
  | .run (.instr i) t => exec i t
  | .run (.rejected e) _ => .refused (.undecodable e)

/-- The state whose next step runs the instruction of a table word. -/
def State.withFetchWord (s : State) (nbits w : Nat) : State :=
  match decodeTableWord nbits w with
  | some i => s.place i
  | none => s

end Sys2Proof.Machine
end

