-- ==== Sys2Proof/Safety.lean ====
section
/-! DEFINITION. What counts as a safe state and a safe run, in the terms the statements use: the properties the spec
derives of the buffer, the receiver, the lines and MAIN's control state, together the invariant `Inv`. -/

namespace Sys2Proof.Machine

open Sys2Proof

/-! ## The buffer as a queue -/

/-- The committed, unread bytes, oldest first (R28, R65, R165). -/
def State.queue (s : State) : List (Option Byte) :=
  (List.range s.bufCount).map fun k => s.buf.read ((s.bufRd + k) % s.params.bufCap)

/-- The buffer's invariants (R26 to R28, R42, R73, R165). -/
structure BufOk (s : State) : Prop where
  canonical : s.buf.wf
  inRange : ∀ c ∈ s.buf.cells, c.1 < s.params.bufCap
  wr : s.bufWr < s.params.bufCap
  rd : s.bufRd < s.params.bufCap
  count : s.bufCount ≤ s.params.bufCap
  cursors : s.bufWr = (s.bufRd + s.bufCount) % s.params.bufCap
  written : ∀ v ∈ s.queue, v.isSome = true

/-! ## The receiver -/

/-- The working registers against the receiver's state (R23, R24, R133, R134). -/
def rxProgress (s : State) : Prop :=
  match s.rxState with
  | .collectingDataBits => s.rxBitcnt < 8 ∧ s.rxAcc.toNat < 2 ^ s.rxBitcnt ∧ s.rxParity = ones s.rxAcc
  | .expectingParity => s.rxBitcnt = 8 ∧ s.rxParity = ones s.rxAcc
  | .expectingStop => s.rxBitcnt = 8 ∧ parityAccepts s.rxParity = true
  | .idle | .errorStart | .errorOverrun | .errorParity | .errorStop => True

/-- The receiver's invariants: the ranges of R23 and R24 and the progress of a frame. -/
structure RxOk (s : State) : Prop where
  bitcnt : s.rxBitcnt ≤ 8
  parity : s.rxParity ≤ 9
  progress : rxProgress s

/-- One of the four terminal states (R138). -/
def RxState.isError : RxState → Bool
  | .errorStart | .errorOverrun | .errorParity | .errorStop => true
  | .idle | .collectingDataBits | .expectingParity | .expectingStop => false

/-! ## MAIN's control state -/

/-- Inside a send, after TX.PREPARE and before the end of TX.FINISH (R74, R181, R191). -/
def Point.inSend : Point → Bool
  | .op .txInhibit | .txInhibitHold | .op .txRtsData | .op .txRtsRelease | .op (.txBit _ _) | .txBitPlace _ _
  | .txBitAwaitHigh _ _ | .op .txReleaseData | .op .txAck | .txAckSample | .op .txAckEnd | .op (.txFinish _) => true
  | _ => false

/-- The block holds the clock low from TX.INHIBIT to TX.RTS.RELEASE (R182 to R184). -/
def Point.holdsClock : Point → Bool
  | .txInhibitHold | .op .txRtsData | .op .txRtsRelease => true
  | _ => false

/-- The block may hold the data line low from TX.RTS.DATA to TX.RELEASE.DATA (R183, R185, R188). -/
def Point.mayHoldData : Point → Bool
  | .op .txRtsRelease | .op (.txBit _ _) | .txBitPlace _ _ | .txBitAwaitHigh _ _ | .op .txReleaseData => true
  | _ => false

/-- The strobe is low from the writer's fall to its rise (R291). -/
def Point.strobeLow : Point → Bool
  | .a2Hold _ | .a2Rise _ => true
  | _ => false

/-- What follows a send inside a startup command (R211, R302). -/
def exchangeRest : List Point → Bool
  | [.op .txSettle, .op .ps2RecvBlocking, .cmdAwait _ _, .startupNext] => true
  | _ => false

/-- What follows bit `j` of a send: the next bit, or after the tenth the release of the data line (R185, R188). -/
def afterBit (j : Fin 10) : List Point → Bool
  | .op (.txBit k _) :: _ => k.val == j.val + 1
  | .op .txReleaseData :: _ => j.val == 9
  | _ => false

/-- The control points of a send of a startup command, in the order of R180. -/
def sendShape : List Point → Bool
  | .op .txPrepare :: k => k.head? == some (.op .txInhibit) && sendShape k
  | .op .txInhibit :: k => k.head? == some (.op .txRtsData) && sendShape k
  | .txInhibitHold :: k => k.head? == some (.op .txRtsData) && sendShape k
  | .op .txRtsData :: k => k.head? == some (.op .txRtsRelease) && sendShape k
  | .op .txRtsRelease :: k => (match k with | .op (.txBit j _) :: _ => j.val == 0 | _ => false) && sendShape k
  | .op (.txBit j _) :: k => afterBit j k && sendShape k
  | .txBitPlace j _ :: k => afterBit j k && sendShape k
  | .txBitAwaitHigh j _ :: k => afterBit j k && sendShape k
  | .op .txReleaseData :: k => k.head? == some (.op .txAck) && sendShape k
  | .op .txAck :: k => exchangeRest k
  | .txAckSample :: k => exchangeRest k
  | .op .txAckEnd :: .op (.txFinish _) :: k => exchangeRest k
  | .op (.txFinish _) :: k => exchangeRest k
  | _ => false

/-- MAIN's continuation during startup (R302): about to issue a command, or inside one. -/
def startupShape : List Point → Bool
  | [] => true
  | [.startupNext] => true
  | [.op (.cmdSetLeds _), .startupNext] => true
  | [.op (.cmdSetTypematic _), .startupNext] => true
  | [.op (.cmdSetScanset _), .startupNext] => true
  | [.op (.kbdCommand _ _ _), .startupNext] => true
  | .op (.ps2Send _) :: k => exchangeRest k
  | [.op .txSettle, .op .ps2RecvBlocking, .cmdAwait _ _, .startupNext] => true
  | [.op .ps2RecvBlocking, .cmdAwait _ _, .startupNext] => true
  | [.cmdResp _ _ _, .startupNext] => true
  | k => sendShape k

/-- MAIN's continuation in the dispatch loop (R305): between iterations, or inside one. -/
def loopShape : List Point → Bool
  | [] => true
  | [.op .wdtReset, .op .translatePoll, .loopOut] => true
  | [.op .translatePoll, .loopOut] => true
  | [.op .ps2RecvNonblocking, .xlAwait, .loopOut] => true
  | [.op .ps2RecvBlocking, .xlAwait, .loopOut] => true
  | [.xlByte _, .loopOut] => true
  | [.xlEntry _, .loopOut] => true
  | [.a2Byte a] => entryValid a
  | [.a2Setup _] => true
  | [.a2Fall _] => true
  | [.a2Hold _] => true
  | [.a2Rise _] => true
  | _ => false

/-- The continuation fits the phase (R34). -/
def controlShape (s : State) : Bool :=
  match s.mainPhase with
  | .init => s.cont.isEmpty
  | .startup _ => startupShape s.cont
  | .loop => loopShape s.cont

/-- The translator is inside a sequence only inside a call, where it waits for the next byte or has it (R30, R262). -/
def xlInside : List Point → Bool
  | [.op .ps2RecvBlocking, .xlAwait, .loopOut] => true
  | [.xlByte (some _), .loopOut] => true
  | _ => false

/-- The data lines hold the byte the writer was given, from before the strobe's fall to after its rise (R291, R383). -/
def dataHeld (s : State) : Prop :=
  match mainTop s with
  | .a2Setup c | .a2Fall c | .a2Hold c | .a2Rise c => s.a2Data = (1#1 ++ c : BitVec 8)
  | _ => True

/-- The control invariants: the shape of the continuation, the interrupt enable (R74, R194), the line drives (R32), the
strobe (R31, R291), the translator's position. -/
structure ControlOk (s : State) : Prop where
  shape : controlShape s = true
  enable : s.irqEnable = (!(s.mainPhase == .init) && !(mainTop s).inSend)
  receiver : (mainTop s).inSend = true → s.rxState = .idle
  clock : s.ps2ClkDrive = if (mainTop s).holdsClock then .low else .released
  data : (mainTop s).mayHoldData = false → s.ps2DataDrive = .released
  pending : s.irqPending = true → s.params.irqLatch = true ∧ s.irqEnable = false
  strobe : s.a2StrobeN = !(mainTop s).strobeLow
  held : dataHeld s
  translator : s.xlState ≠ .ground → xlInside s.cont = true

/-- The invariant of the block under well-formed parameters with an atomic pop (R6, R72). -/
structure Inv (s : State) : Prop where
  params : s.params.wf = true
  atomic : s.params.bufPopAtomic = true
  buffer : BufOk s
  receiver : RxOk s
  control : ControlOk s

/-! ## Terms of the statements -/

/-- The condition MAIN waits for, where it stands at a `WaitUntil` (R17, R164, R185, R189, R190). -/
def awaited (s : State) : Option Bool :=
  match mainTop s with
  | .op (.txBit _ _) => some (!s.clkLevel)
  | .txBitAwaitHigh _ _ => some s.clkLevel
  | .op .txAck => some (!s.clkLevel)
  | .op .txAckEnd => some (s.clkLevel && s.dataLevel)
  | .op .ps2RecvBlocking => some (decide (0 < s.bufCount))
  | _ => none

/-- An operation may run: MAIN stands at it, or is in no operation and calls it. `k` is what MAIN goes on with. -/
def MayCall (i : Instr) (s : State) (k : List Point) : Prop :=
  (s.cont = .op i :: k) ∨ (s.cont = [] ∧ k = [])

/-- The translator's call ends without output; the result goes to the caller. -/
def State.noOutput (s : State) : State := returnTo (.opt none) { s.popPoint with xlState := .ground }

/-- Between dispatch-loop iterations, nothing else scheduled. -/
def AtLoopTop (s : State) : Prop := s.mainPhase = .loop ∧ s.cont = [] ∧ s.inputs = []

/-- The lines are free for the keyboard to send: the block drives neither, and edges reach the receiver. -/
def Listening (s : State) : Prop :=
  s.irqEnable = true ∧ s.ps2ClkDrive = .released ∧ s.ps2DataDrive = .released

/-- The schedule asks for nothing the block does not allow: a watchdog step only where the watchdog reset is enabled
(R345). -/
def Admissible (s : State) : Prop := ∀ r, s.inputs = .wdt :: r → watchdogEnabled s = true

end Sys2Proof.Machine
end

