-- ==== Sys2Proof/Certificates/Slice0/Obligations.lean ====
section
/-! DEFINITION. The statements for the provers, each formalising or resting on rules of spec/. A statement that rests on a
decision of the spec (a D number) or on a choice of the model says so. -/

open Sys2Proof Sys2Proof.Machine

/-! ## Words -/

/-- Words written out from the spec's encodings are read as the rows they stand for: event words (R105), the frames of
0x1E and 0xED in time order (95_test_vectors.md 2.1, 2.4), bytes of each code class (R98, R99), a table entry and an
output byte (R101, R102). That the first level of a frame is bit 0 of its word and the command byte the low byte of a
command's is the model's choice (log entry 22); the BLOCKLIST, command and response bytes are the standard parameters',
which the spec has from general knowledge (log entry 19, D6, D18). -/
def Obligations.WordsOfTheSpecDecode : Prop :=
  let p := Params.standard
  decode p .rxev 0b0000 = .instr .rxIdleStart ∧ decode p .rxev 0b0011 = .instr (.rxData true)
    ∧ decode p .rxev 0b0100 = .instr (.rxParity false) ∧ decode p .rxev 0b0111 = .instr .rxStopOk
    ∧ decode p .rxev 0b1011 = .instr (.rxError .overrun true)
    ∧ decode p .d2h 0b11000111100 = .instr (.kbdFrame 0x1E)
    ∧ decode p .d2h 0b10000111100 = .rejected .parityEven
    ∧ decode p .h2d 0b1111101101 = .instr (.ps2Send 0xED)
    ∧ decode p .sc 0xE1 = .instr .xlE1 ∧ decode p .sc 0x9D = .instr .xlCtrlBreak
    ∧ decode p .sc 0x35 = .instr .xlBlocklist35 ∧ decode p .sc 0x3A = .instr (.xlHighrange3A 0)
    ∧ decode p .sc 0x9E = .instr (.xlHighrange80 0x1E) ∧ decode p .sc 0x00 = .instr .xlNonpositive
    ∧ decode p .sc 0x39 = .instr (.xlLookup 0x39) ∧ decode p .scE0 0x4D = .instr .xlE0Arrow4D
    ∧ decode p .scE1 0x1D = .instr .xlE1Cont1D ∧ decode p .scE1C 0xE0 = .instr (.xlE1Third 0xE0)
    ∧ decode p .te 0xC1 = .instr (.xlOutputValid 0x41) ∧ decode p .te 0x41 = .instr (.xlOutputSentinel 0x41)
    ∧ decode p .a2 0xC1 = .instr (.a2Write 0x41) ∧ decode p .a2 0x41 = .rejected .bit7Clear
    ∧ decode p .cmd 0x07ED = .instr (.cmdSetLeds 0x07) ∧ decode p .resp 0xFA = .instr .respAck

/-- Every well-formed instruction, with every operand its encoding admits, is read back from its own word, under any
well-formed parameters. -/
def Obligations.DecodeOfEncodeIsTheInstruction : Prop :=
  ∀ p : Params, p.wf = true → ∀ i : Instr, WellFormed p i = true →
    decode p (encode p i).1 (encode p i).2 = .instr i

/-- Whatever word of whatever format decodes, decodes to a well-formed instruction and is that instruction's own word, so
that a word which no instruction has (an even parity, a wrong start or stop bit, a clear bit 7, a foreign command or
response byte, an operand out of range) decodes to none. The codes of BLOCKLIST from the seventh member on share the last
row (log entry 6). The order of the bits of frames and commands and the words of OP are the model's (log entries 22, 4). -/
def Obligations.DecodedInstructionIsWellFormed : Prop :=
  ∀ p : Params, p.wf = true → ∀ (f : Format) (w : Nat) (i : Instr), decode p f w = .instr i →
    WellFormed p i = true
    ∧ (i ≠ .xlBlocklist35 → encode p i = (f, w))
    ∧ (i = .xlBlocklist35 → f = .sc ∧ ∃ k b, 6 ≤ k ∧ p.blocklist[k]? = some b ∧ w = b.toNat)

/-- The classes of a scan-code byte in Ground beyond the named codes (R98): a code of 58 or more is discarded by a
HIGHRANGE row, a code of BLOCKLIST by a BLOCKLIST row, 0x00 by NONPOSITIVE, and every byte that remains is looked up
under its own code. -/
def Obligations.GroundBytesFallInTheirClasses : Prop :=
  ∀ p : Params, p.wf = true → ∀ b : Byte,
    b ∉ ([0xE1, 0xE0, 0x1D, 0x9D, 0x2A, 0x36, 0xAA, 0xB6] : List Byte) →
    (58 ≤ b.toNat →
      (∃ x, b &&& 0xFE = 0x3A ∧ decode p .sc b.toNat = .instr (.xlHighrange3A x))
      ∨ (∃ x, b &&& 0xFC = 0x3C ∧ decode p .sc b.toNat = .instr (.xlHighrange3C x))
      ∨ (∃ x, b &&& 0xC0 = 0x40 ∧ decode p .sc b.toNat = .instr (.xlHighrange40 x))
      ∨ (∃ x, b &&& 0x80 = 0x80 ∧ decode p .sc b.toNat = .instr (.xlHighrange80 x)))
    ∧ (b ∈ p.blocklist →
        ∃ i ∈ [Instr.xlBlocklist0E, .xlBlocklist0F, .xlBlocklist1A, .xlBlocklist1B, .xlBlocklist28, .xlBlocklist29,
          .xlBlocklist35], decode p .sc b.toNat = .instr i)
    ∧ (b = 0 → decode p .sc b.toNat = .instr .xlNonpositive)
    ∧ (0 < b.toNat → b.toNat < 58 → b ∉ p.blocklist → decode p .sc b.toNat = .instr (.xlLookup b))

/-! ## Reset and parameters -/

/-- The state after a power-on reset (R42): the values the spec gives, its decisions D8, D9, D29, D31 and D35 among them.
Of the elements R42 leaves unspecified the model says this much: `rx_bitcnt` and `rx_parity` are free values inside their
ranges (log entry 7, DEDUCED from R23 and R24), and no buffer cell has a value (log entry 8, DESIGN CHOICE). -/
def Obligations.ResetLeavesTheValuesOfTheTable : Prop :=
  State.reset.rxState = .idle ∧ State.reset.rxBitcnt ≤ 8 ∧ State.reset.rxParity ≤ 9
    ∧ State.reset.bufWr = 0 ∧ State.reset.bufRd = 0 ∧ State.reset.bufCount = 0
    ∧ (∀ i, State.reset.buf.read i = none)
    ∧ State.reset.ctrlDown = false ∧ State.reset.shiftDown = false ∧ State.reset.xlState = .ground
    ∧ State.reset.a2StrobeN = true
    ∧ State.reset.ps2ClkDrive = .released ∧ State.reset.ps2DataDrive = .released
    ∧ State.reset.irqEnable = false ∧ State.reset.mainPhase = .init ∧ State.reset.wdt = 0

/-- RESET, and WDT.EXPIRE where it is enabled, put every state element of the block at its reset value whatever the state
was, and leave alone the parameters, the keyboard's lines, the schedule and what the Apple II has latched (R370, R372).
WDT.EXPIRE is enabled in a spin, which the model reads as standing at a wait whether or not its condition holds (log entry
10), and under the wide variant also when the watchdog has counted (log entry 11); elsewhere it is refused by name (R345,
D31, log entry 10). The unspecified registers are free inside their ranges (log entry 7), the cells have no value (log
entry 8), the latch of IRQ_LATCH is cleared (log entry 16), the environment is left alone (log entry 17). -/
def Obligations.ResetAndWatchdogRestoreTheBlock : Prop :=
  ∀ s : State,
    (∃ t, exec .reset s = .next t
      ∧ t.rxState = .idle ∧ t.rxBitcnt ≤ 8 ∧ t.rxParity ≤ 9 ∧ (∀ i, t.buf.read i = none)
      ∧ t.bufWr = 0 ∧ t.bufRd = 0 ∧ t.bufCount = 0 ∧ t.ctrlDown = false ∧ t.shiftDown = false ∧ t.xlState = .ground
      ∧ t.a2StrobeN = true ∧ t.ps2ClkDrive = .released ∧ t.ps2DataDrive = .released
      ∧ t.irqEnable = false ∧ t.irqPending = false ∧ t.mainPhase = .init ∧ t.cont = [] ∧ t.wdt = 0
      ∧ t.params = s.params ∧ t.kbdClkDrive = s.kbdClkDrive ∧ t.kbdDataDrive = s.kbdDataDrive
      ∧ t.inputs = s.inputs ∧ t.a2Seen = s.a2Seen
      ∧ ((inSpin s = true ∨ (s.params.wdtMode = .wide ∧ s.wdt ≠ 0)) → exec .wdtExpire s = .next t))
    ∧ (inSpin s = false → (s.params.wdtMode = .spinOnly ∨ s.wdt = 0) →
        exec .wdtExpire s = .refused .watchdogNotEnabled)

/-- No step changes a parameter: "every constant of rule R6 is fixed at build time and is a parameter of the model, not
state" (R5, R76). -/
def Obligations.NoStepChangesAParameter : Prop :=
  ∀ s t : State, step s = .next t → t.params = s.params

/-! ## Receiver -/

/-- R131, RX.IDLE.START: a start bit clears the three working registers, whatever they held, and nothing else but the
receiver's state changes. -/
def Obligations.StartBitClearsTheWorkingRegisters : Prop :=
  ∀ s : State, s.rxState = .idle →
    exec .rxIdleStart s
      = .next { s with rxAcc := 0, rxBitcnt := 0, rxParity := 0, rxState := .collectingDataBits }

/-- R132 and R135: a start level of 1 and a stop level of 0 set the sticky state and change nothing else, whether the
buffer is full or not. -/
def Obligations.BadStartAndStopBitsOnlySetTheErrorState : Prop :=
  ∀ s : State,
    (s.rxState = .idle → exec .rxIdleBadstart s = .next { s with rxState := .errorStart })
    ∧ (s.rxState = .expectingStop → exec .rxStopBad s = .next { s with rxState := .errorStop })

/-- R133, RX.DATA, in the form D10 fixes: the level enters the accumulator at bit `rx_bitcnt`, the sum grows by it, the
count by one, and the eighth bit leads to ExpectingParity; nothing else changes. -/
def Obligations.DataBitEntersTheAccumulator : Prop :=
  ∀ (s : State) (d : Bool), s.rxState = .collectingDataBits →
    ∃ t, exec (.rxData d) s = .next t
      ∧ (∀ k < 8, t.rxAcc.getLsbD k = (s.rxAcc.getLsbD k || (d && decide (k = s.rxBitcnt))))
      ∧ t = { s with
              rxAcc := t.rxAcc
              rxParity := s.rxParity + d.toNat
              rxBitcnt := s.rxBitcnt + 1
              rxState := if s.rxBitcnt + 1 = 8 then .expectingParity else .collectingDataBits }

/-- R134, RX.PARITY: an odd count of 1 bits, the parity bit included, leads to ExpectingStop, an even one to ErrorParity;
the sum keeps the parity bit (D11) and nothing else changes. -/
def Obligations.ParityBitDecidesTheFrame : Prop :=
  ∀ (s : State) (d : Bool), s.rxState = .expectingParity →
    exec (.rxParity d) s
      = .next { s with
          rxParity := s.rxParity + d.toNat
          rxState := if (s.rxParity + d.toNat) % 2 = 1 then .expectingStop else .errorParity }

/-- R136, RX.STOP.OK: the byte is committed and the receiver returns to Idle; on a full buffer it goes to ErrorOverrun and
nothing else changes. -/
def Obligations.StopBitCommitsOrOverruns : Prop :=
  ∀ s : State, s.rxState = .expectingStop → s.bufWr < s.params.bufCap →
    exec .rxStopOk s
      = .next (if s.bufCount < s.params.bufCap then
          { s with
            buf := s.buf.write s.bufWr s.rxAcc
            bufWr := (s.bufWr + 1) % s.params.bufCap
            bufCount := s.bufCount + 1
            rxState := .idle }
        else { s with rxState := .errorOverrun })

/-- R138, RX.ERROR: in an error state an edge of either level changes nothing; under the alternative of R139 a 0 level
restarts the receiver, from ErrorOverrun only when the buffer has room (D7). -/
def Obligations.ErrorStatesIgnoreEdges : Prop :=
  ∀ (s : State) (e : RxErr) (d : Bool), s.rxState = RxState.ofErr e →
    (s.params.rxErrorRecovery = .externalResetOnly → exec (.rxError e d) s = .next s)
    ∧ (s.params.rxErrorRecovery = .resyncOnStart →
        exec (.rxError e d) s
          = .next (if d = false ∧ (e ≠ .overrun ∨ s.bufCount < s.params.bufCap) then
              { s with rxAcc := 0, rxBitcnt := 0, rxParity := 0, rxState := .collectingDataBits }
            else s))

/-- A whole valid frame (R91, R137): received from Idle, it yields exactly its byte as one buffer entry; `rx_parity` ends
with the parity bit counted in (D11). That a frame is one step and ends with the keyboard's lines released is the model's
choice (log entry 21). Nothing else but the receiver's working registers changes. -/
def Obligations.ValidFrameYieldsItsByte : Prop :=
  ∀ (s : State) (b : Byte), Listening s → s.rxState = .idle → s.bufCount < s.params.bufCap →
    s.bufWr < s.params.bufCap →
    exec (.kbdFrame b) s
      = .next { s with
          rxAcc := b
          rxBitcnt := 8
          rxParity := ones b + (parityBit b).toNat
          buf := s.buf.write s.bufWr b
          bufWr := (s.bufWr + 1) % s.params.bufCap
          bufCount := s.bufCount + 1
          kbdClkDrive := .released
          kbdDataDrive := .released }

/-- Any eleven levels received from Idle (R93, R326): the first failing check in wire order (start, parity, stop, buffer)
decides the state, the later edges are ignored, and a buffer entry is made only by a valid frame that finds room. -/
def Obligations.FirstFailingCheckDecidesTheFrame : Prop :=
  ∀ (s : State) (l d0 d1 d2 d3 d4 d5 d6 d7 p e : Bool), Listening s → s.rxState = .idle →
    s.params.rxErrorRecovery = .externalResetOnly → s.bufWr < s.params.bufCap →
    ∃ t, kbdPulses [l, d0, d1, d2, d3, d4, d5, d6, d7, p, e] s = .next t
      ∧ (let sum := d0.toNat + d1.toNat + d2.toNat + d3.toNat + d4.toNat + d5.toNat + d6.toNat + d7.toNat + p.toNat
         let byte := d0.toNat + 2 * d1.toNat + 4 * d2.toNat + 8 * d3.toNat + 16 * d4.toNat + 32 * d5.toNat
           + 64 * d6.toNat + 128 * d7.toNat
         let valid := l = false ∧ sum % 2 = 1 ∧ e = true
         t.rxState = (if l = true then .errorStart else if sum % 2 = 0 then .errorParity
           else if e = false then .errorStop
           else if s.bufCount < s.params.bufCap then .idle else .errorOverrun)
         ∧ (valid ∧ s.bufCount < s.params.bufCap →
             t.buf = s.buf.write s.bufWr (BitVec.ofNat 8 byte) ∧ t.bufWr = (s.bufWr + 1) % s.params.bufCap
             ∧ t.bufCount = s.bufCount + 1)
         ∧ (¬ (valid ∧ s.bufCount < s.params.bufCap) →
             t.buf = s.buf ∧ t.bufWr = s.bufWr ∧ t.bufCount = s.bufCount)
         ∧ t.bufRd = s.bufRd ∧ t.cont = s.cont ∧ t.mainPhase = s.mainPhase ∧ t.ctrlDown = s.ctrlDown
         ∧ t.shiftDown = s.shiftDown ∧ t.xlState = s.xlState ∧ t.a2Data = s.a2Data ∧ t.a2StrobeN = s.a2StrobeN
         ∧ t.a2Seen = s.a2Seen ∧ t.irqEnable = s.irqEnable ∧ t.wdt = s.wdt ∧ t.ret = s.ret)

/-- While interrupts are disabled a frame produces no event and is not remembered (R130, with IRQ_LATCH = false by D14);
in an error state its eleven events change nothing (R138, D7): only the keyboard's own lines have moved. That a frame is
one step and ends with both of them released is the model's choice (log entry 21). -/
def Obligations.FrameWithoutAListenerIsLost : Prop :=
  ∀ (s : State) (b : Byte),
    (s.irqEnable = false ∧ s.params.irqLatch = false
      ∨ s.rxState.isError = true ∧ s.irqEnable = true ∧ s.params.rxErrorRecovery = .externalResetOnly) →
    exec (.kbdFrame b) s = .next { s with kbdClkDrive := .released, kbdDataDrive := .released }

/-! ## ReceiveBuffer -/

/-- R161, BUF.PUSH: data, cursor modulo the capacity, count; the written cell holds the byte, every other cell is as
before. On a full buffer, where its precondition fails, it is refused by name, which is the model's choice (log entry
13). -/
def Obligations.PushWritesOneCellAndAdvances : Prop :=
  ∀ (s : State) (v : Byte),
    (s.bufCount < s.params.bufCap → s.bufWr < s.params.bufCap →
      ∃ t, exec (.bufPush v) s = .next t
        ∧ (∀ i, t.buf.read i = if i = s.bufWr then some v else s.buf.read i)
        ∧ t = { s with buf := t.buf, bufWr := (s.bufWr + 1) % s.params.bufCap, bufCount := s.bufCount + 1 })
    ∧ (s.params.bufCap ≤ s.bufCount → exec (.bufPush v) s = .refused .pushCondition)

/-- R162, BUF.PUSH.FULL: ErrorOverrun; no cell, cursor or count is written, the byte is lost. Where the buffer is not full
the operation is not the one due, and is refused by name, which is the model's choice (log entry 13). -/
def Obligations.PushOnAFullBufferLosesTheByte : Prop :=
  ∀ (s : State) (v : Byte),
    (s.params.bufCap ≤ s.bufCount → exec (.bufPushFull v) s = .next { s with rxState := .errorOverrun })
    ∧ (s.bufCount < s.params.bufCap → exec (.bufPushFull v) s = .refused .pushCondition)

/-- The buffer is a queue (R65, R73, R165): a push appends at the end, either receive removes and returns the oldest
byte, and the invariants of R28 hold after each; BUF_POP_ATOMIC = true (D12). -/
def Obligations.TheBufferIsAFifoQueue : Prop :=
  ∀ s : State, BufOk s →
    (∀ v, s.bufCount < s.params.bufCap →
      ∃ t, exec (.bufPush v) s = .next t ∧ BufOk t ∧ t.queue = s.queue ++ [some v])
    ∧ (∀ v q k, s.params.bufPopAtomic = true → s.queue = some v :: q → MayCall .ps2RecvNonblocking s k →
        ∃ t, exec .ps2RecvNonblocking s = .next t ∧ BufOk t ∧ t.queue = q ∧ t.ret = .opt (some v))
    ∧ (∀ v q k, s.params.bufPopAtomic = true → s.queue = some v :: q → MayCall .ps2RecvBlocking s k →
        ∃ t, exec .ps2RecvBlocking s = .next t ∧ BufOk t ∧ t.queue = q ∧ t.ret = .byte v)

/-- R163 and R164 as one step of MAIN (D12): the byte at the read cursor is the result, the count goes down by one, the
cursor advances modulo the capacity; on an empty buffer the non-blocking form returns `none` (D13) and the blocking one
stays in its spin (log entry 9). The result goes to the operation that waits for it, the translator (R240) or a command
(R211), and is recorded in `ret` (log entry 14); a call from a script (R108) has nothing that waits. -/
def Obligations.ReceivePopsOneByteOrFindsNone : Prop :=
  ∀ (s : State) (k : List Point),
    (MayCall .ps2RecvNonblocking s k →
      (s.bufCount = 0 → exec .ps2RecvNonblocking s = .next (returnTo (.opt none) { s with cont := k }))
      ∧ (∀ v, 0 < s.bufCount → s.params.bufPopAtomic = true → s.bufRd < s.params.bufCap →
          s.buf.read s.bufRd = some v →
          exec .ps2RecvNonblocking s
            = .next (returnTo (.opt (some v))
                { s with cont := k, bufCount := s.bufCount - 1, bufRd := (s.bufRd + 1) % s.params.bufCap })))
    ∧ (MayCall .ps2RecvBlocking s k →
      (s.bufCount = 0 → exec .ps2RecvBlocking s = .next { s with cont := .op .ps2RecvBlocking :: k })
      ∧ (∀ v, 0 < s.bufCount → s.params.bufPopAtomic = true → s.bufRd < s.params.bufCap →
          s.buf.read s.bufRd = some v →
          exec .ps2RecvBlocking s
            = .next (returnTo (.byte v)
                { s with cont := k, bufCount := s.bufCount - 1, bufRd := (s.bufRd + 1) % s.params.bufCap })))
    ∧ (s.cont = .xlAwait :: k → ∀ (o : Option Byte) (v : Byte),
        returnTo (.opt o) s = { s with ret := .opt o, cont := .xlByte o :: k }
        ∧ returnTo (.byte v) s = { s with ret := .byte v, cont := .xlByte (some v) :: k })
    ∧ (∀ (c : Cmd) (first : Bool) (v : Byte), s.cont = .cmdAwait c first :: k →
        returnTo (.byte v) s = { s with ret := .byte v, cont := .cmdResp c first v :: k })
    ∧ (s.cont = [] → ∀ r : Ret, returnTo r s = { s with ret := r })

/-- The pop that is not atomic (R72, U6, BUF_POP_ATOMIC = false), in either form of the receive (`b` is true for the
blocking one): load the data, load the count, store the loaded count less one, advance the cursor and return. The stored
count is the loaded one's, whatever was pushed in between: the lost increment of U6. -/
def Obligations.SplitPopStoresTheLoadedCount : Prop :=
  ∀ (s : State) (b : Bool) (k : List Point) (v : Byte) (c : Nat),
    (s.cont = .op (popOperation b) :: k → s.params.bufPopAtomic = false → 0 < s.bufCount →
      s.bufRd < s.params.bufCap → s.buf.read s.bufRd = some v →
      exec (popOperation b) s = .next { s with cont := .popCount b v :: k })
    ∧ (s.cont = .popCount b v :: k →
        exec (popOperation b) s = .next { s with cont := .popStore b v s.bufCount :: k })
    ∧ (s.cont = .popStore b v c :: k →
        exec (popOperation b) s = .next { s with bufCount := c - 1, cont := .popCursor b v :: k })
    ∧ (s.cont = .popCursor b v :: k →
        exec (popOperation b) s
          = .next (returnTo (if b then .byte v else .opt (some v))
              { s with bufRd := (s.bufRd + 1) % s.params.bufCap, cont := k }))

/-! ## Transmitter -/

/-- `ps2_send(b)` (R180) puts its phases before what MAIN goes on with and changes nothing else; the ten levels it will
place are the bits of R186: b[0] to b[7], the odd-parity bit, 1. -/
def Obligations.SendPlacesTheTenBits : Prop :=
  ∀ (s : State) (b : Byte) (k : List Point), MayCall (.ps2Send b) s k →
    exec (.ps2Send b) s = .next { s with cont := sendPhases b ++ k }
    ∧ (sendPhases b).filterMap (fun p => match p with | .op (.txBit j v) => some (j.val, v) | _ => none)
      = [(0, b.getLsbD 0), (1, b.getLsbD 1), (2, b.getLsbD 2), (3, b.getLsbD 3), (4, b.getLsbD 4), (5, b.getLsbD 5),
          (6, b.getLsbD 6), (7, b.getLsbD 7), (8, parityBit b), (9, true)]

/-- The parity bit of a sent byte is 1 ^ b[0] ^ … ^ b[7], the one bit that makes the number of 1s among the nine bits odd
(R95), and the receiver's acceptance test passes with exactly that parity bit (R113). -/
def Obligations.ParityBitMakesTheCountOdd : Prop :=
  ∀ (b : Byte) (p : Bool),
    parityBit b = (true ^^ b.getLsbD 0 ^^ b.getLsbD 1 ^^ b.getLsbD 2 ^^ b.getLsbD 3 ^^ b.getLsbD 4 ^^ b.getLsbD 5
      ^^ b.getLsbD 6 ^^ b.getLsbD 7)
    ∧ ((ones b + p.toNat) % 2 = 1 ↔ p = parityBit b)
    ∧ (parityAccepts (ones b + p.toNat) = true ↔ p = parityBit b)

/-- R181, TX.PREPARE: interrupts off, receiver forced to Idle whatever it was; nothing else changes, the buffer not
either (D40). -/
def Obligations.PrepareForcesTheReceiverIdle : Prop :=
  ∀ (s : State) (k : List Point), s.cont = .op .txPrepare :: k →
    exec .txPrepare s = .next { s with irqEnable := false, rxState := .idle, cont := k }

/-- R183, R184 and R188: the line actions of TX.RTS.DATA, TX.RTS.RELEASE and TX.RELEASE.DATA, and no other change. The
level of a line is 0 exactly when either of its two drives is Low, and the clock falls when its level changes from 1 to 0
(R64; the wired-AND without rise time is log entry 24). -/
def Obligations.RequestToSendDrivesTheLines : Prop :=
  ∀ (s : State) (k : List Point),
    (s.cont = .op .txRtsData :: k → exec .txRtsData s = .next { s with ps2DataDrive := .low, cont := k })
    ∧ (s.cont = .op .txRtsRelease :: k → exec .txRtsRelease s = .next { s with ps2ClkDrive := .released, cont := k })
    ∧ (s.cont = .op .txReleaseData :: k → exec .txReleaseData s = .next { s with ps2DataDrive := .released, cont := k })
    ∧ (∀ block kbd : Drive, level block kbd = false ↔ block = .low ∨ kbd = .low)
    ∧ (s.clkLevel = false ↔ s.ps2ClkDrive = .low ∨ s.kbdClkDrive = .low)
    ∧ (s.dataLevel = false ↔ s.ps2DataDrive = .low ∨ s.kbdDataDrive = .low)
    ∧ (∀ t : State, clockFell s t = true ↔ s.clkLevel = true ∧ t.clkLevel = false)

/-- R182, TX.INHIBIT: the clock is pulled low; with interrupts disabled its fall is no edge event (under IRQ_LATCH it is
remembered, D14); then the delay completes. R192, TX.SETTLE, is a delay and changes nothing (D21). -/
def Obligations.InhibitAndSettleComplete : Prop :=
  ∀ (s : State) (k : List Point),
    (s.cont = .op .txInhibit :: k → s.irqEnable = false →
      exec .txInhibit s
        = .next { s with
            ps2ClkDrive := .low
            cont := .txInhibitHold :: k
            irqPending := s.irqPending || (s.params.irqLatch && s.clkLevel) })
    ∧ (s.cont = .txInhibitHold :: k → exec .txInhibit s = .next { s with cont := k })
    ∧ (s.cont = .op .txSettle :: k → exec .txSettle s = .next { s with cont := k })

/-- R185 with R187 (D17), TX.BIT k: wait for clock low, place the level (0 pulls low, 1 releases), wait for clock high;
each wait whose condition fails leaves the whole state as it is. -/
def Obligations.BitIsPlacedWhileTheClockIsLow : Prop :=
  ∀ (s : State) (j : Fin 10) (v : Bool) (k : List Point),
    (s.cont = .op (.txBit j v) :: k →
      exec (.txBit j v) s = .next (if s.clkLevel then s else { s with cont := .txBitPlace j v :: k }))
    ∧ (s.cont = .txBitPlace j v :: k →
        exec (.txBit j v) s
          = .next { s with ps2DataDrive := if v then .released else .low, cont := .txBitAwaitHigh j v :: k })
    ∧ (s.cont = .txBitAwaitHigh j v :: k →
        exec (.txBit j v) s = .next (if s.clkLevel then { s with cont := k } else s))

/-- R189 to R191 (D16): the acknowledge is the data line's low level at the clock's low; then both lines are awaited
high; then interrupts are enabled and the flag is returned, which the model records in `ret` (log entry 14). Without a
remembered edge nothing else changes (D14). -/
def Obligations.AcknowledgeIsSampledAndReturned : Prop :=
  ∀ (s : State) (ack : Bool) (k : List Point),
    (s.cont = .op .txAck :: k →
      exec .txAck s = .next (if s.clkLevel then s else { s with cont := .txAckSample :: k }))
    ∧ (s.cont = .txAckSample :: k →
        exec .txAck s = .next { s with cont := .op .txAckEnd :: .op (.txFinish (!s.dataLevel)) :: k })
    ∧ (s.cont = .op .txAckEnd :: k →
        exec .txAckEnd s = .next (if s.clkLevel && s.dataLevel then { s with cont := k } else s))
    ∧ (s.cont = .op (.txFinish ack) :: k → (s.params.irqLatch && s.irqPending) = false →
        exec (.txFinish ack) s = .next { s with cont := k, irqEnable := true, ret := .flag ack })

/-- Under IRQ_LATCH = true an edge remembered during the send is delivered at TX.FINISH with the data level of that
moment; with the data line high, as R190 leaves it, the idle receiver goes to ErrorStart (R41, R191). That the delivery is
part of TX.FINISH is log entry 16, the record of the flag in `ret` log entry 14. -/
def Obligations.LatchedEdgeIsDeliveredAtFinish : Prop :=
  ∀ (s : State) (ack : Bool) (k : List Point), s.cont = .op (.txFinish ack) :: k → s.params.irqLatch = true →
    s.irqPending = true → s.rxState = .idle →
    (s.dataLevel = true →
      exec (.txFinish ack) s
        = .next { s with
            cont := k, irqEnable := true, irqPending := false, rxState := .errorStart, ret := .flag ack })
    ∧ (s.dataLevel = false →
      exec (.txFinish ack) s
        = .next { s with
            cont := k, irqEnable := true, irqPending := false, rxState := .collectingDataBits, rxAcc := 0, rxBitcnt := 0
            rxParity := 0, ret := .flag ack })

/-- A hang (R340, R195, R164): MAIN at a wait whose condition does not hold stays there for any number of its own steps,
with the whole state unchanged (log entry 9); the watchdog's reset is enabled there (log entry 10) and resets the block
(R345). -/
def Obligations.AWaitHangsUntilTheWatchdog : Prop :=
  ∀ s : State, s.inputs = [] → awaited s = some false →
    (∀ n, Sys2Proof.core.run n s = .next s) ∧ exec .wdtExpire s = .next s.afterReset

/-! ## Command layer -/

/-- R211 to R213, `kbd_command`: an illegal parameter returns RESP_RESEND (D18) with no other change; a legal one starts
the exchange with the command byte; a response that is neither RESP_ACK nor RESP_RESEND is returned unchanged. -/
def Obligations.CommandChecksSendsAndReturns : Prop :=
  ∀ (s : State) (c v : Byte) (l : LegalSet) (k : List Point),
    (MayCall (.kbdCommand c v l) s k →
      (v ∉ legalValues s.params l →
        exec (.kbdCommand c v l) s = .next (returnTo (.byte s.params.respResend) { s with cont := k }))
      ∧ (v ∈ legalValues s.params l →
        exec (.kbdCommand c v l) s
          = .next { s with
              cont := .op (.ps2Send c) :: .op .txSettle :: .op .ps2RecvBlocking
                :: .cmdAwait { cmd := c, param := v, legal := l } true :: k }))
    ∧ (∀ first r, s.cont = .cmdResp { cmd := c, param := v, legal := l } first r :: k → r ≠ s.params.respAck →
        r ≠ s.params.respResend →
        exec (.kbdCommand c v l) s = .next (returnTo (.byte r) { s with cont := k }))

/-- R214 to R216: each configuration command is `kbd_command` with its own command byte, the given parameter and its own
legal set, {1, 2, 3} for the scan-code set. -/
def Obligations.ConfigurationCommandsCallTheExchange : Prop :=
  ∀ (s : State) (v : Byte) (k : List Point),
    (MayCall (.cmdSetLeds v) s k →
      exec (.cmdSetLeds v) s = .next { s with cont := .op (.kbdCommand s.params.cmdSetLeds v .leds) :: k })
    ∧ (MayCall (.cmdSetTypematic v) s k →
      exec (.cmdSetTypematic v) s = .next { s with cont := .op (.kbdCommand s.params.cmdSetTypematic v .typematic) :: k })
    ∧ (MayCall (.cmdSetScanset v) s k →
      exec (.cmdSetScanset v) s = .next { s with cont := .op (.kbdCommand s.params.cmdSetScanset v .scanset) :: k })
    ∧ (v ∈ legalValues s.params .scanset ↔ v = 1 ∨ v = 2 ∨ v = 3)

/-- R211, R212: the byte a command's blocking receive pops is the response it inspects. RESP_ACK lets a command go on to
its parameter byte, or ends it after that byte; RESP_RESEND ends it after either byte. The ended command's result is the
response. The pop is atomic (D12) and its result recorded in `ret` (log entry 14). -/
def Obligations.ResponseCodesSteerTheCommand : Prop :=
  ∀ (s : State) (c : Cmd) (first : Bool) (k : List Point),
    (∀ v, s.cont = .op .ps2RecvBlocking :: .cmdAwait c first :: k → 0 < s.bufCount → s.params.bufPopAtomic = true →
      s.bufRd < s.params.bufCap → s.buf.read s.bufRd = some v →
      exec .ps2RecvBlocking s
        = .next { s with
            bufCount := s.bufCount - 1, bufRd := (s.bufRd + 1) % s.params.bufCap, ret := .byte v
            cont := .cmdResp c first v :: k })
    ∧ (s.cont = .cmdResp c true s.params.respAck :: k →
        exec .respAck s
          = .next { s with
              cont := .op (.ps2Send c.param) :: .op .txSettle :: .op .ps2RecvBlocking :: .cmdAwait c false :: k })
    ∧ (s.cont = .cmdResp c false s.params.respAck :: k →
        exec .respAck s = .next (returnTo (.byte s.params.respAck) { s with cont := k }))
    ∧ (s.params.respAck ≠ s.params.respResend → s.cont = .cmdResp c first s.params.respResend :: k →
        exec .respResend s = .next (returnTo (.byte s.params.respResend) { s with cont := k }))

/-! ## Translator -/

/-- R240, R258, R241, R242, R255: the call fetches its first byte with the non-blocking receive, ends without output when
there is none, and after E1, E0, E1 1D and E1 9D fetches one more byte with the blocking receive inside the same call
(D24); no modifier changes. -/
def Obligations.TranslatorFetchesItsBytes : Prop :=
  ∀ (s : State) (k : List Point),
    (MayCall .translatePoll s k →
      exec .translatePoll s = .next { s with xlState := .ground, cont := .op .ps2RecvNonblocking :: .xlAwait :: k })
    ∧ (s.cont = .xlByte none :: k → exec .xlEmpty s = .next s.noOutput)
    ∧ (s.cont = .xlByte (some 0xE1) :: k → s.xlState = .ground →
        exec .xlE1 s = .next { s with xlState := .afterE1, cont := .op .ps2RecvBlocking :: .xlAwait :: k })
    ∧ (s.cont = .xlByte (some 0xE0) :: k → s.xlState = .ground →
        exec .xlE0 s = .next { s with xlState := .afterE0, cont := .op .ps2RecvBlocking :: .xlAwait :: k })
    ∧ (s.cont = .xlByte (some 0x1D) :: k → s.xlState = .afterE1 →
        exec .xlE1Cont1D s = .next { s with xlState := .afterE1Cont, cont := .op .ps2RecvBlocking :: .xlAwait :: k })
    ∧ (s.cont = .xlByte (some 0x9D) :: k → s.xlState = .afterE1 →
        exec .xlE1Cont9D s = .next { s with xlState := .afterE1Cont, cont := .op .ps2RecvBlocking :: .xlAwait :: k })

/-- R246 to R249 and R243: the eight inputs that set and clear the two modifier bits, with no output and no other
change; right Ctrl as left Ctrl. -/
def Obligations.ModifierCodesSetAndClearTheirBit : Prop :=
  ∀ (s : State) (k : List Point),
    (s.xlState = .ground →
      (s.cont = .xlByte (some 0x1D) :: k → exec .xlCtrlMake s = .next { s with ctrlDown := true }.noOutput)
      ∧ (s.cont = .xlByte (some 0x9D) :: k → exec .xlCtrlBreak s = .next { s with ctrlDown := false }.noOutput)
      ∧ (s.cont = .xlByte (some 0x2A) :: k → exec .xlShiftMake2A s = .next { s with shiftDown := true }.noOutput)
      ∧ (s.cont = .xlByte (some 0x36) :: k → exec .xlShiftMake36 s = .next { s with shiftDown := true }.noOutput)
      ∧ (s.cont = .xlByte (some 0xAA) :: k → exec .xlShiftBreakAA s = .next { s with shiftDown := false }.noOutput)
      ∧ (s.cont = .xlByte (some 0xB6) :: k → exec .xlShiftBreakB6 s = .next { s with shiftDown := false }.noOutput))
    ∧ (s.xlState = .afterE0 →
      (s.cont = .xlByte (some 0x1D) :: k → exec .xlE0Ctrl1D s = .next { s with ctrlDown := true }.noOutput)
      ∧ (s.cont = .xlByte (some 0x9D) :: k → exec .xlE0Ctrl9D s = .next { s with ctrlDown := false }.noOutput))

/-- R250 to R252, R245, R256, R257: every discarded code ends the call without output and changes nothing else, neither a
modifier nor an output line (R106). BLOCKLIST is a parameter (D6), the treatment of E1 before another byte is D23, that of
0x00 is D26. -/
def Obligations.DiscardedCodesHaveNoEffect : Prop :=
  ∀ (s : State) (i : Instr), mainDue s = .instr i →
    ((i ∈ [Instr.xlBlocklist0E, .xlBlocklist0F, .xlBlocklist1A, .xlBlocklist1B, .xlBlocklist28, .xlBlocklist29,
        .xlBlocklist35, .xlNonpositive])
      ∨ (∃ x, i = .xlHighrange3A x) ∨ (∃ x, i = .xlHighrange3C x) ∨ (∃ x, i = .xlHighrange40 x)
      ∨ (∃ x, i = .xlHighrange80 x) ∨ (∃ b, i = .xlE0Other b) ∨ (∃ b, i = .xlE1Other b) ∨ (∃ b, i = .xlE1Third b)
      ∨ (∃ x, i = .xlOutputSentinel x)) →
    exec i s = .next s.noOutput

/-- R253, XL.LOOKUP: the entry of the row the modifiers name (Normal, Shift, Ctrl, ShiftCtrl) at the slot of the code; it
exists for every code that reaches the lookup (R62), and nothing else changes. -/
def Obligations.LookupReadsTheRowOfTheModifiers : Prop :=
  ∀ (s : State) (code : Byte) (k : List Point), s.params.wf = true → WellFormed s.params (.xlLookup code) = true →
    s.cont = .xlByte (some code) :: k → s.xlState = .ground →
    ∃ e, ((s.shiftDown = false ∧ s.ctrlDown = false → s.params.table.normal[code.toNat]? = some e)
        ∧ (s.shiftDown = true ∧ s.ctrlDown = false → s.params.table.shift[code.toNat]? = some e)
        ∧ (s.shiftDown = false ∧ s.ctrlDown = true → s.params.table.ctrl[code.toNat]? = some e)
        ∧ (s.shiftDown = true ∧ s.ctrlDown = true → s.params.table.shiftCtrl[code.toNat]? = some e))
      ∧ exec (.xlLookup code) s = .next { s with cont := .xlEntry e :: k }

/-- R244, XL.E0.ARROW: the left arrow is looked up at slot 55 and the right one at slot 56 (decimal, D5), in the row of the
current modifiers (D25), whatever they are. -/
def Obligations.ArrowsAreLookedUpAtTheirSlots : Prop :=
  ∀ (s : State) (k : List Point), s.params.wf = true → s.xlState = .afterE0 →
    (s.cont = .xlByte (some 0x4B) :: k →
      ∃ e, (s.params.table.row s.row)[55]? = some e
        ∧ exec .xlE0Arrow4B s = .next { s with xlState := .ground, cont := .xlEntry e :: k })
    ∧ (s.cont = .xlByte (some 0x4D) :: k →
      ∃ e, (s.params.table.row s.row)[56]? = some e
        ∧ exec .xlE0Arrow4D s = .next { s with xlState := .ground, cont := .xlEntry e :: k })

/-- R254, XL.OUTPUT: an entry with bit 7 set is returned whole (D27); one with bit 7 clear is dropped, whatever its low
bits (R101). -/
def Obligations.EntriesWithBit7AreReturned : Prop :=
  ∀ (s : State) (e : Byte) (k : List Point), s.cont = .xlEntry e :: k →
    (e.getLsbD 7 = true →
      exec (.xlOutputValid (e.extractLsb' 0 7)) s
        = .next (returnTo (.opt (some e)) { s with xlState := .ground, cont := k }))
    ∧ (e.getLsbD 7 = false →
      exec (.xlOutputSentinel (e.extractLsb' 0 7)) s
        = .next (returnTo (.opt none) { s with xlState := .ground, cont := k }))

/-- The modifier bits change only by the eight inputs of R260, and by `init` and the resets that clear them: no other
instruction, whatever the state, touches either bit. -/
def Obligations.OnlyEightInputsChangeTheModifiers : Prop :=
  ∀ (i : Instr) (s t : State), exec i s = .next t →
    i ∉ [Instr.xlCtrlMake, .xlCtrlBreak, .xlShiftMake2A, .xlShiftMake36, .xlShiftBreakAA, .xlShiftBreakB6, .xlE0Ctrl1D,
      .xlE0Ctrl9D, .init, .reset, .wdtExpire] →
    t.ctrlDown = s.ctrlDown ∧ t.shiftDown = s.shiftDown

/-- The Pause sequence (R256, S5): E1, then 1D or 9D, then any third byte; the call consumes exactly the three bytes,
returns nothing to the loop, and changes no modifier and no output line. -/
def Obligations.PauseSequenceIsConsumedWhole : Prop :=
  ∀ (s : State) (c x : Byte) (q : List (Option Byte)), BufOk s → s.params.bufPopAtomic = true → s.inputs = [] →
    s.cont = [.op .translatePoll, .loopOut] → c = 0x1D ∨ c = 0x9D →
    s.queue = some 0xE1 :: some c :: some x :: q →
    ∃ t, Sys2Proof.core.run 7 s = .next t ∧ t.queue = q ∧ t.ret = .opt none ∧ t.cont = [] ∧ t.xlState = .ground
      ∧ t.ctrlDown = s.ctrlDown ∧ t.shiftDown = s.shiftDown ∧ t.a2Data = s.a2Data ∧ t.a2StrobeN = s.a2StrobeN
      ∧ t.a2Seen = s.a2Seen

/-! ## Writer -/

/-- R291, `a2_write(a)` with a = 1ccccccc: data, delay, strobe low, delay, strobe high, in that order; at the fall from 1
to 0 the Apple II latches the seven data lines (R293). Nothing else changes; the delays complete (D30, R410). -/
def Obligations.WriterDrivesDataThenStrobe : Prop :=
  ∀ (s : State) (c : BitVec 7) (k : List Point),
    (MayCall (.a2Write c) s k ∨ s.cont = .a2Byte (1#1 ++ c : BitVec 8) :: k →
      exec (.a2Write c) s = .next { s with a2Data := (1#1 ++ c : BitVec 8), cont := .a2Setup c :: k })
    ∧ (s.cont = .a2Setup c :: k → exec (.a2Write c) s = .next { s with cont := .a2Fall c :: k })
    ∧ (s.cont = .a2Fall c :: k →
        exec (.a2Write c) s
          = .next { s with
              a2StrobeN := false
              a2Seen := if s.a2StrobeN = true then s.a2Seen ++ [s.a2Data.extractLsb' 0 7] else s.a2Seen
              cont := .a2Hold c :: k })
    ∧ (s.cont = .a2Hold c :: k → exec (.a2Write c) s = .next { s with cont := .a2Rise c :: k })
    ∧ (s.cont = .a2Rise c :: k → exec (.a2Write c) s = .next { s with a2StrobeN := true, cont := k })

/-- What the Apple II observes (R15, R293): the record grows only at a fall of the strobe from 1 to 0, only in `a2_write`,
by exactly the seven data lines of that moment; no other instruction, in any state, adds to it or takes from it. -/
def Obligations.OnlyTheStrobesFallIsObserved : Prop :=
  ∀ (i : Instr) (s t : State), exec i s = .next t →
    t.a2Seen = s.a2Seen
    ∨ (∃ c, i = .a2Write c) ∧ s.a2StrobeN = true ∧ t.a2StrobeN = false
      ∧ t.a2Seen = s.a2Seen ++ [s.a2Data.extractLsb' 0 7]

/-! ## Initialisation, startup, loop -/

/-- R300, `init` (D35): the elements it lists take their reset values, the watchdog is cleared, interrupts are enabled,
MAIN is at its first startup command; the receiver's working registers, the data lines, the parameters and the environment
are left alone. The model's choices: the latch of IRQ_LATCH is cleared without an event (log entry 16), the buffer cells
are left alone (log entry 8), and outside phase Init the operation is refused by name (log entry 13). -/
def Obligations.InitPreparesTheFirstCommand : Prop :=
  ∀ s : State, s.cont = [] →
    (s.mainPhase = .init →
      exec .init s
        = .next { s with
            rxState := .idle, bufWr := 0, bufRd := 0, bufCount := 0, ctrlDown := false, shiftDown := false,
            xlState := .ground, a2StrobeN := true, ps2ClkDrive := .released, ps2DataDrive := .released, wdt := 0,
            irqEnable := true, irqPending := false, mainPhase := .startup 0 })
    ∧ (s.mainPhase ≠ .init → exec .init s = .refused .outOfSequence)

/-- R302, `startup` (D22): the k-th command of the LED test sequence, then typematic rate, then scan-code set 1, is
issued; when it has returned, whatever its response (R303), the next one is due; after the last MAIN enters the loop. The
record of a response in `ret` is the model's (log entry 14). -/
def Obligations.StartupIssuesItsCommandsInOrder : Prop :=
  ∀ (s : State) (n : Nat) (k : List Point), s.mainPhase = .startup n →
    (s.cont = [] →
      (∀ e, s.params.ledTestSeq[n]? = some e →
        exec .startup s = .next { s with cont := [.op (.cmdSetLeds e.1), .startupNext] })
      ∧ (n = s.params.ledTestSeq.length →
        exec .startup s = .next { s with cont := [.op (.cmdSetTypematic s.params.typematicByte), .startupNext] })
      ∧ (n = s.params.ledTestSeq.length + 1 →
        exec .startup s = .next { s with cont := [.op (.cmdSetScanset 1), .startupNext] })
      ∧ (s.params.ledTestSeq.length + 2 ≤ n → exec .startup s = .next { s with mainPhase := .loop }))
    ∧ (s.cont = .startupNext :: k →
        (∀ v, returnTo (.byte v) s = { s with ret := .byte v })
        ∧ exec .startup s = .next { s with mainPhase := .startup (n + 1), cont := k })

/-- R305 and R306: an iteration services the watchdog, then polls and translates; when the call returns a byte MAIN goes
to the write of that byte, and when it returns none it goes on without one. Servicing clears the watchdog's count and
changes nothing else. That the test of the result belongs to the return is log entry 3, the record `ret` log entry 14. -/
def Obligations.IterationServicesThenPolls : Prop :=
  ∀ (s : State) (k : List Point),
    (s.mainPhase = .loop → MayCall .loopIteration s k →
      exec .loopIteration s = .next { s with cont := .op .wdtReset :: .op .translatePoll :: .loopOut :: k })
    ∧ (MayCall .wdtReset s k → exec .wdtReset s = .next { s with wdt := 0, cont := k })
    ∧ (s.cont = .loopOut :: k →
        (∀ a : Byte, returnTo (.opt (some a)) s = { s with ret := .opt (some a), cont := .a2Byte a :: k })
        ∧ returnTo (.opt none) s = { s with ret := .opt none, cont := k })

/-- With an empty buffer an iteration does nothing but service the watchdog (R305, V-LP1): five steps, and only the
watchdog's count, the translator's position and the record of the last result are written. -/
def Obligations.EmptyIterationOnlyServicesTheWatchdog : Prop :=
  ∀ s : State, AtLoopTop s → s.bufCount = 0 →
    Sys2Proof.core.run 5 s = .next { s with wdt := 0, xlState := .ground, ret := .opt none }

/-- One key through the block (R240, R253, R254, R291, R305; S6): from the top of the loop, with a looked-up make code
oldest in the buffer, one iteration consumes it and, if the entry of the current row has bit 7 set, ends after eleven
steps with exactly one more observed code, the entry's low seven bits; if it has not, after six steps with none. -/
def Obligations.KeyReachesTheAppleAsItsEntry : Prop :=
  ∀ (s : State) (code e : Byte) (q : List (Option Byte)), BufOk s → s.params.wf = true →
    s.params.bufPopAtomic = true → AtLoopTop s → s.a2StrobeN = true → s.queue = some code :: q →
    WellFormed s.params (.xlLookup code) = true → (s.params.table.row s.row)[code.toNat]? = some e →
    (e.getLsbD 7 = true →
      ∃ t, Sys2Proof.core.run 11 s = .next t ∧ AtLoopTop t ∧ t.queue = q ∧ t.a2Data = e ∧ t.a2StrobeN = true
        ∧ t.a2Seen = s.a2Seen ++ [e.extractLsb' 0 7] ∧ t.wdt = 0 ∧ t.ctrlDown = s.ctrlDown ∧ t.shiftDown = s.shiftDown)
    ∧ (e.getLsbD 7 = false →
      ∃ t, Sys2Proof.core.run 6 s = .next t ∧ AtLoopTop t ∧ t.queue = q ∧ t.a2Data = s.a2Data
        ∧ t.a2StrobeN = true ∧ t.a2Seen = s.a2Seen ∧ t.wdt = 0 ∧ t.ctrlDown = s.ctrlDown ∧ t.shiftDown = s.shiftDown)

/-- The arrows through the block (R242, R244; S4): E0 4B is slot 55 and E0 4D slot 56 in the row of the current modifiers
(D5, D25); one iteration consumes both bytes and, if the entry has bit 7 set, ends after thirteen steps with exactly one
more observed code, the entry's low seven bits; if it has not, after eight steps with none. -/
def Obligations.ArrowReachesTheAppleFromItsSlot : Prop :=
  ∀ (s : State) (b : Byte) (slot : Nat) (e : Byte) (q : List (Option Byte)), BufOk s → s.params.wf = true →
    s.params.bufPopAtomic = true → AtLoopTop s → s.a2StrobeN = true → s.queue = some 0xE0 :: some b :: q →
    (b = 0x4B ∧ slot = 55 ∨ b = 0x4D ∧ slot = 56) → (s.params.table.row s.row)[slot]? = some e →
    (e.getLsbD 7 = true →
      ∃ t, Sys2Proof.core.run 13 s = .next t ∧ AtLoopTop t ∧ t.queue = q ∧ t.a2Data = e ∧ t.a2StrobeN = true
        ∧ t.a2Seen = s.a2Seen ++ [e.extractLsb' 0 7] ∧ t.wdt = 0 ∧ t.ctrlDown = s.ctrlDown ∧ t.shiftDown = s.shiftDown)
    ∧ (e.getLsbD 7 = false →
      ∃ t, Sys2Proof.core.run 8 s = .next t ∧ AtLoopTop t ∧ t.queue = q ∧ t.a2Data = s.a2Data
        ∧ t.a2StrobeN = true ∧ t.a2Seen = s.a2Seen ∧ t.wdt = 0 ∧ t.ctrlDown = s.ctrlDown ∧ t.shiftDown = s.shiftDown)

/-! ## Whole-machine rules -/

/-- The interrupt's ownership (R330, R331), event by event. An edge event that commits no byte writes only `rx_state` and
the receiver's working registers. One that pushes writes only `rx_state`, the write cursor, the count and the one cell at
the write cursor. A whole frame of eleven edges writes those together, at most that one cell too, and besides them only
the keyboard's lines, which it leaves released (log entry 21), and under IRQ_LATCH the latch, when interrupts are off and
the block leaves the clock free (R41, log entry 16). Everything MAIN owns keeps its value. -/
def Obligations.EdgeEventsWriteOnlyInterruptState : Prop :=
  ∀ (i : Instr) (s t : State), exec i s = .next t →
    (i ∈ [Instr.rxIdleStart, .rxIdleBadstart, .rxStopBad] ∨ (∃ d, i = .rxData d) ∨ (∃ d, i = .rxParity d)
        ∨ (∃ e d, i = .rxError e d) ∨ (∃ v, i = .bufPushFull v) →
      t = { s with rxState := t.rxState, rxAcc := t.rxAcc, rxBitcnt := t.rxBitcnt, rxParity := t.rxParity })
    ∧ (i = .rxStopOk ∨ (∃ v, i = .bufPush v) →
      t = { s with rxState := t.rxState, buf := t.buf, bufWr := t.bufWr, bufCount := t.bufCount }
      ∧ ∀ j ≠ s.bufWr, t.buf.read j = s.buf.read j)
    ∧ ((∃ b, i = .kbdFrame b) →
      t = { s with
            rxState := t.rxState, rxAcc := t.rxAcc, rxBitcnt := t.rxBitcnt, rxParity := t.rxParity, buf := t.buf,
            bufWr := t.bufWr, bufCount := t.bufCount, kbdClkDrive := .released, kbdDataDrive := .released
            irqPending :=
              s.irqPending || (!s.irqEnable && s.params.irqLatch && decide (s.ps2ClkDrive = .released)) }
      ∧ ∀ j ≠ s.bufWr, t.buf.read j = s.buf.read j)

/-- MAIN's side of the ownership (R330): with no edge to deliver (interrupts disabled and none latched, or any operation
but TX.INHIBIT and TX.FINISH), an operation of MAIN writes none of the receiver's working registers, no buffer cell and
not the write cursor, but for `init` and the resets; and it writes `rx_state` only in TX.PREPARE, `init` and the resets. -/
def Obligations.MainLeavesTheReceiverAlone : Prop :=
  ∀ (i : Instr) (s t : State), exec i s = .next t →
    (i ∈ [Instr.rxIdleStart, .rxIdleBadstart, .rxStopBad, .rxStopOk, .init, .reset, .wdtExpire]
      ∨ (∃ d, i = .rxData d) ∨ (∃ d, i = .rxParity d) ∨ (∃ e d, i = .rxError e d) ∨ (∃ v, i = .bufPush v)
      ∨ (∃ v, i = .bufPushFull v) ∨ (∃ b, i = .kbdFrame b)
      ∨ (i = .txInhibit ∧ s.irqEnable = true) ∨ (∃ a, i = .txFinish a ∧ s.irqPending = true))
    ∨ (t.rxAcc = s.rxAcc ∧ t.rxBitcnt = s.rxBitcnt ∧ t.rxParity = s.rxParity ∧ t.buf = s.buf ∧ t.bufWr = s.bufWr
        ∧ (i = .txPrepare ∨ t.rxState = s.rxState))

/-- The exits of a receiver error (R323, under D7): from an error state no instruction but TX.PREPARE, `init` and the
resets leads to another receiver state (BUF.PUSH.FULL, the half of RX.STOP.OK that sets ErrorOverrun, taken apart). -/
def Obligations.ErrorStatesHaveTwoExits : Prop :=
  ∀ (i : Instr) (s t : State), exec i s = .next t → s.rxState.isError = true →
    s.params.rxErrorRecovery = .externalResetOnly →
    t.rxState = s.rxState ∨ i ∈ [Instr.txPrepare, .init, .reset, .wdtExpire]
      ∨ (∃ v, i = .bufPushFull v)

/-- The writers of the interrupt enable, of the block's two line drives, of the watchdog's count and of MAIN's phase
(R32 to R35, R306, R328, R346): each changes only by the operations named for it, and by `init` and the resets. -/
def Obligations.ControlElementsHaveTheirWriters : Prop :=
  ∀ (i : Instr) (s t : State), exec i s = .next t → i ∉ [Instr.init, .reset, .wdtExpire] →
    (t.irqEnable = s.irqEnable ∨ i = .txPrepare ∨ ∃ a, i = .txFinish a)
    ∧ (t.ps2ClkDrive = s.ps2ClkDrive ∨ i = .txInhibit ∨ i = .txRtsRelease)
    ∧ (t.ps2DataDrive = s.ps2DataDrive ∨ i = .txRtsData ∨ i = .txReleaseData ∨ ∃ j v, i = .txBit j v)
    ∧ (t.wdt = s.wdt ∨ i = .wdtReset)
    ∧ (t.mainPhase = s.mainPhase ∨ i = .startup)

/-- Permanent silence (R324, under D7): in the dispatch loop, with the receiver in an error state, a step of any agent but
the two resets leaves the receiver in that error state, MAIN in the loop and the buffer without a new byte. -/
def Obligations.AnErrorInTheLoopIsNeverCleared : Prop :=
  ∀ s t : State, Inv s → s.mainPhase = .loop → s.rxState.isError = true →
    s.params.rxErrorRecovery = .externalResetOnly → step s = .next t →
    (∀ r, s.inputs ≠ .wdt :: r ∧ s.inputs ≠ .powerOn :: r) →
    t.rxState = s.rxState ∧ t.mainPhase = .loop ∧ t.bufCount ≤ s.bufCount

/-- A step runs the instruction that is due: MAIN's, when the schedule is empty or names MAIN; the receiver's, decoded
from `rx_state` and the sampled level, at a falling edge with interrupts enabled (R130); a whole frame, the watchdog, a
reset, when the schedule names them. The schedule, and that MAIN moves when it is empty, are the model's choice (log entry
2) within the interleaving of R13 and R70; so is that an undecodable word is refused by name (log entry 13). -/
def Obligations.AStepRunsTheDueInstruction : Prop :=
  ∀ (s : State) (i : Instr) (r : List Stimulus),
    (s.inputs = [] → mainDue s = .instr i → step s = exec i s)
    ∧ (s.inputs = .main :: r → mainDue s = .instr i → step s = exec i { s with inputs := r })
    ∧ (∀ e, s.inputs = [] → mainDue s = .rejected e → step s = .refused (.undecodable e))
    ∧ (∀ c d, s.inputs = .lines c d :: r → s.clkLevel = true → s.irqEnable = true →
        level s.ps2ClkDrive c = false →
        decode s.params .rxev (2 * s.rxState.number + (level s.ps2DataDrive d).toNat) = .instr i →
        step s = exec i { s with inputs := r, kbdClkDrive := c, kbdDataDrive := d })
    ∧ (∀ b, s.inputs = .frame b :: r → step s = exec (.kbdFrame b) { s with inputs := r })
    ∧ (s.inputs = .wdt :: r → step s = exec .wdtExpire { s with inputs := r })
    ∧ (s.inputs = .powerOn :: r → step s = exec .reset { s with inputs := r })

/-- A change of the keyboard's lines that makes no edge event (no fall of the clock, or interrupts disabled) changes only
the lines; under IRQ_LATCH a fall while disabled is remembered (R41, R130, R328, log entry 16). Passing time only counts
the watchdog (log entry 12). The schedule is the model's choice (log entry 2). -/
def Obligations.LinesWithoutAnEventOnlyMove : Prop :=
  ∀ (s : State) (r : List Stimulus),
    (∀ c d, s.inputs = .lines c d :: r →
      (s.clkLevel = false ∨ level s.ps2ClkDrive c = true ∨ s.irqEnable = false) →
      step s = .next { s with
        inputs := r, kbdClkDrive := c, kbdDataDrive := d,
        irqPending := s.irqPending || (s.params.irqLatch && s.clkLevel && !level s.ps2ClkDrive c) })
    ∧ (s.inputs = .tick :: r → step s = .next { s with inputs := r, wdt := s.wdt + 1 })

/-- Every well-formed instruction but the two halves of RX.STOP.OK has a place at the fetch point from which the very next
step runs it, under unchanged parameters. The placing is the model's choice (log entry 23), and so is that BUF.PUSH and
BUF.PUSH.FULL have no place (log entry 13). -/
def Obligations.APlacedInstructionIsFetchedNext : Prop :=
  ∀ (s : State) (i : Instr), s.params.wf = true → WellFormed s.params i = true →
    (∀ v, i ≠ .bufPush v ∧ i ≠ .bufPushFull v) →
    ∃ t, fetch (s.place i) = .run (.instr i) t ∧ t.params = s.params ∧ step (s.place i) = exec i t

/-! ## The invariant -/

/-- The state after reset meets the invariant. This rests on the ranges of the free register values (log entry 7) and on
the standard parameters' being well-formed, whose default bytes the spec has from general knowledge (log entry 19). -/
def Obligations.ResetMeetsTheInvariant : Prop := Inv State.reset

/-- Every step of every agent keeps the invariant: the buffer's canonical form, cursors and count (R28, R73, R165), the
receiver's registers (R23, R24), reception and transmission never overlapping (R74, R194), the line drives (R32), the
strobe and the held data (R31, R383), the shape of MAIN's continuation (R34) and the translator's position (R30, R262). -/
def Obligations.EveryStepKeepsTheInvariant : Prop :=
  ∀ s t : State, Inv s → step s = .next t → Inv t

/-- From every state of the invariant every admissible step answers a next state: the block has no halted or final state
(R304), raises no trap (R322), and no fault or refusal of the model is reached. -/
def Obligations.NoAdmissibleStepStops : Prop :=
  ∀ s : State, Inv s → Admissible s → ∃ t, step s = .next t
end

