-- ==== Sys2Proof/Laws/State.lean ====
section
/-! SUPPORT. One lemma per field for each named update of State, and the frame of the two that change the continuation,
so that no later proof unfolds a record update. -/

namespace Sys2Proof.Machine

open Sys2Proof

variable (s : State)


section
variable (p : Point)
@[simp] theorem goto_params : (s.goto p).params = s.params := rfl
@[simp] theorem goto_rxState : (s.goto p).rxState = s.rxState := rfl
@[simp] theorem goto_rxAcc : (s.goto p).rxAcc = s.rxAcc := rfl
@[simp] theorem goto_rxBitcnt : (s.goto p).rxBitcnt = s.rxBitcnt := rfl
@[simp] theorem goto_rxParity : (s.goto p).rxParity = s.rxParity := rfl
@[simp] theorem goto_buf : (s.goto p).buf = s.buf := rfl
@[simp] theorem goto_bufWr : (s.goto p).bufWr = s.bufWr := rfl
@[simp] theorem goto_bufRd : (s.goto p).bufRd = s.bufRd := rfl
@[simp] theorem goto_bufCount : (s.goto p).bufCount = s.bufCount := rfl
@[simp] theorem goto_ctrlDown : (s.goto p).ctrlDown = s.ctrlDown := rfl
@[simp] theorem goto_shiftDown : (s.goto p).shiftDown = s.shiftDown := rfl
@[simp] theorem goto_xlState : (s.goto p).xlState = s.xlState := rfl
@[simp] theorem goto_a2Data : (s.goto p).a2Data = s.a2Data := rfl
@[simp] theorem goto_a2StrobeN : (s.goto p).a2StrobeN = s.a2StrobeN := rfl
@[simp] theorem goto_ps2ClkDrive : (s.goto p).ps2ClkDrive = s.ps2ClkDrive := rfl
@[simp] theorem goto_ps2DataDrive : (s.goto p).ps2DataDrive = s.ps2DataDrive := rfl
@[simp] theorem goto_irqEnable : (s.goto p).irqEnable = s.irqEnable := rfl
@[simp] theorem goto_irqPending : (s.goto p).irqPending = s.irqPending := rfl
@[simp] theorem goto_mainPhase : (s.goto p).mainPhase = s.mainPhase := rfl
@[simp] theorem goto_cont : (s.goto p).cont = p :: s.cont := rfl
@[simp] theorem goto_ret : (s.goto p).ret = s.ret := rfl
@[simp] theorem goto_wdt : (s.goto p).wdt = s.wdt := rfl
@[simp] theorem goto_kbdClkDrive : (s.goto p).kbdClkDrive = s.kbdClkDrive := rfl
@[simp] theorem goto_kbdDataDrive : (s.goto p).kbdDataDrive = s.kbdDataDrive := rfl
@[simp] theorem goto_inputs : (s.goto p).inputs = s.inputs := rfl
@[simp] theorem goto_a2Seen : (s.goto p).a2Seen = s.a2Seen := rfl
@[simp] theorem goto_resets : (s.goto p).resets = s.resets := rfl
end

section
@[simp] theorem popPoint_params : (s.popPoint).params = s.params := rfl
@[simp] theorem popPoint_rxState : (s.popPoint).rxState = s.rxState := rfl
@[simp] theorem popPoint_rxAcc : (s.popPoint).rxAcc = s.rxAcc := rfl
@[simp] theorem popPoint_rxBitcnt : (s.popPoint).rxBitcnt = s.rxBitcnt := rfl
@[simp] theorem popPoint_rxParity : (s.popPoint).rxParity = s.rxParity := rfl
@[simp] theorem popPoint_buf : (s.popPoint).buf = s.buf := rfl
@[simp] theorem popPoint_bufWr : (s.popPoint).bufWr = s.bufWr := rfl
@[simp] theorem popPoint_bufRd : (s.popPoint).bufRd = s.bufRd := rfl
@[simp] theorem popPoint_bufCount : (s.popPoint).bufCount = s.bufCount := rfl
@[simp] theorem popPoint_ctrlDown : (s.popPoint).ctrlDown = s.ctrlDown := rfl
@[simp] theorem popPoint_shiftDown : (s.popPoint).shiftDown = s.shiftDown := rfl
@[simp] theorem popPoint_xlState : (s.popPoint).xlState = s.xlState := rfl
@[simp] theorem popPoint_a2Data : (s.popPoint).a2Data = s.a2Data := rfl
@[simp] theorem popPoint_a2StrobeN : (s.popPoint).a2StrobeN = s.a2StrobeN := rfl
@[simp] theorem popPoint_ps2ClkDrive : (s.popPoint).ps2ClkDrive = s.ps2ClkDrive := rfl
@[simp] theorem popPoint_ps2DataDrive : (s.popPoint).ps2DataDrive = s.ps2DataDrive := rfl
@[simp] theorem popPoint_irqEnable : (s.popPoint).irqEnable = s.irqEnable := rfl
@[simp] theorem popPoint_irqPending : (s.popPoint).irqPending = s.irqPending := rfl
@[simp] theorem popPoint_mainPhase : (s.popPoint).mainPhase = s.mainPhase := rfl
@[simp] theorem popPoint_cont : (s.popPoint).cont = s.cont.tail := rfl
@[simp] theorem popPoint_ret : (s.popPoint).ret = s.ret := rfl
@[simp] theorem popPoint_wdt : (s.popPoint).wdt = s.wdt := rfl
@[simp] theorem popPoint_kbdClkDrive : (s.popPoint).kbdClkDrive = s.kbdClkDrive := rfl
@[simp] theorem popPoint_kbdDataDrive : (s.popPoint).kbdDataDrive = s.kbdDataDrive := rfl
@[simp] theorem popPoint_inputs : (s.popPoint).inputs = s.inputs := rfl
@[simp] theorem popPoint_a2Seen : (s.popPoint).a2Seen = s.a2Seen := rfl
@[simp] theorem popPoint_resets : (s.popPoint).resets = s.resets := rfl
end

section
variable (c d : Drive)
@[simp] theorem setKbd_params : (s.setKbd c d).params = s.params := rfl
@[simp] theorem setKbd_rxState : (s.setKbd c d).rxState = s.rxState := rfl
@[simp] theorem setKbd_rxAcc : (s.setKbd c d).rxAcc = s.rxAcc := rfl
@[simp] theorem setKbd_rxBitcnt : (s.setKbd c d).rxBitcnt = s.rxBitcnt := rfl
@[simp] theorem setKbd_rxParity : (s.setKbd c d).rxParity = s.rxParity := rfl
@[simp] theorem setKbd_buf : (s.setKbd c d).buf = s.buf := rfl
@[simp] theorem setKbd_bufWr : (s.setKbd c d).bufWr = s.bufWr := rfl
@[simp] theorem setKbd_bufRd : (s.setKbd c d).bufRd = s.bufRd := rfl
@[simp] theorem setKbd_bufCount : (s.setKbd c d).bufCount = s.bufCount := rfl
@[simp] theorem setKbd_ctrlDown : (s.setKbd c d).ctrlDown = s.ctrlDown := rfl
@[simp] theorem setKbd_shiftDown : (s.setKbd c d).shiftDown = s.shiftDown := rfl
@[simp] theorem setKbd_xlState : (s.setKbd c d).xlState = s.xlState := rfl
@[simp] theorem setKbd_a2Data : (s.setKbd c d).a2Data = s.a2Data := rfl
@[simp] theorem setKbd_a2StrobeN : (s.setKbd c d).a2StrobeN = s.a2StrobeN := rfl
@[simp] theorem setKbd_ps2ClkDrive : (s.setKbd c d).ps2ClkDrive = s.ps2ClkDrive := rfl
@[simp] theorem setKbd_ps2DataDrive : (s.setKbd c d).ps2DataDrive = s.ps2DataDrive := rfl
@[simp] theorem setKbd_irqEnable : (s.setKbd c d).irqEnable = s.irqEnable := rfl
@[simp] theorem setKbd_irqPending : (s.setKbd c d).irqPending = s.irqPending := rfl
@[simp] theorem setKbd_mainPhase : (s.setKbd c d).mainPhase = s.mainPhase := rfl
@[simp] theorem setKbd_cont : (s.setKbd c d).cont = s.cont := rfl
@[simp] theorem setKbd_ret : (s.setKbd c d).ret = s.ret := rfl
@[simp] theorem setKbd_wdt : (s.setKbd c d).wdt = s.wdt := rfl
@[simp] theorem setKbd_kbdClkDrive : (s.setKbd c d).kbdClkDrive = c := rfl
@[simp] theorem setKbd_kbdDataDrive : (s.setKbd c d).kbdDataDrive = d := rfl
@[simp] theorem setKbd_inputs : (s.setKbd c d).inputs = s.inputs := rfl
@[simp] theorem setKbd_a2Seen : (s.setKbd c d).a2Seen = s.a2Seen := rfl
@[simp] theorem setKbd_resets : (s.setKbd c d).resets = s.resets := rfl
end

section
variable (e : RxErr)
@[simp] theorem raiseRx_params : (raiseRx e s).params = s.params := rfl
@[simp] theorem raiseRx_rxState : (raiseRx e s).rxState = RxState.ofErr e := rfl
@[simp] theorem raiseRx_rxAcc : (raiseRx e s).rxAcc = s.rxAcc := rfl
@[simp] theorem raiseRx_rxBitcnt : (raiseRx e s).rxBitcnt = s.rxBitcnt := rfl
@[simp] theorem raiseRx_rxParity : (raiseRx e s).rxParity = s.rxParity := rfl
@[simp] theorem raiseRx_buf : (raiseRx e s).buf = s.buf := rfl
@[simp] theorem raiseRx_bufWr : (raiseRx e s).bufWr = s.bufWr := rfl
@[simp] theorem raiseRx_bufRd : (raiseRx e s).bufRd = s.bufRd := rfl
@[simp] theorem raiseRx_bufCount : (raiseRx e s).bufCount = s.bufCount := rfl
@[simp] theorem raiseRx_ctrlDown : (raiseRx e s).ctrlDown = s.ctrlDown := rfl
@[simp] theorem raiseRx_shiftDown : (raiseRx e s).shiftDown = s.shiftDown := rfl
@[simp] theorem raiseRx_xlState : (raiseRx e s).xlState = s.xlState := rfl
@[simp] theorem raiseRx_a2Data : (raiseRx e s).a2Data = s.a2Data := rfl
@[simp] theorem raiseRx_a2StrobeN : (raiseRx e s).a2StrobeN = s.a2StrobeN := rfl
@[simp] theorem raiseRx_ps2ClkDrive : (raiseRx e s).ps2ClkDrive = s.ps2ClkDrive := rfl
@[simp] theorem raiseRx_ps2DataDrive : (raiseRx e s).ps2DataDrive = s.ps2DataDrive := rfl
@[simp] theorem raiseRx_irqEnable : (raiseRx e s).irqEnable = s.irqEnable := rfl
@[simp] theorem raiseRx_irqPending : (raiseRx e s).irqPending = s.irqPending := rfl
@[simp] theorem raiseRx_mainPhase : (raiseRx e s).mainPhase = s.mainPhase := rfl
@[simp] theorem raiseRx_cont : (raiseRx e s).cont = s.cont := rfl
@[simp] theorem raiseRx_ret : (raiseRx e s).ret = s.ret := rfl
@[simp] theorem raiseRx_wdt : (raiseRx e s).wdt = s.wdt := rfl
@[simp] theorem raiseRx_kbdClkDrive : (raiseRx e s).kbdClkDrive = s.kbdClkDrive := rfl
@[simp] theorem raiseRx_kbdDataDrive : (raiseRx e s).kbdDataDrive = s.kbdDataDrive := rfl
@[simp] theorem raiseRx_inputs : (raiseRx e s).inputs = s.inputs := rfl
@[simp] theorem raiseRx_a2Seen : (raiseRx e s).a2Seen = s.a2Seen := rfl
@[simp] theorem raiseRx_resets : (raiseRx e s).resets = s.resets := rfl
end

section
@[simp] theorem acceptStart_params : (acceptStart s).params = s.params := rfl
@[simp] theorem acceptStart_rxState : (acceptStart s).rxState = .collectingDataBits := rfl
@[simp] theorem acceptStart_rxAcc : (acceptStart s).rxAcc = 0 := rfl
@[simp] theorem acceptStart_rxBitcnt : (acceptStart s).rxBitcnt = 0 := rfl
@[simp] theorem acceptStart_rxParity : (acceptStart s).rxParity = 0 := rfl
@[simp] theorem acceptStart_buf : (acceptStart s).buf = s.buf := rfl
@[simp] theorem acceptStart_bufWr : (acceptStart s).bufWr = s.bufWr := rfl
@[simp] theorem acceptStart_bufRd : (acceptStart s).bufRd = s.bufRd := rfl
@[simp] theorem acceptStart_bufCount : (acceptStart s).bufCount = s.bufCount := rfl
@[simp] theorem acceptStart_ctrlDown : (acceptStart s).ctrlDown = s.ctrlDown := rfl
@[simp] theorem acceptStart_shiftDown : (acceptStart s).shiftDown = s.shiftDown := rfl
@[simp] theorem acceptStart_xlState : (acceptStart s).xlState = s.xlState := rfl
@[simp] theorem acceptStart_a2Data : (acceptStart s).a2Data = s.a2Data := rfl
@[simp] theorem acceptStart_a2StrobeN : (acceptStart s).a2StrobeN = s.a2StrobeN := rfl
@[simp] theorem acceptStart_ps2ClkDrive : (acceptStart s).ps2ClkDrive = s.ps2ClkDrive := rfl
@[simp] theorem acceptStart_ps2DataDrive : (acceptStart s).ps2DataDrive = s.ps2DataDrive := rfl
@[simp] theorem acceptStart_irqEnable : (acceptStart s).irqEnable = s.irqEnable := rfl
@[simp] theorem acceptStart_irqPending : (acceptStart s).irqPending = s.irqPending := rfl
@[simp] theorem acceptStart_mainPhase : (acceptStart s).mainPhase = s.mainPhase := rfl
@[simp] theorem acceptStart_cont : (acceptStart s).cont = s.cont := rfl
@[simp] theorem acceptStart_ret : (acceptStart s).ret = s.ret := rfl
@[simp] theorem acceptStart_wdt : (acceptStart s).wdt = s.wdt := rfl
@[simp] theorem acceptStart_kbdClkDrive : (acceptStart s).kbdClkDrive = s.kbdClkDrive := rfl
@[simp] theorem acceptStart_kbdDataDrive : (acceptStart s).kbdDataDrive = s.kbdDataDrive := rfl
@[simp] theorem acceptStart_inputs : (acceptStart s).inputs = s.inputs := rfl
@[simp] theorem acceptStart_a2Seen : (acceptStart s).a2Seen = s.a2Seen := rfl
@[simp] theorem acceptStart_resets : (acceptStart s).resets = s.resets := rfl
end

section
@[simp] theorem missEdge_params : (s.missEdge).params = s.params := by unfold State.missEdge; split <;> rfl
@[simp] theorem missEdge_rxState : (s.missEdge).rxState = s.rxState := by unfold State.missEdge; split <;> rfl
@[simp] theorem missEdge_rxAcc : (s.missEdge).rxAcc = s.rxAcc := by unfold State.missEdge; split <;> rfl
@[simp] theorem missEdge_rxBitcnt : (s.missEdge).rxBitcnt = s.rxBitcnt := by unfold State.missEdge; split <;> rfl
@[simp] theorem missEdge_rxParity : (s.missEdge).rxParity = s.rxParity := by unfold State.missEdge; split <;> rfl
@[simp] theorem missEdge_buf : (s.missEdge).buf = s.buf := by unfold State.missEdge; split <;> rfl
@[simp] theorem missEdge_bufWr : (s.missEdge).bufWr = s.bufWr := by unfold State.missEdge; split <;> rfl
@[simp] theorem missEdge_bufRd : (s.missEdge).bufRd = s.bufRd := by unfold State.missEdge; split <;> rfl
@[simp] theorem missEdge_bufCount : (s.missEdge).bufCount = s.bufCount := by unfold State.missEdge; split <;> rfl
@[simp] theorem missEdge_ctrlDown : (s.missEdge).ctrlDown = s.ctrlDown := by unfold State.missEdge; split <;> rfl
@[simp] theorem missEdge_shiftDown : (s.missEdge).shiftDown = s.shiftDown := by unfold State.missEdge; split <;> rfl
@[simp] theorem missEdge_xlState : (s.missEdge).xlState = s.xlState := by unfold State.missEdge; split <;> rfl
@[simp] theorem missEdge_a2Data : (s.missEdge).a2Data = s.a2Data := by unfold State.missEdge; split <;> rfl
@[simp] theorem missEdge_a2StrobeN : (s.missEdge).a2StrobeN = s.a2StrobeN := by unfold State.missEdge; split <;> rfl
@[simp] theorem missEdge_ps2ClkDrive : (s.missEdge).ps2ClkDrive = s.ps2ClkDrive := by unfold State.missEdge; split <;> rfl
@[simp] theorem missEdge_ps2DataDrive : (s.missEdge).ps2DataDrive = s.ps2DataDrive := by unfold State.missEdge; split <;> rfl
@[simp] theorem missEdge_irqEnable : (s.missEdge).irqEnable = s.irqEnable := by unfold State.missEdge; split <;> rfl
@[simp] theorem missEdge_mainPhase : (s.missEdge).mainPhase = s.mainPhase := by unfold State.missEdge; split <;> rfl
@[simp] theorem missEdge_cont : (s.missEdge).cont = s.cont := by unfold State.missEdge; split <;> rfl
@[simp] theorem missEdge_ret : (s.missEdge).ret = s.ret := by unfold State.missEdge; split <;> rfl
@[simp] theorem missEdge_wdt : (s.missEdge).wdt = s.wdt := by unfold State.missEdge; split <;> rfl
@[simp] theorem missEdge_kbdClkDrive : (s.missEdge).kbdClkDrive = s.kbdClkDrive := by unfold State.missEdge; split <;> rfl
@[simp] theorem missEdge_kbdDataDrive : (s.missEdge).kbdDataDrive = s.kbdDataDrive := by unfold State.missEdge; split <;> rfl
@[simp] theorem missEdge_inputs : (s.missEdge).inputs = s.inputs := by unfold State.missEdge; split <;> rfl
@[simp] theorem missEdge_a2Seen : (s.missEdge).a2Seen = s.a2Seen := by unfold State.missEdge; split <;> rfl
@[simp] theorem missEdge_resets : (s.missEdge).resets = s.resets := by unfold State.missEdge; split <;> rfl
end

section
variable (r : Ret)
@[simp] theorem returnTo_params : (returnTo r s).params = s.params := by unfold returnTo; split <;> rfl
@[simp] theorem returnTo_rxState : (returnTo r s).rxState = s.rxState := by unfold returnTo; split <;> rfl
@[simp] theorem returnTo_rxAcc : (returnTo r s).rxAcc = s.rxAcc := by unfold returnTo; split <;> rfl
@[simp] theorem returnTo_rxBitcnt : (returnTo r s).rxBitcnt = s.rxBitcnt := by unfold returnTo; split <;> rfl
@[simp] theorem returnTo_rxParity : (returnTo r s).rxParity = s.rxParity := by unfold returnTo; split <;> rfl
@[simp] theorem returnTo_buf : (returnTo r s).buf = s.buf := by unfold returnTo; split <;> rfl
@[simp] theorem returnTo_bufWr : (returnTo r s).bufWr = s.bufWr := by unfold returnTo; split <;> rfl
@[simp] theorem returnTo_bufRd : (returnTo r s).bufRd = s.bufRd := by unfold returnTo; split <;> rfl
@[simp] theorem returnTo_bufCount : (returnTo r s).bufCount = s.bufCount := by unfold returnTo; split <;> rfl
@[simp] theorem returnTo_ctrlDown : (returnTo r s).ctrlDown = s.ctrlDown := by unfold returnTo; split <;> rfl
@[simp] theorem returnTo_shiftDown : (returnTo r s).shiftDown = s.shiftDown := by unfold returnTo; split <;> rfl
@[simp] theorem returnTo_xlState : (returnTo r s).xlState = s.xlState := by unfold returnTo; split <;> rfl
@[simp] theorem returnTo_a2Data : (returnTo r s).a2Data = s.a2Data := by unfold returnTo; split <;> rfl
@[simp] theorem returnTo_a2StrobeN : (returnTo r s).a2StrobeN = s.a2StrobeN := by unfold returnTo; split <;> rfl
@[simp] theorem returnTo_ps2ClkDrive : (returnTo r s).ps2ClkDrive = s.ps2ClkDrive := by unfold returnTo; split <;> rfl
@[simp] theorem returnTo_ps2DataDrive : (returnTo r s).ps2DataDrive = s.ps2DataDrive := by unfold returnTo; split <;> rfl
@[simp] theorem returnTo_irqEnable : (returnTo r s).irqEnable = s.irqEnable := by unfold returnTo; split <;> rfl
@[simp] theorem returnTo_irqPending : (returnTo r s).irqPending = s.irqPending := by unfold returnTo; split <;> rfl
@[simp] theorem returnTo_mainPhase : (returnTo r s).mainPhase = s.mainPhase := by unfold returnTo; split <;> rfl
@[simp] theorem returnTo_wdt : (returnTo r s).wdt = s.wdt := by unfold returnTo; split <;> rfl
@[simp] theorem returnTo_kbdClkDrive : (returnTo r s).kbdClkDrive = s.kbdClkDrive := by unfold returnTo; split <;> rfl
@[simp] theorem returnTo_kbdDataDrive : (returnTo r s).kbdDataDrive = s.kbdDataDrive := by unfold returnTo; split <;> rfl
@[simp] theorem returnTo_inputs : (returnTo r s).inputs = s.inputs := by unfold returnTo; split <;> rfl
@[simp] theorem returnTo_a2Seen : (returnTo r s).a2Seen = s.a2Seen := by unfold returnTo; split <;> rfl
@[simp] theorem returnTo_resets : (returnTo r s).resets = s.resets := by unfold returnTo; split <;> rfl
end

section
@[simp] theorem strobeFall_params : (strobeFall s).params = s.params := rfl
@[simp] theorem strobeFall_rxState : (strobeFall s).rxState = s.rxState := rfl
@[simp] theorem strobeFall_rxAcc : (strobeFall s).rxAcc = s.rxAcc := rfl
@[simp] theorem strobeFall_rxBitcnt : (strobeFall s).rxBitcnt = s.rxBitcnt := rfl
@[simp] theorem strobeFall_rxParity : (strobeFall s).rxParity = s.rxParity := rfl
@[simp] theorem strobeFall_buf : (strobeFall s).buf = s.buf := rfl
@[simp] theorem strobeFall_bufWr : (strobeFall s).bufWr = s.bufWr := rfl
@[simp] theorem strobeFall_bufRd : (strobeFall s).bufRd = s.bufRd := rfl
@[simp] theorem strobeFall_bufCount : (strobeFall s).bufCount = s.bufCount := rfl
@[simp] theorem strobeFall_ctrlDown : (strobeFall s).ctrlDown = s.ctrlDown := rfl
@[simp] theorem strobeFall_shiftDown : (strobeFall s).shiftDown = s.shiftDown := rfl
@[simp] theorem strobeFall_xlState : (strobeFall s).xlState = s.xlState := rfl
@[simp] theorem strobeFall_a2Data : (strobeFall s).a2Data = s.a2Data := rfl
@[simp] theorem strobeFall_a2StrobeN : (strobeFall s).a2StrobeN = false := rfl
@[simp] theorem strobeFall_ps2ClkDrive : (strobeFall s).ps2ClkDrive = s.ps2ClkDrive := rfl
@[simp] theorem strobeFall_ps2DataDrive : (strobeFall s).ps2DataDrive = s.ps2DataDrive := rfl
@[simp] theorem strobeFall_irqEnable : (strobeFall s).irqEnable = s.irqEnable := rfl
@[simp] theorem strobeFall_irqPending : (strobeFall s).irqPending = s.irqPending := rfl
@[simp] theorem strobeFall_mainPhase : (strobeFall s).mainPhase = s.mainPhase := rfl
@[simp] theorem strobeFall_cont : (strobeFall s).cont = s.cont := rfl
@[simp] theorem strobeFall_ret : (strobeFall s).ret = s.ret := rfl
@[simp] theorem strobeFall_wdt : (strobeFall s).wdt = s.wdt := rfl
@[simp] theorem strobeFall_kbdClkDrive : (strobeFall s).kbdClkDrive = s.kbdClkDrive := rfl
@[simp] theorem strobeFall_kbdDataDrive : (strobeFall s).kbdDataDrive = s.kbdDataDrive := rfl
@[simp] theorem strobeFall_inputs : (strobeFall s).inputs = s.inputs := rfl
@[simp] theorem strobeFall_a2Seen : (strobeFall s).a2Seen = if s.a2StrobeN then s.a2Seen ++ [s.a2Data.extractLsb' 0 7] else s.a2Seen := rfl
@[simp] theorem strobeFall_resets : (strobeFall s).resets = s.resets := rfl
end

section
@[simp] theorem afterReset_params : (s.afterReset).params = s.params := rfl
@[simp] theorem afterReset_rxState : (s.afterReset).rxState = .idle := rfl
@[simp] theorem afterReset_rxAcc : (s.afterReset).rxAcc = Config.resetRxAcc (s.resets + 1) := rfl
@[simp] theorem afterReset_rxBitcnt : (s.afterReset).rxBitcnt = (Config.resetRxBitcnt (s.resets + 1)).val := rfl
@[simp] theorem afterReset_rxParity : (s.afterReset).rxParity = (Config.resetRxParity (s.resets + 1)).val := rfl
@[simp] theorem afterReset_buf : (s.afterReset).buf = { cells := [] } := rfl
@[simp] theorem afterReset_bufWr : (s.afterReset).bufWr = 0 := rfl
@[simp] theorem afterReset_bufRd : (s.afterReset).bufRd = 0 := rfl
@[simp] theorem afterReset_bufCount : (s.afterReset).bufCount = 0 := rfl
@[simp] theorem afterReset_ctrlDown : (s.afterReset).ctrlDown = false := rfl
@[simp] theorem afterReset_shiftDown : (s.afterReset).shiftDown = false := rfl
@[simp] theorem afterReset_xlState : (s.afterReset).xlState = .ground := rfl
@[simp] theorem afterReset_a2Data : (s.afterReset).a2Data = Config.resetA2Data (s.resets + 1) := rfl
@[simp] theorem afterReset_a2StrobeN : (s.afterReset).a2StrobeN = true := rfl
@[simp] theorem afterReset_ps2ClkDrive : (s.afterReset).ps2ClkDrive = .released := rfl
@[simp] theorem afterReset_ps2DataDrive : (s.afterReset).ps2DataDrive = .released := rfl
@[simp] theorem afterReset_irqEnable : (s.afterReset).irqEnable = false := rfl
@[simp] theorem afterReset_irqPending : (s.afterReset).irqPending = false := rfl
@[simp] theorem afterReset_mainPhase : (s.afterReset).mainPhase = .init := rfl
@[simp] theorem afterReset_cont : (s.afterReset).cont = [] := rfl
@[simp] theorem afterReset_ret : (s.afterReset).ret = .nothing := rfl
@[simp] theorem afterReset_wdt : (s.afterReset).wdt = 0 := rfl
@[simp] theorem afterReset_kbdClkDrive : (s.afterReset).kbdClkDrive = s.kbdClkDrive := rfl
@[simp] theorem afterReset_kbdDataDrive : (s.afterReset).kbdDataDrive = s.kbdDataDrive := rfl
@[simp] theorem afterReset_inputs : (s.afterReset).inputs = s.inputs := rfl
@[simp] theorem afterReset_a2Seen : (s.afterReset).a2Seen = s.a2Seen := rfl
@[simp] theorem afterReset_resets : (s.afterReset).resets = s.resets + 1 := rfl
end

/-! ## Returning -/

@[simp] theorem returnTo_ret (r : Ret) : (returnTo r s).ret = r := by unfold returnTo; split <;> rfl

/-- A return changes the continuation and the record of the result, and nothing else. -/
theorem returnTo_frame (r : Ret) : returnTo r s = { s with ret := r, cont := (returnTo r s).cont } := by
  unfold returnTo; split <;> rfl

@[simp] theorem returnTo_xlAwait (o : Option Byte) (k : List Point) (h : s.cont = .xlAwait :: k) :
    (returnTo (.opt o) s).cont = .xlByte o :: k := by unfold returnTo; simp [h]

@[simp] theorem returnTo_xlAwait_byte (b : Byte) (k : List Point) (h : s.cont = .xlAwait :: k) :
    (returnTo (.byte b) s).cont = .xlByte (some b) :: k := by unfold returnTo; simp [h]

@[simp] theorem returnTo_loopOut_none (k : List Point) (h : s.cont = .loopOut :: k) :
    (returnTo (.opt none) s).cont = k := by unfold returnTo; simp [h]

@[simp] theorem returnTo_loopOut_some (a : Byte) (k : List Point) (h : s.cont = .loopOut :: k) :
    (returnTo (.opt (some a)) s).cont = .a2Byte a :: k := by unfold returnTo; simp [h]

@[simp] theorem returnTo_cmdAwait (c : Cmd) (f : Bool) (b : Byte) (k : List Point) (h : s.cont = .cmdAwait c f :: k) :
    (returnTo (.byte b) s).cont = .cmdResp c f b :: k := by unfold returnTo; simp [h]

/-- Where no return address is innermost, the continuation is as it was. -/
theorem returnTo_cont_of_plain (r : Ret)
    (h : ∀ p k, s.cont = p :: k → p ≠ .xlAwait ∧ p ≠ .loopOut ∧ ∀ c f, p ≠ .cmdAwait c f) :
    (returnTo r s).cont = s.cont := by
  unfold returnTo
  split
  all_goals first
    | rfl
    | (rename_i hc; have := h _ _ hc; simp at this)

theorem missEdge_irqPending : (s.missEdge).irqPending = (s.params.irqLatch || s.irqPending) := by
  unfold State.missEdge; split <;> simp_all

end Sys2Proof.Machine
end

