-- ==== Sys2Proof/Laws/Memory.lean ====
section
/-! SUPPORT. The laws of the buffer's cells: read after write, and that a write keeps the canonical form. -/

namespace Sys2Proof.Machine

open Sys2Proof

theorem findCell_insertCell (cs : List Host.Cell) (i j : Nat) (v : Byte) :
    findCell (insertCell cs i v) j = if j = i then some v else findCell cs j := by
  have comm : (i = j) = (j = i) := propext eq_comm
  induction cs with
  | nil => simp only [insertCell, findCell, comm]
  | cons c cs ih =>
    unfold insertCell
    split
    · simp only [findCell, comm]
    · split
      · rename_i h
        subst h
        by_cases hj : j = c.1 <;> simp [findCell, hj, comm]
      · rename_i hne
        simp only [findCell, ih]
        by_cases hj : j = i
        · have : c.1 ≠ j := fun h => hne (hj ▸ h.symm)
          simp [hj]
          exact fun h => absurd h (hj ▸ this)
        · simp [hj]

/-- A read after a write: the written cell holds the byte, every other cell is as before. -/
theorem read_write (m : Memory) (i j : Nat) (v : Byte) :
    (m.write i v).read j = if j = i then some v else m.read j :=
  findCell_insertCell m.cells i j v

@[simp] theorem read_write_same (m : Memory) (i : Nat) (v : Byte) : (m.write i v).read i = some v := by
  simp [read_write]

theorem read_write_other (m : Memory) (i j : Nat) (v : Byte) (h : j ≠ i) : (m.write i v).read j = m.read j := by
  simp [read_write, h]

/-- The indices of a written list: the written one and those that were there. -/
theorem mem_insertCell (cs : List Host.Cell) (i : Nat) (v : Byte) (c : Host.Cell) (h : c ∈ insertCell cs i v) :
    c = (i, v) ∨ c ∈ cs := by
  induction cs with
  | nil => simpa [insertCell] using h
  | cons d cs ih =>
    unfold insertCell at h
    split at h
    · simpa using h
    · split at h
      · simp only [List.mem_cons] at h ⊢; tauto
      · simp only [List.mem_cons] at h ⊢
        rcases h with h | h
        · exact .inr (.inl h)
        · rcases ih h with h | h
          · exact .inl h
          · exact .inr (.inr h)

/-- A write keeps the canonical form. -/
theorem write_wf (m : Memory) (i : Nat) (v : Byte) (h : m.wf) : (m.write i v).wf := by
  obtain ⟨cs⟩ := m
  simp only [Memory.wf, Memory.write] at *
  induction cs with
  | nil => simp [insertCell]
  | cons c cs ih =>
    obtain ⟨hc, hcs⟩ := List.pairwise_cons.mp h
    unfold insertCell
    split
    · rename_i hi
      refine List.pairwise_cons.mpr ⟨?_, h⟩
      intro d hd
      rcases List.mem_cons.mp hd with rfl | hd
      · exact hi
      · exact hi.trans (hc d hd)
    · split
      · rename_i hi
        exact List.pairwise_cons.mpr ⟨fun d hd => hi ▸ hc d hd, hcs⟩
      · rename_i hi hne
        refine List.pairwise_cons.mpr ⟨?_, ih hcs⟩
        intro d hd
        rcases mem_insertCell cs i v d hd with rfl | hd
        · show c.1 < i; omega
        · exact hc d hd

end Sys2Proof.Machine
end

