-- ==== Sys2Proof/Laws/Decode.lean ====
section
/-! SUPPORT. The laws of the decoder: the words of the two frames, the code classes of a scan-code byte, and that
a word that decodes is the word of what it decodes to. -/

namespace Sys2Proof

open Machine

/-- A byte is the sum of its bits' weights (R16). -/
theorem toNat_eq_bits (b : Byte) : b.toNat = (b.getLsbD 0).toNat + 2 * (b.getLsbD 1).toNat + 4 * (b.getLsbD 2).toNat
    + 8 * (b.getLsbD 3).toNat + 16 * (b.getLsbD 4).toNat + 32 * (b.getLsbD 5).toNat + 64 * (b.getLsbD 6).toNat
    + 128 * (b.getLsbD 7).toNat := by
  have h : ∀ k, (b.getLsbD k).toNat = b.toNat / 2 ^ k % 2 := by
    intro k; rw [BitVec.getLsbD, Nat.testBit_eq_decide_div_mod_eq]
    have := Nat.mod_two_eq_zero_or_one (b.toNat / 2^k)
    rcases this with h | h <;> simp [h]
  have := b.isLt
  simp only [h]
  omega

theorem testBit_nat (w k : Nat) : w.testBit k = decide (w / 2 ^ k % 2 = 1) := Nat.testBit_eq_decide_div_mod_eq

/-- The word of a frame's eleven levels. -/
theorem word_frame (d0 d1 d2 d3 d4 d5 d6 d7 p : Bool) : wordOfLevels [false, d0, d1, d2, d3, d4, d5, d6, d7, p, true]
    = 2 * (d0.toNat + 2 * d1.toNat + 4 * d2.toNat + 8 * d3.toNat + 16 * d4.toNat + 32 * d5.toNat + 64 * d6.toNat
      + 128 * d7.toNat) + 512 * p.toNat + 1024 := by
  simp only [wordOfLevels, Bool.toNat_true, Bool.toNat_false]
  generalize d0.toNat = n0, d1.toNat = n1, d2.toNat = n2, d3.toNat = n3, d4.toNat = n4, d5.toNat = n5,
    d6.toNat = n6, d7.toNat = n7, p.toNat = m
  omega

/-- The word of a send's ten levels. -/
theorem word_send (d0 d1 d2 d3 d4 d5 d6 d7 p : Bool) : wordOfLevels [d0, d1, d2, d3, d4, d5, d6, d7, p, true]
    = (d0.toNat + 2 * d1.toNat + 4 * d2.toNat + 8 * d3.toNat + 16 * d4.toNat + 32 * d5.toNat + 64 * d6.toNat
      + 128 * d7.toNat) + 256 * p.toNat + 512 := by
  simp only [wordOfLevels, Bool.toNat_true]
  generalize d0.toNat = n0, d1.toNat = n1, d2.toNat = n2, d3.toNat = n3, d4.toNat = n4, d5.toNat = n5,
    d6.toNat = n6, d7.toNat = n7, p.toNat = m
  omega

/-- The frame of a byte decodes to it (R90 to R92). -/
theorem decode_frame (p : Params) (b : Byte) : decode p .d2h (wordOfLevels (frameLevels b)) = .instr (.kbdFrame b) := by
  have hl := b.isLt
  have hw : wordOfLevels (frameLevels b) = 2 * b.toNat + 512 * (parityBit b).toNat + 1024 := by
    rw [frameLevels, word_frame, ← toNat_eq_bits]
  have hp := Bool.toNat_le (parityBit b)
  have hf : frameByte (wordOfLevels (frameLevels b)) 1 = b := by
    apply BitVec.eq_of_toNat_eq
    rw [frameByte, BitVec.toNat_ofNat, Nat.shiftRight_eq_div_pow, hw]; omega
  have h0 : (wordOfLevels (frameLevels b)).testBit 0 = false := by
    rw [testBit_nat, hw, decide_eq_false_iff_not]; omega
  have h9 : (wordOfLevels (frameLevels b)).testBit 9 = parityBit b := by
    rw [testBit_nat, hw]
    clear hw hf hp
    cases parityBit b with
    | false => rw [decide_eq_false_iff_not, Bool.toNat_false]; omega
    | true => rw [decide_eq_true_iff, Bool.toNat_true]; omega
  have h10 : (wordOfLevels (frameLevels b)).testBit 10 = true := by
    rw [testBit_nat, hw, decide_eq_true_iff]; omega
  have h11 : ¬ 2 ^ 11 ≤ wordOfLevels (frameLevels b) := by rw [hw]; omega
  simp only [decode, d2hRow, hf, h0, h9, h10, h11, bne_self_eq_false, if_false]
  rfl

/-- The ten bits of a send decode to its byte (R94, R95). -/
theorem decode_send (p : Params) (b : Byte) : decode p .h2d (wordOfLevels (sendBits b)) = .instr (.ps2Send b) := by
  have hl := b.isLt
  have hw : wordOfLevels (sendBits b) = b.toNat + 256 * (parityBit b).toNat + 512 := by
    rw [sendBits, word_send, ← toNat_eq_bits]
  have hp := Bool.toNat_le (parityBit b)
  have hf : frameByte (wordOfLevels (sendBits b)) 0 = b := by
    apply BitVec.eq_of_toNat_eq
    rw [frameByte, BitVec.toNat_ofNat, Nat.shiftRight_eq_div_pow, hw]; omega
  have h8 : (wordOfLevels (sendBits b)).testBit 8 = parityBit b := by
    rw [testBit_nat, hw]
    clear hw hf hp
    cases parityBit b with
    | false => rw [decide_eq_false_iff_not, Bool.toNat_false]; omega
    | true => rw [decide_eq_true_iff, Bool.toNat_true]; omega
  have h9 : (wordOfLevels (sendBits b)).testBit 9 = true := by
    rw [testBit_nat, hw, decide_eq_true_iff]; omega
  have h10 : ¬ 2 ^ 10 ≤ wordOfLevels (sendBits b) := by rw [hw]; omega
  simp only [decode, h2dRow, hf, h8, h9, h10, bne_self_eq_false, if_false]
  rfl

/-- A member of BLOCKLIST is found at its position. -/
theorem blockIndex_getD {l : List Byte} (h : l.Nodup) {k : Nat} (hk : k < l.length) :
    blockIndex l (l.getD k 0) = some k := by
  induction l generalizing k with
  | nil => simp at hk
  | cons x xs ih =>
    obtain ⟨hx, hn⟩ := List.nodup_cons.mp h
    cases k with
    | zero => simp [blockIndex]
    | succ k =>
      simp at hk
      have : x ≠ xs.getD k 0 := by
        rintro rfl; apply hx; rw [List.getD_eq_getElem _ _ hk]; exact List.getElem_mem hk
      simp only [List.getD_cons_succ, blockIndex, this, if_false, ih hn hk]; rfl

theorem blockIndex_none {l : List Byte} {b : Byte} (h : b ∉ l) : blockIndex l b = none := by
  induction l with
  | nil => rfl
  | cons x xs ih => simp at h; simp [blockIndex, ih h.2, Ne.symm h.1]

theorem blockIndex_some {l : List Byte} {b : Byte} {k : Nat} (h : blockIndex l b = some k) :
    k < l.length ∧ b ∈ l := by
  induction l generalizing k with
  | nil => simp [blockIndex] at h
  | cons x xs ih =>
    unfold blockIndex at h
    split at h
    · rename_i hx
      simp at h
      subst h
      simp [hx]
    · cases hb : blockIndex xs b with
      | none => simp [hb] at h
      | some j => simp [hb] at h; subst h; simp [ih hb]

/-- A code of BLOCKLIST is of class 7 (R98). -/
theorem scRow_block {p : Params} {b : Byte} {k : Nat} (hb : blockIndex p.blocklist b = some k)
    (hc : Config.blockable b = true) : scRow p b = blockRow k := by
  have h : ∀ b : Byte, Config.blockable b = true → b ≠ 0xE1 ∧ b ≠ 0xE0 ∧ b ≠ 0x1D ∧ b ≠ 0x9D ∧ b ≠ 0x2A
      ∧ b ≠ 0x36 ∧ b ≠ 0xAA ∧ b ≠ 0xB6 := by decide
  obtain ⟨h1, h2, h3, h4, h5, h6, h7, h8⟩ := h b hc
  simp only [scRow, h1, h2, h3, h4, h5, h6, h7, h8, if_false, hb]

/-- What the parameter constraints say of BLOCKLIST (R6, R244). -/
theorem wf_block {p : Params} (h : p.wf = true) :
    (∀ b ∈ p.blocklist, Config.blockable b = true) ∧ p.blocklist.Nodup := by
  simp only [Params.wf, Bool.and_eq_true, List.all_eq_true, decide_eq_true_eq] at h
  exact ⟨h.1.1.1.1.1.1.1.2, h.1.1.1.1.1.1.2⟩

theorem scRow_blockMember {p : Params} (h : p.wf = true) {k : Nat} (hk : k < p.blocklist.length) :
    scRow p (p.blocklist.getD k 0) = blockRow k := by
  obtain ⟨h1, h2⟩ := wf_block h
  refine scRow_block (blockIndex_getD h2 hk) (h1 _ ?_)
  rw [List.getD_eq_getElem _ _ hk]; exact List.getElem_mem hk

/-- A code of 58 or more that is no special code is of class 8 (R98, R251). -/
theorem scRow_high {p : Params} (h : p.wf = true) {b : Byte} (hb : 58 ≤ b.toNat) (hs : b ∉ specialHigh) :
    scRow p b = highRow b := by
  have hn : blockIndex p.blocklist b = none := by
    apply blockIndex_none; intro hm
    have := (wf_block h).1 b hm
    simp only [Config.blockable, Config.filterLow, Bool.and_eq_true, decide_eq_true_eq] at this
    exact absurd (of_decide_eq_true this.1.1.1.1.1.2) (Nat.not_lt.mpr hb)
  have e : ∀ c : Byte, c.toNat < 58 → ¬ b = c := by rintro c hc rfl; omega
  simp only [specialHigh, List.mem_cons, not_or, List.not_mem_nil, not_false_eq_true, and_true] at hs
  obtain ⟨h1, h2, h3, h4, h5⟩ := hs
  simp only [scRow, h1, h2, h3, h4, h5, e 0x1D (by decide), e 0x2A (by decide), e 0x36 (by decide), if_false, hn,
    Config.filterLow, hb, if_true]

/-- A code that no other class takes is looked up (R98 class 10, R253). -/
theorem scRow_lookup {p : Params} {b : Byte} (h : WellFormed p (.xlLookup b) = true) : scRow p b = .xlLookup b := by
  simp [WellFormed, modifierMakes, Config.filterLow] at h
  obtain ⟨⟨⟨h0, h1⟩, h2, h3, h4⟩, h5⟩ := h
  have hb := blockIndex_none h5
  have h1' : b.toNat < 58 := of_decide_eq_true h1
  unfold scRow
  have e : ∀ c : Byte, 58 ≤ c.toNat → ¬ b = c := by rintro c hc rfl; omega
  rw [if_neg (e _ (by decide)), if_neg (e _ (by decide)), if_neg (show ¬ b = 0x1D from h2), if_neg (e _ (by decide)),
    if_neg (show ¬ b = 0x2A from h3), if_neg (show ¬ b = 0x36 from h4),
    if_neg (e _ (by decide)), if_neg (e _ (by decide)), hb]
  have h0' : ¬ b = 0 := by rintro rfl; simp at h0
  simp only [Config.filterLow, Nat.not_le.mpr h1', if_false, h0']

/-! ## What decodes is its own word -/

/-- A member of BLOCKLIST stands at the position it is found at. -/
theorem blockIndex_getElem {l : List Byte} {b : Byte} {k : Nat} (h : blockIndex l b = some k) : l[k]? = some b := by
  induction l generalizing k with
  | nil => simp [blockIndex] at h
  | cons x xs ih =>
    unfold blockIndex at h
    split at h
    · rename_i hx
      cases h; simp [hx]
    · cases hb : blockIndex xs b with
      | none => simp [hb] at h
      | some j => simp [hb] at h; subst h; simp [ih hb]

/-- A format of one byte decodes only words of one byte. -/
theorem byteRow_instr {g : Byte → Decoded} {w : Nat} {i : Instr} (h : byteRow g w = .instr i) :
    ∃ b : Byte, w = b.toNat ∧ g b = .instr i := by
  unfold byteRow at h
  split at h
  · exact ⟨_, by rw [BitVec.toNat_ofNat]; omega, h⟩
  · cases h

theorem opPlain_instr {i j : Instr} {a : Nat} (h : opPlain j a = .instr i) : i = j ∧ a = 0 := by
  unfold opPlain at h
  split at h
  · injection h with h; exact ⟨h.symm, ‹_›⟩
  · cases h

theorem opByte_instr {g : Byte → Instr} {i : Instr} {a : Nat} (h : opByte g a = .instr i) :
    ∃ b : Byte, i = g b ∧ a = b.toNat := by
  unfold opByte at h
  split at h
  · injection h with h; exact ⟨_, h.symm, by rw [BitVec.toNat_ofNat]; omega⟩
  · cases h

theorem legalOfNat_number {n : Nat} {l : LegalSet} (h : legalOfNat n = some l) : l.number = n := by
  match n, h with
  | 0, h => cases h; rfl
  | 1, h => cases h; rfl
  | 2, h => cases h; rfl
  | n + 3, h => cases h

/-- A word with the fixed bits and the parity of a frame is the word of its byte's frame (R90 to R93). -/
theorem frame_word {w : Nat} (h11 : w < 2 ^ 11) (h0 : w.testBit 0 = false)
    (h9 : w.testBit 9 = parityBit (frameByte w 1)) (h10 : w.testBit 10 = true) :
    wordOfLevels (frameLevels (frameByte w 1)) = w := by
  have hb : (frameByte w 1).toNat = w / 2 % 256 := by
    rw [frameByte, BitVec.toNat_ofNat, Nat.shiftRight_eq_div_pow]
  rw [frameLevels, word_frame, ← toNat_eq_bits, hb, ← h9, Nat.toNat_testBit]
  rw [testBit_nat, decide_eq_false_iff_not] at h0
  rw [testBit_nat, decide_eq_true_iff] at h10
  omega

/-- The same for the ten bits of a send (R94, R95, R186). -/
theorem send_word {w : Nat} (h10 : w < 2 ^ 10) (h8 : w.testBit 8 = parityBit (frameByte w 0))
    (h9 : w.testBit 9 = true) : wordOfLevels (sendBits (frameByte w 0)) = w := by
  have hb : (frameByte w 0).toNat = w % 256 := by
    rw [frameByte, BitVec.toNat_ofNat, Nat.shiftRight_eq_div_pow]; simp
  rw [sendBits, word_send, ← toNat_eq_bits, hb, ← h8, Nat.toNat_testBit]
  rw [testBit_nat, decide_eq_true_iff] at h9
  omega

/-- A code of BLOCKLIST before the seventh member is the word of its row; the others share the last row. -/
theorem blockRow_word {p : Params} {b : Byte} {k : Nat} (h : blockIndex p.blocklist b = some k) :
    (blockRow k ≠ .xlBlocklist35 → encode p (blockRow k) = (.sc, b.toNat)) ∧ (blockRow k = .xlBlocklist35 → 6 ≤ k) := by
  have := blockIndex_getElem h
  match k, this with
  | 0, h | 1, h | 2, h | 3, h | 4, h | 5, h => simp [blockRow, encode, List.getD, h]
  | k + 6, h => simp [blockRow]

theorem blockRow_wellFormed {p : Params} {b : Byte} {k : Nat} (h : blockIndex p.blocklist b = some k) :
    WellFormed p (blockRow k) = true := by
  have := (blockIndex_some h).1
  match k, this with
  | 0, h | 1, h | 2, h | 3, h | 4, h | 5, h => simpa [blockRow, WellFormed] using h
  | k + 6, h => simp [blockRow, WellFormed]; omega

/-- A code of class 8 is a well-formed row and its word (R98). -/
theorem highRow_word (p : Params) {b : Byte} (h58 : 58 ≤ b.toNat) (hs : b ∉ specialHigh) :
    WellFormed p (highRow b) = true ∧ encode p (highRow b) = (.sc, b.toNat) ∧ highRow b ≠ .xlBlocklist35 := by
  have h : ∀ b : Byte, 58 ≤ b.toNat → b ∉ specialHigh →
      (highRow b = .xlHighrange3A (b.extractLsb' 0 1) ∧ 0x3A + (b.extractLsb' 0 1).toNat = b.toNat
      ∨ highRow b = .xlHighrange3C (b.extractLsb' 0 2) ∧ 0x3C + (b.extractLsb' 0 2).toNat = b.toNat
      ∨ highRow b = .xlHighrange40 (b.extractLsb' 0 6) ∧ 0x40 + (b.extractLsb' 0 6).toNat = b.toNat
      ∨ highRow b = .xlHighrange80 (b.extractLsb' 0 7) ∧ 0x80 + (b.extractLsb' 0 7).toNat = b.toNat
        ∧ (!specialHigh.contains ((1#1 ++ b.extractLsb' 0 7 : BitVec 8))) = true) := by decide
  rcases h b h58 hs with ⟨e, v⟩ | ⟨e, v⟩ | ⟨e, v⟩ | ⟨e, v, c⟩ <;> rw [e]
  · exact ⟨rfl, by simp only [encode, v], by simp⟩
  · exact ⟨rfl, by simp only [encode, v], by simp⟩
  · exact ⟨rfl, by simp only [encode, v], by simp⟩
  · exact ⟨c, by simp only [encode, v], by simp⟩

end Sys2Proof
end

