-- ==== Sys2Proof/Laws/Ops.lean ====
section
/-! SUPPORT. The laws of the shared operations: for each one what it answers where it runs, and everything it can do if
it answers a next state. -/

namespace Sys2Proof.Machine

open Sys2Proof

/-! ## Outcomes -/

@[simp] theorem andThen_next (s : State) (f : State → Out) : andThen (.next s) f = f s := rfl
@[simp] theorem andThen_fault (r : Fault) (f : State → Out) : andThen (.fault r) f = .fault r := rfl
@[simp] theorem andThen_refused (r : Refusal) (f : State → Out) : andThen (.refused r) f = .refused r := rfl

/-- A sequence answers a next state through a next state in between. -/
theorem andThen_eq_next {o : Out} {f : State → Out} {t : State} (h : andThen o f = .next t) :
    ∃ s, o = .next s ∧ f s = .next t := by
  cases o with
  | next s => exact ⟨s, rfl, h⟩
  | fault r => cases h
  | refused r => cases h

/-! ## The control point -/

theorem mainTop_cons {s : State} {p : Point} {k : List Point} (h : s.cont = p :: k) : mainTop s = p := by
  simp [mainTop, h]

theorem mainTop_nil {s : State} (h : s.cont = []) :
    mainTop s = match s.mainPhase with
      | .init => .op .init
      | .startup _ => .op .startup
      | .loop => .op .loopIteration := by
  cases hp : s.mainPhase <;> simp [mainTop, h, hp]

theorem popPoint_cons {s : State} {p : Point} {k : List Point} (h : s.cont = p :: k) :
    s.popPoint = { s with cont := k } := by
  simp [State.popPoint, h]

theorem popPoint_nil {s : State} (h : s.cont = []) : s.popPoint = s := by
  simp [State.popPoint, h]
  rw [← h]

theorem mainDue_cons {s : State} {p : Point} {k : List Point} (h : s.cont = p :: k) :
    mainDue s = dueAt s.params s.xlState p := by
  simp [mainDue, mainTop_cons h]

/-! ## Standing at an operation -/

/-- An operation runs where the control point is its own. -/
theorem whenDue_cons {i : Instr} {s : State} {p : Point} {k : List Point} (f : Point → State → Out)
    (h : s.cont = p :: k) (hd : dueAt s.params s.xlState p = .instr i) :
    whenDue i s f = f p { s with cont := k } := by
  simp [whenDue, mainDue_cons h, hd, mainTop_cons h, popPoint_cons h]

/-- What an operation that answers has done. -/
theorem whenDue_next {i : Instr} {s t : State} {f : Point → State → Out} (h : whenDue i s f = .next t) :
    mainDue s = .instr i ∧ f (mainTop s) s.popPoint = .next t := by
  unfold whenDue at h
  split at h
  · exact ⟨‹_›, h⟩
  · cases h

/-- The same for an operation that MAIN calls. -/
theorem whenCalled_cons {i : Instr} {s : State} {p : Point} {k : List Point} (f : Point → State → Out)
    (h : s.cont = p :: k) (hd : dueAt s.params s.xlState p = .instr i) :
    whenCalled i s f = f p { s with cont := k } := by
  simp [whenCalled, mainDue_cons h, hd, mainTop_cons h, popPoint_cons h]

theorem op_of_mainDue_nil {i : Instr} {s : State} (h : s.cont = []) (hd : mainDue s = .instr i) :
    mainTop s = .op i := by
  have ht := mainTop_nil h
  rw [mainDue] at hd
  cases hm : s.mainPhase <;> rw [hm] at ht <;> rw [ht] at hd ⊢ <;> simp_all [dueAt]

/-- An operation that may be called runs from its beginning. -/
theorem whenCalled_may {i : Instr} {s : State} {k : List Point} (f : Point → State → Out) (h : MayCall i s k) :
    whenCalled i s f = f (.op i) { s with cont := k } := by
  rcases h with h | ⟨h, rfl⟩
  · exact whenCalled_cons f h rfl
  · have hs : { s with cont := [] } = s := by rw [← h]
    rw [hs]
    unfold whenCalled
    split
    · rename_i hd
      rw [op_of_mainDue_nil h hd, popPoint_nil h]
    · rfl

theorem whenCalled_next {i : Instr} {s t : State} {f : Point → State → Out} (h : whenCalled i s f = .next t) :
    ∃ p k, (mainDue s = .instr i ∧ s.cont = p :: k ∨ p = .op i ∧ s.cont = [] ∧ k = [])
      ∧ f p { s with cont := k } = .next t := by
  unfold whenCalled at h
  split at h
  · rename_i hd
    cases hc : s.cont with
    | nil =>
      have hs : { s with cont := [] } = s := by rw [← hc]
      rw [op_of_mainDue_nil hc hd, popPoint_nil hc] at h
      exact ⟨.op i, [], .inr ⟨rfl, rfl, rfl⟩, by rw [hs]; exact h⟩
    | cons p k =>
      rw [mainTop_cons hc, popPoint_cons hc] at h
      exact ⟨p, k, .inl ⟨hd, rfl⟩, h⟩
  · split at h
    · rename_i hc
      have hs : { s with cont := [] } = s := by rw [← hc]
      exact ⟨.op i, [], .inr ⟨rfl, hc, rfl⟩, by rw [hs]; exact h⟩
    · cases h

/-! ## The buffer -/

theorem bufRead_some {s : State} {i : Nat} {v : Byte} (f : Byte → Out) (hi : i < s.params.bufCap)
    (hv : s.buf.read i = some v) : bufRead s i f = f v := by
  simp [bufRead, hi, hv]

theorem bufRead_next {s t : State} {i : Nat} {f : Byte → Out} (h : bufRead s i f = .next t) :
    i < s.params.bufCap ∧ ∃ v, s.buf.read i = some v ∧ f v = .next t := by
  unfold bufRead at h
  split at h
  · split at h
    · exact ⟨‹_›, _, ‹_›, h⟩
    · cases h
  · cases h

/-- A push onto an existing cell. -/
theorem push_eq {s : State} (v : Byte) (hi : s.bufWr < s.params.bufCap) :
    push v s = .next { s with
      buf := s.buf.write s.bufWr v
      bufWr := (s.bufWr + 1) % s.params.bufCap
      bufCount := s.bufCount + 1 } := by
  simp [push, bufWrite, hi, cursorNext]

theorem push_next {s t : State} {v : Byte} (h : push v s = .next t) :
    s.bufWr < s.params.bufCap ∧ t = { s with
      buf := s.buf.write s.bufWr v
      bufWr := (s.bufWr + 1) % s.params.bufCap
      bufCount := s.bufCount + 1 } := by
  by_cases hi : s.bufWr < s.params.bufCap
  · rw [push_eq v hi] at h
    exact ⟨hi, (Host.Outcome.next.inj h).symm⟩
  · simp [push, bufWrite, hi] at h

/-- A pop of an existing, written cell, in one step. -/
theorem pop_atomic {s : State} {v : Byte} (blocking : Bool) (ha : s.params.bufPopAtomic = true)
    (hi : s.bufRd < s.params.bufCap) (hv : s.buf.read s.bufRd = some v) :
    pop blocking s = .next (returnTo (received blocking v)
      { s with bufCount := s.bufCount - 1, bufRd := (s.bufRd + 1) % s.params.bufCap }) := by
  simp [pop, bufRead_some _ hi hv, ha, cursorNext]

/-- Everything a pop's first step can do. -/
theorem pop_next {s t : State} {blocking : Bool} (h : pop blocking s = .next t) :
    s.bufRd < s.params.bufCap ∧ ∃ v, s.buf.read s.bufRd = some v
      ∧ (s.params.bufPopAtomic = true
          ∧ t = returnTo (received blocking v)
              { s with bufCount := s.bufCount - 1, bufRd := (s.bufRd + 1) % s.params.bufCap }
        ∨ s.params.bufPopAtomic = false ∧ t = s.goto (.popCount blocking v)) := by
  obtain ⟨hi, v, hv, hf⟩ := bufRead_next h
  refine ⟨hi, v, hv, ?_⟩
  cases ha : s.params.bufPopAtomic with
  | true => simp [ha, cursorNext] at hf; exact .inl ⟨rfl, hf.symm⟩
  | false => simp [ha] at hf; exact .inr ⟨rfl, hf.symm⟩

/-! ## The translator's continuations -/

@[simp] theorem xlReturn_eq (r : Option Byte) (t : State) :
    xlReturn r t = .next (returnTo (.opt r) { t with xlState := .ground }) := rfl

@[simp] theorem xlMore_eq (x : XlState) (t : State) :
    xlMore x t = .next { t with xlState := x, cont := .op .ps2RecvBlocking :: .xlAwait :: t.cont } := rfl

theorem xlRead_some {t : State} {code e : Byte} (h : (t.params.table.row t.row)[code.toNat]? = some e) :
    xlRead code t = .next { t with xlState := .ground, cont := .xlEntry e :: t.cont } := by
  simp [xlRead, tableRead, h, State.goto]

theorem xlRead_next {s t : State} {code : Byte} (h : xlRead code s = .next t) :
    ∃ e, (s.params.table.row s.row)[code.toNat]? = some e
      ∧ t = { s with xlState := .ground, cont := .xlEntry e :: s.cont } := by
  unfold xlRead at h
  split at h
  · exact ⟨_, ‹_›, (Host.Outcome.next.inj h).symm⟩
  · cases h

/-- Filter and lookup of a code: no output, or the entry read. -/
theorem xlFilter_next {s t : State} {code : Byte} (h : xlFilter code s = .next t) :
    t = returnTo (.opt none) { s with xlState := .ground }
    ∨ ∃ e, (s.params.table.row s.row)[code.toNat]? = some e
      ∧ t = { s with xlState := .ground, cont := .xlEntry e :: s.cont } := by
  unfold xlFilter at h
  split at h
  · exact .inl (Host.Outcome.next.inj h).symm
  · split at h
    · exact .inl (Host.Outcome.next.inj h).symm
    · split at h
      · exact .inl (Host.Outcome.next.inj h).symm
      · exact .inr (xlRead_next h)

/-- Under well-formed parameters every slot below 58 of every row has an entry (R62). -/
theorem row_getElem {p : Params} (h : p.wf = true) (r : Row) {n : Nat} (hn : n < 58) :
    ∃ e, (p.table.row r)[n]? = some e := by
  have hl : n < (p.table.row r).length := by
    simp [Params.wf] at h
    cases r <;> simp [Table.row] <;> omega
  exact ⟨_, List.getElem?_eq_getElem hl⟩

/-- The arrow slots pass the filter under well-formed parameters (R244). -/
theorem xlFilter_slot {s : State} {code : Byte} (h : s.params.wf = true)
    (hc : code = Config.slotLeft ∨ code = Config.slotRight) : xlFilter code s = xlRead code s := by
  have hb : code ∉ s.params.blocklist := by
    intro hm
    simp only [Params.wf, Bool.and_eq_true, List.all_eq_true] at h
    have := h.1.1.1.1.1.1.1.2 code hm
    rcases hc with rfl | rfl <;> simp [Config.blockable] at this
  have h1 : ¬ Config.filterLow ≤ code.toNat := by rcases hc with rfl | rfl <;> decide
  have h2 : ¬ code = 0#8 := by rcases hc with rfl | rfl <;> decide
  simp [xlFilter, hb, h1, h2]

/-! ## Runs -/

/-- A run's first step, for any machine. -/
theorem run_step (M : Host.Core) (n : Nat) (s t : M.State) (h : M.step s = .next t) : M.run (n + 1) s = M.run n t := by
  simp [Host.Core.run, h]

theorem run_succ {n : Nat} {s t : State} (h : step s = .next t) :
    Sys2Proof.core.run (n + 1) s = Sys2Proof.core.run n t :=
  run_step Sys2Proof.core n s t h

@[simp] theorem run_zero (s : State) : Sys2Proof.core.run 0 s = .next s := rfl

/-- With nothing scheduled a step is MAIN's. -/
theorem step_main {s : State} {i : Instr} (h : s.inputs = []) (hd : mainDue s = .instr i) : step s = exec i s := by
  simp [step, fetch, h, hd]

/-- The same where the control point is known. -/
theorem step_cons {s : State} {i : Instr} {p : Point} {k : List Point} (h : s.inputs = []) (hc : s.cont = p :: k)
    (hd : dueAt s.params s.xlState p = .instr i) : step s = exec i s :=
  step_main h (by rw [mainDue_cons hc, hd])

end Sys2Proof.Machine
end

