-- ==== Sys2Proof/Laws/Frames.lean ====
section
/-! SUPPORT. What an instruction may write: for every row one statement of the fields its step can change, and the proof
that a step that answers a next state changes no other. The receiver's rules are stated field by field. -/

namespace Sys2Proof.Machine

open Sys2Proof

/-! ## The receiver -/

/-- Everything an edge event of the receiver may write. -/
def RxWrites (s t : State) : Prop :=
  ∃ x a n p b w c, t = { s with
    rxState := x, rxAcc := a, rxBitcnt := n, rxParity := p, buf := b, bufWr := w, bufCount := c }

theorem whenRx_next {x : RxState} {s t : State} {o : Out} (h : whenRx x s o = .next t) :
    s.rxState = x ∧ o = .next t := by
  unfold whenRx at h
  split at h
  · exact ⟨‹_›, h⟩
  · cases h

theorem execRxIdleStart_next {s t : State} (h : execRxIdleStart s = .next t) :
    s.rxState = .idle ∧ t = { s with rxAcc := 0, rxBitcnt := 0, rxParity := 0, rxState := .collectingDataBits } := by
  obtain ⟨hx, h⟩ := whenRx_next h
  exact ⟨hx, (Host.Outcome.next.inj h).symm⟩

theorem execRxIdleBadstart_next {s t : State} (h : execRxIdleBadstart s = .next t) :
    s.rxState = .idle ∧ t = { s with rxState := .errorStart } := by
  obtain ⟨hx, h⟩ := whenRx_next h
  exact ⟨hx, (Host.Outcome.next.inj h).symm⟩

theorem execRxData_next {s t : State} {d : Bool} (h : execRxData d s = .next t) :
    s.rxState = .collectingDataBits ∧ t = { s with
      rxAcc := s.rxAcc ||| (BitVec.ofNat 8 d.toNat <<< s.rxBitcnt)
      rxParity := s.rxParity + d.toNat
      rxBitcnt := s.rxBitcnt + 1
      rxState := if s.rxBitcnt + 1 = 8 then .expectingParity else .collectingDataBits } := by
  obtain ⟨hx, h⟩ := whenRx_next h
  exact ⟨hx, (Host.Outcome.next.inj h).symm⟩

theorem execRxParity_next {s t : State} {d : Bool} (h : execRxParity d s = .next t) :
    s.rxState = .expectingParity ∧ t = { s with
      rxParity := s.rxParity + d.toNat
      rxState := if parityAccepts (s.rxParity + d.toNat) = true then .expectingStop else .errorParity } := by
  obtain ⟨hx, h⟩ := whenRx_next h
  refine ⟨hx, ?_⟩
  rw [← Host.Outcome.next.inj h]
  simp only [raiseRx, RxState.ofErr]
  split <;> rfl

theorem execRxStopBad_next {s t : State} (h : execRxStopBad s = .next t) :
    s.rxState = .expectingStop ∧ t = { s with rxState := .errorStop } := by
  obtain ⟨hx, h⟩ := whenRx_next h
  exact ⟨hx, (Host.Outcome.next.inj h).symm⟩

theorem execRxStopOk_next {s t : State} (h : execRxStopOk s = .next t) :
    s.rxState = .expectingStop ∧
      (s.bufCount < s.params.bufCap ∧ s.bufWr < s.params.bufCap ∧ t = { s with
          buf := s.buf.write s.bufWr s.rxAcc
          bufWr := (s.bufWr + 1) % s.params.bufCap
          bufCount := s.bufCount + 1
          rxState := .idle }
      ∨ ¬ s.bufCount < s.params.bufCap ∧ t = { s with rxState := .errorOverrun }) := by
  obtain ⟨hx, h⟩ := whenRx_next h
  refine ⟨hx, ?_⟩
  split at h
  · obtain ⟨u, hu, ht⟩ := andThen_eq_next h
    obtain ⟨hw, rfl⟩ := push_next hu
    exact .inl ⟨‹_›, hw, (Host.Outcome.next.inj ht).symm⟩
  · exact .inr ⟨‹_›, (Host.Outcome.next.inj h).symm⟩

theorem execRxError_next {s t : State} {e : RxErr} {d : Bool} (h : execRxError e d s = .next t) :
    s.rxState = RxState.ofErr e ∧
      (t = s ∨ s.params.rxErrorRecovery = .resyncOnStart
        ∧ t = { s with rxAcc := 0, rxBitcnt := 0, rxParity := 0, rxState := .collectingDataBits }) := by
  obtain ⟨hx, h⟩ := whenRx_next h
  refine ⟨hx, ?_⟩
  split at h
  · exact .inl (Host.Outcome.next.inj h).symm
  · split at h
    · exact .inr ⟨‹_›, (Host.Outcome.next.inj h).symm⟩
    · exact .inl (Host.Outcome.next.inj h).symm

/-- An edge event is one of the receiver's instructions, chosen by its state and the sampled level. -/
theorem takeEdge_eq_rxDue (s : State) : ∃ i, rxDue s = .instr i ∧ takeEdge s = exec i s := by
  unfold rxDue State.eventWord takeEdge
  cases s.rxState <;> cases s.dataLevel <;> exact ⟨_, rfl, rfl⟩

/-- The receiver always answers an edge, unless the write cursor names no cell. -/
theorem takeEdge_total {s : State} (h : s.bufWr < s.params.bufCap) : ∃ t, takeEdge s = .next t := by
  unfold takeEdge
  cases hx : s.rxState <;> simp only
  · split
    · exact ⟨_, by simp [execRxIdleBadstart, whenRx, hx]; rfl⟩
    · exact ⟨_, by simp [execRxIdleStart, whenRx, hx]; rfl⟩
  · exact ⟨_, by simp only [execRxData, whenRx, hx, if_true]; rfl⟩
  · exact ⟨_, by simp only [execRxParity, whenRx, hx, if_true]; rfl⟩
  · split
    · by_cases hc : s.bufCount < s.params.bufCap
      · exact ⟨_, by simp only [execRxStopOk, whenRx, hx, if_true, hc, push_eq _ h, andThen_next]; rfl⟩
      · exact ⟨_, by simp only [execRxStopOk, whenRx, hx, if_true, hc, if_false]; rfl⟩
    · exact ⟨_, by simp [execRxStopBad, whenRx, hx]; rfl⟩
  all_goals
    simp only [execRxError, whenRx, hx, RxState.ofErr, if_true]
    split
    · exact ⟨_, rfl⟩
    · split <;> exact ⟨_, rfl⟩

/-- Everything an edge event can do. -/
theorem takeEdge_next {s t : State} (h : takeEdge s = .next t) : RxWrites s t := by
  simp only [takeEdge] at h
  split at h
  · split at h
    · obtain ⟨-, rfl⟩ := execRxIdleBadstart_next h; exact ⟨_, _, _, _, _, _, _, rfl⟩
    · obtain ⟨-, rfl⟩ := execRxIdleStart_next h; exact ⟨_, _, _, _, _, _, _, rfl⟩
  · obtain ⟨-, rfl⟩ := execRxData_next h; exact ⟨_, _, _, _, _, _, _, rfl⟩
  · obtain ⟨-, rfl⟩ := execRxParity_next h; exact ⟨_, _, _, _, _, _, _, rfl⟩
  · split at h
    · obtain ⟨-, ⟨-, -, rfl⟩ | ⟨-, rfl⟩⟩ := execRxStopOk_next h <;> exact ⟨_, _, _, _, _, _, _, rfl⟩
    · obtain ⟨-, rfl⟩ := execRxStopBad_next h; exact ⟨_, _, _, _, _, _, _, rfl⟩
  all_goals
    obtain ⟨-, rfl | ⟨-, rfl⟩⟩ := execRxError_next h <;> exact ⟨_, _, _, _, _, _, _, rfl⟩

/-- In an error state, without the recovery of R139, an edge event changes nothing. -/
theorem takeEdge_error {s t : State} (h : takeEdge s = .next t) (he : s.rxState.isError = true)
    (hp : s.params.rxErrorRecovery = .externalResetOnly) : t = s := by
  unfold takeEdge at h
  cases hx : s.rxState <;> rw [hx] at he h <;> simp only [RxState.isError, Bool.false_eq_true] at he
  all_goals
    obtain ⟨-, rfl | ⟨hr, -⟩⟩ := execRxError_next h
    · rfl
    · rw [hp] at hr; cases hr

/-- After a change of a drive: an edge event, a missed one, or nothing. -/
theorem clockChanged_next {old new t : State} (h : clockChanged old new = .next t) :
    clockFell old new = true ∧ new.irqEnable = true ∧ takeEdge new = .next t
    ∨ clockFell old new = true ∧ new.irqEnable = false ∧ t = new.missEdge
    ∨ clockFell old new = false ∧ t = new := by
  unfold clockChanged at h
  split at h
  · split at h
    · exact .inl ⟨‹_›, ‹_›, h⟩
    · exact .inr (.inl ⟨‹_›, eq_false_of_ne_true ‹_›, (Host.Outcome.next.inj h).symm⟩)
  · exact .inr (.inr ⟨eq_false_of_ne_true ‹_›, (Host.Outcome.next.inj h).symm⟩)

theorem missEdge_eq (s : State) : s.missEdge = { s with irqPending := s.params.irqLatch || s.irqPending } := by
  unfold State.missEdge
  cases h : s.params.irqLatch <;> rfl

/-- What a pulse of the keyboard, or any number of them, may write. -/
def PulseWrites (s t : State) : Prop :=
  ∃ x a n p b w c q k d, t = { s with
    rxState := x, rxAcc := a, rxBitcnt := n, rxParity := p, buf := b, bufWr := w, bufCount := c, irqPending := q,
    kbdClkDrive := k, kbdDataDrive := d }

theorem PulseWrites.trans {s t u : State} (h1 : PulseWrites s t) (h2 : PulseWrites t u) : PulseWrites s u := by
  obtain ⟨_, _, _, _, _, _, _, _, _, _, rfl⟩ := h1
  obtain ⟨_, _, _, _, _, _, _, _, _, _, rfl⟩ := h2
  exact ⟨_, _, _, _, _, _, _, _, _, _, rfl⟩

theorem kbdPulse_next {s t : State} {d : Bool} (h : kbdPulse d s = .next t) : PulseWrites s t := by
  obtain ⟨u, hu, ht⟩ := andThen_eq_next h
  rw [← Host.Outcome.next.inj ht]
  rcases clockChanged_next hu with ⟨-, -, he⟩ | ⟨-, -, rfl⟩ | ⟨-, rfl⟩
  · obtain ⟨_, _, _, _, _, _, _, rfl⟩ := takeEdge_next he
    exact ⟨_, _, _, _, _, _, _, _, _, _, rfl⟩
  · rw [missEdge_eq]
    exact ⟨_, _, _, _, _, _, _, _, _, _, rfl⟩
  · exact ⟨_, _, _, _, _, _, _, _, _, _, rfl⟩

theorem kbdPulses_next {ls : List Bool} {s t : State} (h : kbdPulses ls s = .next t) : PulseWrites s t := by
  induction ls generalizing s with
  | nil => rw [← Host.Outcome.next.inj h]; exact ⟨_, _, _, _, _, _, _, _, _, _, rfl⟩
  | cons d ds ih =>
    obtain ⟨u, hu, ht⟩ := andThen_eq_next h
    exact (kbdPulse_next hu).trans (ih ht)

/-! ## Every instruction -/

/-- The fields an instruction's step may write. -/
def Writes (s t : State) : Instr → Prop
  | .rxIdleStart | .rxIdleBadstart | .rxData _ | .rxParity _ | .rxStopBad | .rxStopOk | .rxError _ _ | .bufPush _
  | .bufPushFull _ => RxWrites s t
  | .kbdFrame _ => PulseWrites s t
  | .ps2Send _ | .txSettle | .txAck | .txAckEnd | .cmdSetLeds _ | .cmdSetTypematic _ | .cmdSetScanset _ | .respAck
  | .respResend | .kbdCommand _ _ _ | .loopIteration => ∃ c r, t = { s with cont := c, ret := r }
  | .ps2RecvNonblocking | .ps2RecvBlocking =>
    ∃ c r n d, t = { s with cont := c, ret := r, bufCount := n, bufRd := d }
  | .txPrepare => ∃ c, t = { s with cont := c, irqEnable := false, rxState := .idle }
  | .txInhibit => (∃ c d q, t = { s with cont := c, ps2ClkDrive := d, irqPending := q })
      ∨ s.irqEnable = true ∧ ∃ c, takeEdge { s with cont := c, ps2ClkDrive := .low } = .next t
  | .txRtsData | .txReleaseData | .txBit _ _ => ∃ c d, t = { s with cont := c, ps2DataDrive := d }
  | .txRtsRelease => ∃ c, t = { s with cont := c, ps2ClkDrive := .released }
  | .txFinish _ => (∃ c r, t = { s with cont := c, ret := r, irqEnable := true })
      ∨ s.irqPending = true
        ∧ ∃ c r, takeEdge { s with cont := c, ret := r, irqEnable := true, irqPending := false } = .next t
  | .translatePoll | .xlE1 | .xlE0 | .xlBlocklist0E | .xlBlocklist0F | .xlBlocklist1A | .xlBlocklist1B | .xlBlocklist28
  | .xlBlocklist29 | .xlBlocklist35 | .xlHighrange3A _ | .xlHighrange3C _ | .xlHighrange40 _ | .xlHighrange80 _
  | .xlNonpositive | .xlLookup _ | .xlE0Arrow4B | .xlE0Arrow4D | .xlE0Other _ | .xlE1Cont1D | .xlE1Cont9D | .xlE1Other _
  | .xlE1Third _ | .xlOutputValid _ | .xlOutputSentinel _ | .xlEmpty =>
    ∃ c r x, t = { s with cont := c, ret := r, xlState := x }
  | .xlCtrlMake | .xlE0Ctrl1D => ∃ c r, t = { s with cont := c, ret := r, xlState := .ground, ctrlDown := true }
  | .xlCtrlBreak | .xlE0Ctrl9D => ∃ c r, t = { s with cont := c, ret := r, xlState := .ground, ctrlDown := false }
  | .xlShiftMake2A | .xlShiftMake36 => ∃ c r, t = { s with cont := c, ret := r, xlState := .ground, shiftDown := true }
  | .xlShiftBreakAA | .xlShiftBreakB6 =>
    ∃ c r, t = { s with cont := c, ret := r, xlState := .ground, shiftDown := false }
  | .a2Write _ => ∃ c a w l, t = { s with cont := c, a2Data := a, a2StrobeN := w, a2Seen := l }
      ∧ (l = s.a2Seen ∨ s.a2StrobeN = true ∧ w = false ∧ l = s.a2Seen ++ [s.a2Data.extractLsb' 0 7])
  | .init => s.mainPhase = .init ∧ ∃ c, t = { s with
      cont := c, rxState := .idle, bufWr := 0, bufRd := 0, bufCount := 0, ctrlDown := false, shiftDown := false,
      xlState := .ground, a2StrobeN := true, ps2ClkDrive := .released, ps2DataDrive := .released, wdt := 0,
      irqEnable := true, irqPending := false, mainPhase := .startup 0 }
  | .startup => (∃ k, s.mainPhase = .startup k) ∧ ∃ c m, t = { s with cont := c, mainPhase := m }
  | .wdtReset => ∃ c, t = { s with cont := c, wdt := 0 }
  | .wdtExpire => watchdogEnabled s = true ∧ t = s.afterReset
  | .reset => t = s.afterReset

theorem popPoint_eq (s : State) : ∃ c, s.popPoint = { s with cont := c } := ⟨_, rfl⟩

theorem receive_writes {s t : State} {b : Bool} {f : State → Out} (h : receive b s f = .next t)
    (hf : ∀ u, f u = .next t → ∃ c r n d, t = { u with cont := c, ret := r, bufCount := n, bufRd := d }) :
    ∃ c r n d, t = { s with cont := c, ret := r, bufCount := n, bufRd := d } := by
  obtain ⟨p, k, -, h⟩ := whenCalled_next h
  split at h
  · rw [← Host.Outcome.next.inj h]; exact ⟨_, _, _, _, rfl⟩
  · rw [← Host.Outcome.next.inj h]; exact ⟨_, _, _, _, rfl⟩
  · rw [← Host.Outcome.next.inj h, returnTo_frame]; exact ⟨_, _, _, _, rfl⟩
  · obtain ⟨_, _, _, _, rfl⟩ := hf _ h
    exact ⟨_, _, _, _, rfl⟩

theorem pop_writes {s t : State} {b : Bool} (h : pop b s = .next t) :
    ∃ c r n d, t = { s with cont := c, ret := r, bufCount := n, bufRd := d } := by
  obtain ⟨-, v, -, ⟨-, rfl⟩ | ⟨-, rfl⟩⟩ := pop_next h
  · rw [returnTo_frame]; exact ⟨_, _, _, _, rfl⟩
  · exact ⟨_, _, _, _, rfl⟩

/-- A step of an instruction writes only the fields of its row. -/
theorem exec_writes {i : Instr} {s t : State} (h : exec i s = .next t) : Writes s t i := by
  cases i
  case rxIdleStart => obtain ⟨-, rfl⟩ := execRxIdleStart_next h; exact ⟨_, _, _, _, _, _, _, rfl⟩
  case rxIdleBadstart => obtain ⟨-, rfl⟩ := execRxIdleBadstart_next h; exact ⟨_, _, _, _, _, _, _, rfl⟩
  case rxData => obtain ⟨-, rfl⟩ := execRxData_next h; exact ⟨_, _, _, _, _, _, _, rfl⟩
  case rxParity => obtain ⟨-, rfl⟩ := execRxParity_next h; exact ⟨_, _, _, _, _, _, _, rfl⟩
  case rxStopBad => obtain ⟨-, rfl⟩ := execRxStopBad_next h; exact ⟨_, _, _, _, _, _, _, rfl⟩
  case rxStopOk =>
    obtain ⟨-, ⟨-, -, rfl⟩ | ⟨-, rfl⟩⟩ := execRxStopOk_next h <;> exact ⟨_, _, _, _, _, _, _, rfl⟩
  case rxError => obtain ⟨-, rfl | ⟨-, rfl⟩⟩ := execRxError_next h <;> exact ⟨_, _, _, _, _, _, _, rfl⟩
  case bufPush =>
    simp only [exec, execBufPush] at h
    split at h
    · obtain ⟨-, rfl⟩ := push_next h; exact ⟨_, _, _, _, _, _, _, rfl⟩
    · cases h
  case bufPushFull =>
    simp only [exec, execBufPushFull] at h
    split at h
    · cases h
    · rw [← Host.Outcome.next.inj h]; exact ⟨_, _, _, _, _, _, _, rfl⟩
  case kbdFrame => exact kbdPulses_next h
  case ps2RecvNonblocking =>
    simp only [exec, execPs2RecvNonblocking] at h
    refine receive_writes h fun u hu => ?_
    split at hu
    · rw [← Host.Outcome.next.inj hu, returnTo_frame]; exact ⟨_, _, _, _, rfl⟩
    · exact pop_writes hu
  case ps2RecvBlocking =>
    simp only [exec, execPs2RecvBlocking] at h
    refine receive_writes h fun u hu => ?_
    split at hu
    · rw [← Host.Outcome.next.inj hu]; exact ⟨_, _, _, _, rfl⟩
    · exact pop_writes hu
  case txInhibit =>
    simp only [exec, execTxInhibit] at h
    obtain ⟨-, h⟩ := whenDue_next h
    split at h
    · rw [← Host.Outcome.next.inj h]; exact .inl ⟨_, _, _, rfl⟩
    · rcases clockChanged_next h with ⟨-, hi, he⟩ | ⟨-, -, rfl⟩ | ⟨-, rfl⟩
      · exact .inr ⟨hi, _, he⟩
      · rw [missEdge_eq]; exact .inl ⟨_, _, _, rfl⟩
      · exact .inl ⟨_, _, _, rfl⟩
  case txFinish =>
    simp only [exec, execTxFinish] at h
    obtain ⟨-, h⟩ := whenDue_next h
    split at h
    · rename_i hp
      simp only [Bool.and_eq_true, returnTo_irqPending, popPoint_irqPending] at hp
      rw [returnTo_frame] at h
      exact .inr ⟨hp.2, _, _, h⟩
    · rw [← Host.Outcome.next.inj h, returnTo_frame]; exact .inl ⟨_, _, rfl⟩
  case txBit =>
    simp only [exec, execTxBit] at h
    obtain ⟨-, h⟩ := whenDue_next h
    split at h
    · rw [← Host.Outcome.next.inj h]; exact ⟨_, _, rfl⟩
    all_goals split at h <;> rw [← Host.Outcome.next.inj h] <;> exact ⟨_, _, rfl⟩
  case txAck =>
    simp only [exec, execTxAck] at h
    obtain ⟨-, h⟩ := whenDue_next h
    split at h
    · rw [← Host.Outcome.next.inj h]; exact ⟨_, _, rfl⟩
    · split at h <;> rw [← Host.Outcome.next.inj h] <;> exact ⟨_, _, rfl⟩
  case txAckEnd =>
    simp only [exec, execTxAckEnd] at h
    obtain ⟨-, h⟩ := whenDue_next h
    split at h <;> rw [← Host.Outcome.next.inj h] <;> exact ⟨_, _, rfl⟩
  case kbdCommand =>
    simp only [exec, execKbdCommand] at h
    obtain ⟨p, k, -, h⟩ := whenCalled_next h
    split at h
    · rw [← Host.Outcome.next.inj h, returnTo_frame]; exact ⟨_, _, rfl⟩
    · split at h
      · rw [← Host.Outcome.next.inj h]; exact ⟨_, _, rfl⟩
      · rw [← Host.Outcome.next.inj h, returnTo_frame]; exact ⟨_, _, rfl⟩
  case respAck =>
    simp only [exec, execRespAck] at h
    obtain ⟨-, h⟩ := whenDue_next h
    split at h
    · rw [← Host.Outcome.next.inj h]; exact ⟨_, _, rfl⟩
    · rw [← Host.Outcome.next.inj h, returnTo_frame]; exact ⟨_, _, rfl⟩
  case a2Write =>
    simp only [exec, execA2Write] at h
    obtain ⟨p, k, -, h⟩ := whenCalled_next h
    split at h <;> rw [← Host.Outcome.next.inj h]
    · exact ⟨_, _, _, _, rfl, .inl rfl⟩
    · refine ⟨_, _, _, _, rfl, ?_⟩
      cases hs : s.a2StrobeN <;> simp
    all_goals exact ⟨_, _, _, _, rfl, .inl rfl⟩
  case startup =>
    simp only [exec, execStartup] at h
    obtain ⟨-, h⟩ := whenDue_next h
    split at h
    · rename_i hm
      split at h
      · rw [← Host.Outcome.next.inj h]; exact ⟨⟨_, hm⟩, _, _, rfl⟩
      · split at h <;> rw [← Host.Outcome.next.inj h] <;> exact ⟨⟨_, hm⟩, _, _, rfl⟩
    · cases h
  case init =>
    simp only [exec, execInit] at h
    obtain ⟨-, h⟩ := whenDue_next h
    split at h
    · rename_i hm
      rw [← Host.Outcome.next.inj h]; exact ⟨hm, _, rfl⟩
    · cases h
  case wdtExpire =>
    simp only [exec, execWdtExpire] at h
    split at h
    · exact ⟨‹_›, (Host.Outcome.next.inj h).symm⟩
    · cases h
  case reset => exact (Host.Outcome.next.inj h).symm
  case xlLookup =>
    simp only [exec, execXlLookup] at h
    obtain ⟨-, h⟩ := whenDue_next h
    obtain ⟨_, -, rfl⟩ := xlRead_next h
    exact ⟨_, _, _, rfl⟩
  case xlE0Arrow4B | xlE0Arrow4D =>
    simp only [exec, execXlE0Arrow4B, execXlE0Arrow4D] at h
    obtain ⟨-, h⟩ := whenDue_next h
    rcases xlFilter_next h with rfl | ⟨_, -, rfl⟩
    · rw [returnTo_frame]; exact ⟨_, _, _, rfl⟩
    · exact ⟨_, _, _, rfl⟩
  case xlE1 | xlE0 | xlE1Cont1D | xlE1Cont9D =>
    simp only [exec, execXlE1, execXlE0, execXlE1Cont1D, execXlE1Cont9D] at h
    obtain ⟨-, h⟩ := whenDue_next h
    rw [← Host.Outcome.next.inj h]; exact ⟨_, _, _, rfl⟩
  case translatePoll =>
    simp only [exec, execTranslatePoll] at h
    obtain ⟨p, k, -, h⟩ := whenCalled_next h
    rw [← Host.Outcome.next.inj h]; exact ⟨_, _, _, rfl⟩
  case xlCtrlMake | xlCtrlBreak | xlShiftMake2A | xlShiftMake36 | xlShiftBreakAA | xlShiftBreakB6 | xlE0Ctrl1D
      | xlE0Ctrl9D =>
    simp only [exec, execXlCtrlMake, execXlCtrlBreak, execXlShiftMake2A, execXlShiftMake36, execXlShiftBreakAA,
      execXlShiftBreakB6, execXlE0Ctrl1D, execXlE0Ctrl9D] at h
    obtain ⟨-, h⟩ := whenDue_next h
    rw [← Host.Outcome.next.inj h, returnTo_frame]; exact ⟨_, _, rfl⟩
  case xlBlocklist0E | xlBlocklist0F | xlBlocklist1A | xlBlocklist1B | xlBlocklist28 | xlBlocklist29 | xlBlocklist35
      | xlHighrange3A | xlHighrange3C | xlHighrange40 | xlHighrange80 | xlNonpositive | xlE0Other | xlE1Other | xlE1Third
      | xlOutputValid | xlOutputSentinel | xlEmpty =>
    simp only [exec, execXlBlocklist0E, execXlBlocklist0F, execXlBlocklist1A, execXlBlocklist1B,
      execXlBlocklist28, execXlBlocklist29, execXlBlocklist35, execXlHighrange3A, execXlHighrange3C,
      execXlHighrange40, execXlHighrange80, execXlNonpositive, execXlE0Other, execXlE1Other, execXlE1Third,
      execXlOutputValid, execXlOutputSentinel, execXlEmpty] at h
    obtain ⟨-, h⟩ := whenDue_next h
    rw [← Host.Outcome.next.inj h, returnTo_frame]; exact ⟨_, _, _, rfl⟩
  case respResend =>
    simp only [exec, execRespResend] at h
    obtain ⟨-, h⟩ := whenDue_next h
    rw [← Host.Outcome.next.inj h, returnTo_frame]; exact ⟨_, _, rfl⟩
  case txSettle =>
    simp only [exec, execTxSettle] at h
    obtain ⟨-, h⟩ := whenDue_next h
    rw [← Host.Outcome.next.inj h]; exact ⟨_, _, rfl⟩
  case txPrepare | txRtsRelease =>
    simp only [exec, execTxPrepare, execTxRtsRelease] at h
    obtain ⟨-, h⟩ := whenDue_next h
    rw [← Host.Outcome.next.inj h]; exact ⟨_, rfl⟩
  case txRtsData | txReleaseData =>
    simp only [exec, execTxRtsData, execTxReleaseData] at h
    obtain ⟨-, h⟩ := whenDue_next h
    rw [← Host.Outcome.next.inj h]; exact ⟨_, _, rfl⟩
  case ps2Send | cmdSetLeds | cmdSetTypematic | cmdSetScanset | loopIteration =>
    simp only [exec, execPs2Send, execCmdSetLeds, execCmdSetTypematic, execCmdSetScanset, execLoopIteration] at h
    obtain ⟨p, k, -, h⟩ := whenCalled_next h
    rw [← Host.Outcome.next.inj h]; exact ⟨_, _, rfl⟩
  case wdtReset =>
    simp only [exec, execWdtReset] at h
    obtain ⟨p, k, -, h⟩ := whenCalled_next h
    rw [← Host.Outcome.next.inj h]; exact ⟨_, rfl⟩

end Sys2Proof.Machine
end

