-- ==== Sys2Proof/Laws/Queue.lean ====
section
/-! SUPPORT. The buffer as a queue: what it depends on, and how a push, a pop and an emptied buffer change it. -/

namespace Sys2Proof.Machine

open Sys2Proof

/-- The queue depends on four elements only. -/
theorem queue_congr {s t : State} (hb : t.buf = s.buf) (hr : t.bufRd = s.bufRd) (hc : t.bufCount = s.bufCount)
    (hp : t.params = s.params) : t.queue = s.queue := by
  simp only [State.queue, hb, hr, hc, hp]

/-- So do the buffer's invariants, with the write cursor. -/
theorem BufOk.congr {s t : State} (h : BufOk s) (hb : t.buf = s.buf) (hw : t.bufWr = s.bufWr) (hr : t.bufRd = s.bufRd)
    (hc : t.bufCount = s.bufCount) (hp : t.params = s.params) : BufOk t where
  canonical := by rw [hb]; exact h.canonical
  inRange := by rw [hb, hp]; exact h.inRange
  wr := by rw [hw, hp]; exact h.wr
  rd := by rw [hr, hp]; exact h.rd
  count := by rw [hc, hp]; exact h.count
  cursors := by rw [hw, hr, hc, hp]; exact h.cursors
  written := by rw [queue_congr hb hr hc hp]; exact h.written

theorem queue_length (s : State) : s.queue.length = s.bufCount := by simp [State.queue]

/-- The oldest byte stands at the read cursor; the rest is the queue after a pop. -/
theorem queue_pop {s : State} (h : 0 < s.bufCount) (hr : s.bufRd < s.params.bufCap) :
    s.queue = s.buf.read s.bufRd
      :: State.queue { s with bufRd := (s.bufRd + 1) % s.params.bufCap, bufCount := s.bufCount - 1 } := by
  obtain ⟨n, hn⟩ : ∃ n, s.bufCount = n + 1 := ⟨s.bufCount - 1, by omega⟩
  have e : ∀ k, ((s.bufRd + 1) % s.params.bufCap + k) % s.params.bufCap = (s.bufRd + (k + 1)) % s.params.bufCap := by
    intro k
    rw [Nat.mod_add_mod]
    congr 1
    omega
  simp only [State.queue, hn, List.range_succ_eq_map, List.map_cons, List.map_map, Nat.add_zero, Nat.mod_eq_of_lt hr,
    Nat.add_sub_cancel, e]
  rfl

/-- A queue that begins with a byte: there is one, and it stands at the read cursor. -/
theorem queue_head {s : State} {v : Byte} {q : List (Option Byte)} (hk : BufOk s) (h : s.queue = some v :: q) :
    0 < s.bufCount ∧ s.buf.read s.bufRd = some v
      ∧ State.queue { s with bufRd := (s.bufRd + 1) % s.params.bufCap, bufCount := s.bufCount - 1 } = q := by
  have hc : 0 < s.bufCount := by
    rw [← queue_length, h]
    exact Nat.succ_pos _
  rw [queue_pop hc hk.rd] at h
  injection h with h1 h2
  exact ⟨hc, h1, h2⟩

/-- The byte at the read cursor of a non-empty buffer exists. -/
theorem BufOk.head {s : State} (hk : BufOk s) (hc : 0 < s.bufCount) : ∃ v, s.buf.read s.bufRd = some v := by
  have := hk.written (s.buf.read s.bufRd) (by rw [queue_pop hc hk.rd]; exact List.mem_cons_self)
  exact Option.isSome_iff_exists.mp this

/-- A pop keeps the buffer's invariants. -/
theorem BufOk.pop {s : State} (hk : BufOk s) (hc : 0 < s.bufCount) :
    BufOk { s with bufRd := (s.bufRd + 1) % s.params.bufCap, bufCount := s.bufCount - 1 } where
  canonical := hk.canonical
  inRange := hk.inRange
  wr := hk.wr
  rd := Nat.mod_lt _ (Nat.lt_of_le_of_lt (Nat.zero_le _) hk.rd)
  count := Nat.le_trans (Nat.sub_le _ _) hk.count
  cursors := by
    show s.bufWr = ((s.bufRd + 1) % s.params.bufCap + (s.bufCount - 1)) % s.params.bufCap
    rw [Nat.mod_add_mod, hk.cursors]
    congr 1
    omega
  written := by
    intro v hv
    exact hk.written v (by rw [queue_pop hc hk.rd]; exact List.mem_cons_of_mem _ hv)

/-- The cells of the queue before the write cursor are not the written one. -/
theorem cursor_ne {rd k n cap : Nat} (hk : k < n) (hn : n < cap) : (rd + k) % cap ≠ (rd + n) % cap := by
  intro h
  have hd : cap ∣ (rd + n) - (rd + k) := (Nat.modEq_iff_dvd' (by omega)).mp h
  rw [Nat.add_sub_add_left] at hd
  have := Nat.le_of_dvd (by omega) hd
  omega

/-- A push appends its byte. -/
theorem queue_push {s : State} (hk : BufOk s) (v : Byte) (hc : s.bufCount < s.params.bufCap) :
    State.queue { s with
      buf := s.buf.write s.bufWr v
      bufWr := (s.bufWr + 1) % s.params.bufCap
      bufCount := s.bufCount + 1 } = s.queue ++ [some v] := by
  simp only [State.queue, List.range_succ, List.map_append, List.map_cons, List.map_nil]
  congr 1
  · apply List.map_congr_left
    intro k hm
    rw [read_write_other]
    rw [hk.cursors]
    exact cursor_ne (List.mem_range.mp hm) hc
  · rw [← hk.cursors, read_write_same]

/-- A push keeps the buffer's invariants. -/
theorem BufOk.push {s : State} (hk : BufOk s) (v : Byte) (hc : s.bufCount < s.params.bufCap) :
    BufOk { s with
      buf := s.buf.write s.bufWr v
      bufWr := (s.bufWr + 1) % s.params.bufCap
      bufCount := s.bufCount + 1 } where
  canonical := write_wf _ _ _ hk.canonical
  inRange := by
    intro c hm
    rcases mem_insertCell _ _ _ _ hm with rfl | hm
    · exact hk.wr
    · exact hk.inRange c hm
  wr := Nat.mod_lt _ (Nat.lt_of_le_of_lt (Nat.zero_le _) hk.rd)
  rd := hk.rd
  count := hc
  cursors := by
    show (s.bufWr + 1) % s.params.bufCap = (s.bufRd + (s.bufCount + 1)) % s.params.bufCap
    rw [hk.cursors, Nat.mod_add_mod]
    congr 1
  written := by
    intro w hw
    rw [queue_push hk v hc] at hw
    rcases List.mem_append.mp hw with h | h
    · exact hk.written w h
    · rw [List.mem_singleton.mp h]; rfl

/-- An emptied buffer meets them, whatever its cells hold. -/
theorem BufOk.empty {s : State} (h1 : s.buf.wf) (h2 : ∀ c ∈ s.buf.cells, c.1 < s.params.bufCap) (hw : s.bufWr = 0)
    (hr : s.bufRd = 0) (hc : s.bufCount = 0) (hp : 0 < s.params.bufCap) : BufOk s where
  canonical := h1
  inRange := h2
  wr := by rw [hw]; exact hp
  rd := by rw [hr]; exact hp
  count := by rw [hc]; exact Nat.zero_le _
  cursors := by rw [hw, hr, hc, Nat.zero_mod]
  written := by simp [State.queue, hc]

end Sys2Proof.Machine
end

