-- ==== Sys2Proof/Laws/Step.lean ====
section
/-! SUPPORT. Everything one step can do, by the agent that moves. -/

namespace Sys2Proof.Machine

open Sys2Proof

/-- KBD's move: its lines set, nothing else. -/
def State.afterLines (s : State) (r : List Stimulus) (c d : Drive) : State :=
  { s with inputs := r, kbdClkDrive := c, kbdDataDrive := d }

/-- Everything a step that answers a next state can be. -/
inductive StepCase (s t : State) : Prop
  /-- MAIN executes the instruction that is due -/
  | main (i : Instr) (r : List Stimulus) (hs : s.inputs = [] ∧ r = [] ∨ s.inputs = .main :: r)
      (hd : mainDue s = .instr i) (h : exec i { s with inputs := r } = .next t)
  /-- KBD's lines change and the receiver takes an edge -/
  | edge (r : List Stimulus) (c d : Drive) (hs : s.inputs = .lines c d :: r) (hi : s.irqEnable = true)
      (h : takeEdge (s.afterLines r c d) = .next t)
  /-- KBD's lines change while interrupts are disabled, and the clock falls -/
  | missed (r : List Stimulus) (c d : Drive) (hs : s.inputs = .lines c d :: r) (hi : s.irqEnable = false)
      (h : t = { s.afterLines r c d with irqPending := s.params.irqLatch || s.irqPending })
  /-- KBD's lines change without a fall of the clock -/
  | quiet (r : List Stimulus) (c d : Drive) (hs : s.inputs = .lines c d :: r) (h : t = s.afterLines r c d)
  /-- KBD sends a frame -/
  | frame (r : List Stimulus) (b : Byte) (hs : s.inputs = .frame b :: r)
      (h : exec (.kbdFrame b) { s with inputs := r } = .next t)
  /-- time passes -/
  | tick (r : List Stimulus) (hs : s.inputs = .tick :: r) (h : t = { s with inputs := r, wdt := s.wdt + 1 })
  /-- the watchdog resets the block -/
  | wdt (r : List Stimulus) (hs : s.inputs = .wdt :: r) (h : exec .wdtExpire { s with inputs := r } = .next t)
  /-- power-on -/
  | powerOn (r : List Stimulus) (hs : s.inputs = .powerOn :: r) (h : t = State.afterReset { s with inputs := r })

theorem step_frame {s : State} {b : Byte} {r : List Stimulus} (h : s.inputs = .frame b :: r) :
    step s = exec (.kbdFrame b) { s with inputs := r } := by
  simp only [step, fetch, h, decode_frame]

/-- A step of KBD's lines. -/
theorem step_lines {s : State} {c d : Drive} {r : List Stimulus} (h : s.inputs = .lines c d :: r) :
    step s = clockChanged s (s.afterLines r c d) := by
  have hf : fetch s = if clockFell s (s.afterLines r c d) then
      (if (s.afterLines r c d).irqEnable then .run (rxDue (s.afterLines r c d)) (s.afterLines r c d)
        else .quiet (s.afterLines r c d).missEdge)
      else .quiet (s.afterLines r c d) := by
    simp only [fetch, h]
    rfl
  unfold step clockChanged
  rw [hf]
  by_cases hc : clockFell s (s.afterLines r c d) = true
  · by_cases he : (s.afterLines r c d).irqEnable = true
    · obtain ⟨i, hi, he'⟩ := takeEdge_eq_rxDue (s.afterLines r c d)
      simp only [hc, he, if_true, hi, he']
    · simp only [hc, he, if_true]
      rfl
  · simp only [hc]
    rfl

/-- A step that answers a next state is one of the eight moves. -/
theorem step_cases {s t : State} (h : step s = .next t) : StepCase s t := by
  cases hs : s.inputs with
  | nil =>
    have hr : { s with inputs := [] } = s := by rw [← hs]
    unfold step at h
    simp only [fetch, hs] at h
    cases hd : mainDue s with
    | instr i => rw [hd] at h; exact .main i [] (.inl ⟨hs, rfl⟩) hd (hr.symm ▸ h)
    | rejected e => rw [hd] at h; cases h
  | cons a r =>
    cases a with
    | main =>
      unfold step at h
      simp only [fetch, hs] at h
      have hd' : mainDue { s with inputs := r } = mainDue s := rfl
      rw [hd'] at h
      cases hd : mainDue s with
      | instr i => rw [hd] at h; exact .main i r (.inr hs) hd h
      | rejected e => rw [hd] at h; cases h
    | lines c d =>
      rw [step_lines hs] at h
      rcases clockChanged_next h with ⟨-, hi, he⟩ | ⟨-, hi, rfl⟩ | ⟨-, rfl⟩
      · exact .edge r c d hs hi he
      · exact .missed r c d hs hi (missEdge_eq _)
      · exact .quiet r c d hs rfl
    | frame b => rw [step_frame hs] at h; exact .frame r b hs h
    | tick =>
      simp only [step, fetch, hs] at h
      exact .tick r hs (Host.Outcome.next.inj h).symm
    | wdt =>
      simp only [step, fetch, hs] at h
      exact .wdt r hs h
    | powerOn =>
      simp only [step, fetch, hs] at h
      exact .powerOn r hs (Host.Outcome.next.inj h).symm

end Sys2Proof.Machine
end

