-- ==== Sys2Proof/Laws/Invariant.lean ====
section
/-! SUPPORT. What each part of the invariant depends on, and that the receiver's edges keep it. -/

namespace Sys2Proof.Machine

open Sys2Proof

/-! ## The receiver's registers -/

theorem RxOk.congr {s t : State} (h : RxOk s) (hx : t.rxState = s.rxState) (ha : t.rxAcc = s.rxAcc)
    (hn : t.rxBitcnt = s.rxBitcnt) (hp : t.rxParity = s.rxParity) : RxOk t where
  bitcnt := by rw [hn]; exact h.bitcnt
  parity := by rw [hp]; exact h.parity
  progress := by
    have := h.progress
    simp only [rxProgress, hx, ha, hn, hp] at this ⊢
    exact this

/-- In Idle and in the error states nothing is asked of the registers but their ranges. -/
theorem RxOk.quiet {s : State} (hx : s.rxState = .idle ∨ s.rxState.isError = true) (hn : s.rxBitcnt ≤ 8)
    (hp : s.rxParity ≤ 9) : RxOk s where
  bitcnt := hn
  parity := hp
  progress := by
    unfold rxProgress
    rcases hx with hx | hx
    · rw [hx]; trivial
    · cases h' : s.rxState <;> rw [h'] at hx <;> simp only [RxState.isError, Bool.false_eq_true] at hx ⊢

theorem ones_le (b : Byte) : ones b ≤ 8 := by
  have h : ∀ x : Bool, x.toNat ≤ 1 := Bool.toNat_le
  have h0 := h (b.getLsbD 0)
  have h1 := h (b.getLsbD 1)
  have h2 := h (b.getLsbD 2)
  have h3 := h (b.getLsbD 3)
  have h4 := h (b.getLsbD 4)
  have h5 := h (b.getLsbD 5)
  have h6 := h (b.getLsbD 6)
  have h7 := h (b.getLsbD 7)
  simp only [ones]
  exact Nat.add_le_add (Nat.add_le_add (Nat.add_le_add (Nat.add_le_add (Nat.add_le_add (Nat.add_le_add
    (Nat.add_le_add h0 h1) h2) h3) h4) h5) h6) h7

/-- A data bit entered above the bits received so far: the byte stays below the next power of two, and the count of
1 bits grows by the bit. -/
theorem data_bit (n : Fin 8) (d : Bool) (a : Byte) : a.toNat < 2 ^ n.val →
    (a ||| (BitVec.ofNat 8 d.toNat <<< n.val)).toNat < 2 ^ (n.val + 1)
      ∧ ones (a ||| (BitVec.ofNat 8 d.toNat <<< n.val)) = ones a + d.toNat := by
  revert n d a
  decide +kernel

theorem acceptStart_ok (s : State) :
    RxOk { s with rxAcc := 0, rxBitcnt := 0, rxParity := 0, rxState := .collectingDataBits } where
  bitcnt := Nat.zero_le _
  parity := Nat.zero_le _
  progress := ⟨show 0 < 8 by decide, show (0 : Byte).toNat < 2 ^ 0 by decide, show 0 = ones 0 by decide⟩

/-- An edge event keeps the receiver's registers in their ranges and the frame's progress. -/
theorem takeEdge_rxOk {s t : State} (h : takeEdge s = .next t) (hr : RxOk s) : RxOk t := by
  have hp := hr.progress
  simp only [takeEdge] at h
  cases hx : s.rxState <;> rw [hx] at h <;> simp only at h <;> simp only [rxProgress, hx] at hp
  case idle =>
    split at h
    · obtain ⟨-, rfl⟩ := execRxIdleBadstart_next h
      exact .quiet (.inr rfl) hr.bitcnt hr.parity
    · obtain ⟨-, rfl⟩ := execRxIdleStart_next h
      exact acceptStart_ok s
  case collectingDataBits =>
    obtain ⟨-, rfl⟩ := execRxData_next h
    obtain ⟨hn, ha, hs⟩ := hp
    obtain ⟨h1, h2⟩ := data_bit ⟨s.rxBitcnt, hn⟩ s.dataLevel s.rxAcc ha
    have hd := Bool.toNat_le s.dataLevel
    have ho := ones_le s.rxAcc
    refine ⟨hn, by show s.rxParity + _ ≤ 9; omega, ?_⟩
    simp only [rxProgress]
    by_cases h8 : s.rxBitcnt + 1 = 8
    · simp only [h8, if_true, true_and]
      rw [h2, hs]
    · simp only [h8, if_false]
      exact ⟨by omega, h1, by rw [h2, hs]⟩
  case expectingParity =>
    obtain ⟨-, rfl⟩ := execRxParity_next h
    have hd := Bool.toNat_le s.dataLevel
    have ho := ones_le s.rxAcc
    refine ⟨hr.bitcnt, by show s.rxParity + _ ≤ 9; omega, ?_⟩
    simp only [rxProgress]
    by_cases h1 : parityAccepts (s.rxParity + s.dataLevel.toNat) = true
    · simp only [h1, if_true, and_true]
      exact hp.1
    · simp only [h1, Bool.false_eq_true, if_false]
  case expectingStop =>
    split at h
    · obtain ⟨-, ⟨-, -, rfl⟩ | ⟨-, rfl⟩⟩ := execRxStopOk_next h
      · exact .quiet (.inl rfl) hr.bitcnt hr.parity
      · exact .quiet (.inr rfl) hr.bitcnt hr.parity
    · obtain ⟨-, rfl⟩ := execRxStopBad_next h
      exact .quiet (.inr rfl) hr.bitcnt hr.parity
  all_goals
    obtain ⟨-, rfl | ⟨-, rfl⟩⟩ := execRxError_next h
    · exact hr
    · exact acceptStart_ok s

/-! ## The buffer -/

/-- An edge event keeps the buffer's invariants. -/
theorem takeEdge_bufOk {s t : State} (h : takeEdge s = .next t) (hb : BufOk s) : BufOk t := by
  simp only [takeEdge] at h
  cases hx : s.rxState <;> rw [hx] at h <;> simp only at h
  case idle =>
    split at h
    · obtain ⟨-, rfl⟩ := execRxIdleBadstart_next h; exact hb.congr rfl rfl rfl rfl rfl
    · obtain ⟨-, rfl⟩ := execRxIdleStart_next h; exact hb.congr rfl rfl rfl rfl rfl
  case collectingDataBits => obtain ⟨-, rfl⟩ := execRxData_next h; exact hb.congr rfl rfl rfl rfl rfl
  case expectingParity => obtain ⟨-, rfl⟩ := execRxParity_next h; exact hb.congr rfl rfl rfl rfl rfl
  case expectingStop =>
    split at h
    · obtain ⟨-, ⟨hc, -, rfl⟩ | ⟨-, rfl⟩⟩ := execRxStopOk_next h
      · exact (hb.push s.rxAcc hc).congr rfl rfl rfl rfl rfl
      · exact hb.congr rfl rfl rfl rfl rfl
    · obtain ⟨-, rfl⟩ := execRxStopBad_next h; exact hb.congr rfl rfl rfl rfl rfl
  all_goals
    obtain ⟨-, rfl | ⟨-, rfl⟩⟩ := execRxError_next h
    · exact hb
    · exact hb.congr rfl rfl rfl rfl rfl

/-! ## The control state -/

/-- The control invariants depend on MAIN's elements alone, and on `rx_state` during a send. -/
theorem ControlOk.congr {s t : State} (h : ControlOk s) (hm : t.mainPhase = s.mainPhase) (hc : t.cont = s.cont)
    (hi : t.irqEnable = s.irqEnable) (hk : t.ps2ClkDrive = s.ps2ClkDrive) (hd : t.ps2DataDrive = s.ps2DataDrive)
    (ha : t.a2Data = s.a2Data) (hs : t.a2StrobeN = s.a2StrobeN) (hx : t.xlState = s.xlState)
    (hp : t.irqPending = true → t.params.irqLatch = true ∧ t.irqEnable = false)
    (hr : t.rxState = s.rxState ∨ s.irqEnable = true) : ControlOk t := by
  have ht : mainTop t = mainTop s := by simp only [mainTop, hc, hm]
  refine ⟨?_, ?_, ?_, ?_, ?_, hp, ?_, ?_, ?_⟩
  · simp only [controlShape, hm, hc]; exact h.shape
  · rw [hi, hm, ht]; exact h.enable
  · intro hin
    rw [ht] at hin
    rcases hr with hr | hr
    · rw [hr]; exact h.receiver hin
    · rw [h.enable, hin] at hr
      simp at hr
  · rw [hk, ht]; exact h.clock
  · rw [hd, ht]; exact h.data
  · rw [hs, ht]; exact h.strobe
  · have := h.held
    simp only [dataHeld, ht, ha] at this ⊢
    exact this
  · rw [hx, hc]; exact h.translator

/-- An edge event, taken while interrupts are enabled, keeps the control invariants. -/
theorem takeEdge_controlOk {s t : State} (h : takeEdge s = .next t) (hi : s.irqEnable = true) (hc : ControlOk s) :
    ControlOk t := by
  obtain ⟨_, _, _, _, _, _, _, rfl⟩ := takeEdge_next h
  exact hc.congr rfl rfl rfl rfl rfl rfl rfl rfl hc.pending (.inr hi)

theorem takeEdge_params {s t : State} (h : takeEdge s = .next t) : t.params = s.params := by
  obtain ⟨_, _, _, _, _, _, _, rfl⟩ := takeEdge_next h
  rfl

/-- An edge event, taken while interrupts are enabled, keeps the invariant. -/
theorem takeEdge_inv {s t : State} (h : takeEdge s = .next t) (hi : s.irqEnable = true) (hv : Inv s) : Inv t where
  params := by rw [takeEdge_params h]; exact hv.params
  atomic := by rw [takeEdge_params h]; exact hv.atomic
  buffer := takeEdge_bufOk h hv.buffer
  receiver := takeEdge_rxOk h hv.receiver
  control := takeEdge_controlOk h hi hv.control

/-- Elements of the environment, the watchdog's count and the record of the last result are outside the invariant. -/
theorem Inv.environment {s : State} (hv : Inv s) (k d : Drive) (r : List Stimulus) (w : Nat) :
    Inv { s with kbdClkDrive := k, kbdDataDrive := d, inputs := r, wdt := w } where
  params := hv.params
  atomic := hv.atomic
  buffer := hv.buffer.congr rfl rfl rfl rfl rfl
  receiver := hv.receiver.congr rfl rfl rfl rfl
  control := hv.control.congr rfl rfl rfl rfl rfl rfl rfl rfl hv.control.pending (.inl rfl)

/-- A missed edge keeps it. -/
theorem Inv.missEdge {s : State} (hv : Inv s) (hi : s.irqEnable = false) : Inv s.missEdge := by
  rw [missEdge_eq]
  refine ⟨hv.params, hv.atomic, hv.buffer.congr rfl rfl rfl rfl rfl, hv.receiver.congr rfl rfl rfl rfl,
    hv.control.congr rfl rfl rfl rfl rfl rfl rfl rfl ?_ (.inl rfl)⟩
  intro h
  rcases Bool.or_eq_true_iff.mp h with h | h
  · exact ⟨h, hi⟩
  · exact ⟨(hv.control.pending h).1, hi⟩

/-- A pulse of the keyboard keeps it. -/
theorem kbdPulse_inv {d : Bool} {s t : State} (h : kbdPulse d s = .next t) (hv : Inv s) : Inv t := by
  obtain ⟨u, hu, ht⟩ := andThen_eq_next h
  rw [← Host.Outcome.next.inj ht]
  have hv' : Inv ((s.setKbd .released (driveOf d)).setKbd .low (driveOf d)) :=
    hv.environment .low (driveOf d) s.inputs s.wdt
  have hu' : Inv u := by
    rcases clockChanged_next hu with ⟨-, hi, he⟩ | ⟨-, hi, rfl⟩ | ⟨-, rfl⟩
    · exact takeEdge_inv he hi hv'
    · exact hv'.missEdge hi
    · exact hv'
  exact hu'.environment .released (driveOf d) u.inputs u.wdt

theorem kbdPulses_inv {ls : List Bool} {s t : State} (h : kbdPulses ls s = .next t) (hv : Inv s) : Inv t := by
  induction ls generalizing s with
  | nil => rw [← Host.Outcome.next.inj h]; exact hv
  | cons d ds ih =>
    obtain ⟨u, hu, ht⟩ := andThen_eq_next h
    exact ih ht (kbdPulse_inv hu hv)

end Sys2Proof.Machine
end

