-- ==== Sys2Proof/Laws/Receiver.lean ====
section
/-! SUPPORT. The keyboard's pulses while the receiver listens: what each receiver state makes of one pulse, and the nine
pulses of a start bit and eight data bits together; and what any pulses may write: the lines, the latch, at most one
cell in a frame. -/

namespace Sys2Proof.Machine

open Sys2Proof

/-- A pulse while edges reach the receiver and the block drives neither line is one edge event with that level. -/
theorem kbdPulse_listening {s : State} (h : Listening s) (d : Bool) :
    (s.setKbd .low (driveOf d)).dataLevel = d
      ∧ kbdPulse d s = andThen (takeEdge (s.setKbd .low (driveOf d))) fun u => .next (u.setKbd .released (driveOf d)) := by
  obtain ⟨hi, hc, hd⟩ := h
  have hl : (s.setKbd .low (driveOf d)).dataLevel = d := by
    simp only [State.dataLevel, setKbd_ps2DataDrive, setKbd_kbdDataDrive, hd]
    cases d <;> rfl
  refine ⟨hl, ?_⟩
  have hf : clockFell (s.setKbd .released (driveOf d)) ((s.setKbd .released (driveOf d)).setKbd .low (driveOf d)) = true := by
    simp only [clockFell, State.clkLevel, setKbd_ps2ClkDrive, setKbd_kbdClkDrive, hc]
    rfl
  have hi' : ((s.setKbd .released (driveOf d)).setKbd .low (driveOf d)).irqEnable = true := hi
  simp only [kbdPulse, clockChanged, hf, hi', if_true]
  rfl

/-- The state after a pulse that ended with the receiver's registers as given. -/
def State.afterPulse (s : State) (d : Bool) (x : RxState) (a : Byte) (n p : Nat) : State :=
  { s with
    rxState := x, rxAcc := a, rxBitcnt := n, rxParity := p, kbdClkDrive := .released, kbdDataDrive := driveOf d }

theorem afterPulse_listening {s : State} (h : Listening s) (d : Bool) (x : RxState) (a : Byte) (n p : Nat) :
    Listening (s.afterPulse d x a n p) := h

theorem pulse_start {s : State} (h : Listening s) (hx : s.rxState = .idle) :
    kbdPulse false s = .next (s.afterPulse false .collectingDataBits 0 0 0) := by
  obtain ⟨hl, hp⟩ := kbdPulse_listening h false
  simp only [hp, takeEdge, setKbd_rxState, hx, hl, Bool.false_eq_true, if_false, execRxIdleStart, whenRx, if_true,
    andThen_next]
  rfl

theorem pulse_badstart {s : State} (h : Listening s) (hx : s.rxState = .idle) :
    kbdPulse true s = .next (s.afterPulse true .errorStart s.rxAcc s.rxBitcnt s.rxParity) := by
  obtain ⟨hl, hp⟩ := kbdPulse_listening h true
  simp only [hp, takeEdge, setKbd_rxState, hx, hl, execRxIdleBadstart, whenRx, if_true, andThen_next]
  rfl

theorem pulse_data {s : State} (h : Listening s) (hx : s.rxState = .collectingDataBits) (d : Bool) :
    kbdPulse d s = .next (s.afterPulse d (if s.rxBitcnt + 1 = 8 then .expectingParity else .collectingDataBits)
      (s.rxAcc ||| (BitVec.ofNat 8 d.toNat <<< s.rxBitcnt)) (s.rxBitcnt + 1) (s.rxParity + d.toNat)) := by
  obtain ⟨hl, hp⟩ := kbdPulse_listening h d
  simp only [hp, takeEdge, setKbd_rxState, hx, hl, execRxData, whenRx, if_true, andThen_next]
  rfl

theorem pulse_parity {s : State} (h : Listening s) (hx : s.rxState = .expectingParity) (d : Bool) :
    kbdPulse d s = .next (s.afterPulse d
      (if parityAccepts (s.rxParity + d.toNat) = true then .expectingStop else .errorParity)
      s.rxAcc s.rxBitcnt (s.rxParity + d.toNat)) := by
  obtain ⟨hl, hp⟩ := kbdPulse_listening h d
  simp only [hp, takeEdge, setKbd_rxState, hx, hl, execRxParity, whenRx, if_true, andThen_next, setKbd_rxParity, raiseRx,
    RxState.ofErr]
  split <;> rfl

theorem pulse_badstop {s : State} (h : Listening s) (hx : s.rxState = .expectingStop) :
    kbdPulse false s = .next (s.afterPulse false .errorStop s.rxAcc s.rxBitcnt s.rxParity) := by
  obtain ⟨hl, hp⟩ := kbdPulse_listening h false
  simp only [hp, takeEdge, setKbd_rxState, hx, hl, Bool.false_eq_true, if_false, execRxStopBad, whenRx, if_true,
    andThen_next]
  rfl

theorem pulse_stop {s : State} (h : Listening s) (hx : s.rxState = .expectingStop) (hc : s.bufCount < s.params.bufCap)
    (hw : s.bufWr < s.params.bufCap) :
    kbdPulse true s = .next
      { s.afterPulse true .idle s.rxAcc s.rxBitcnt s.rxParity with
        buf := s.buf.write s.bufWr s.rxAcc
        bufWr := (s.bufWr + 1) % s.params.bufCap
        bufCount := s.bufCount + 1 } := by
  obtain ⟨hl, hp⟩ := kbdPulse_listening h true
  have hw' : (s.setKbd .low (driveOf true)).bufWr < (s.setKbd .low (driveOf true)).params.bufCap := hw
  simp only [hp, takeEdge, setKbd_rxState, hx, hl, execRxStopOk, whenRx, if_true, setKbd_bufCount, setKbd_params, hc,
    push_eq _ hw', andThen_next]
  rfl

theorem pulse_overrun {s : State} (h : Listening s) (hx : s.rxState = .expectingStop)
    (hc : ¬ s.bufCount < s.params.bufCap) :
    kbdPulse true s = .next (s.afterPulse true .errorOverrun s.rxAcc s.rxBitcnt s.rxParity) := by
  obtain ⟨hl, hp⟩ := kbdPulse_listening h true
  simp only [hp, takeEdge, setKbd_rxState, hx, hl, execRxStopOk, whenRx, if_true, setKbd_bufCount, setKbd_params, hc,
    if_false, andThen_next]
  rfl

theorem pulse_error {s : State} (h : Listening s) (hx : s.rxState.isError = true)
    (hp : s.params.rxErrorRecovery = .externalResetOnly) (d : Bool) :
    kbdPulse d s = .next (s.afterPulse d s.rxState s.rxAcc s.rxBitcnt s.rxParity) := by
  obtain ⟨hl, hk⟩ := kbdPulse_listening h d
  have he : takeEdge (s.setKbd .low (driveOf d)) = .next (s.setKbd .low (driveOf d)) := by
    simp only [takeEdge, setKbd_rxState]
    cases hs : s.rxState <;> rw [hs] at hx <;> simp only [RxState.isError, Bool.false_eq_true] at hx <;>
      simp only [execRxError, whenRx, setKbd_rxState, hs, RxState.ofErr, if_true, setKbd_params, hp]
  rw [hk, he]
  rfl

/-- In an error state every pulse is ignored but for the keyboard's own lines. -/
theorem pulses_error {s : State} (h : Listening s) (hx : s.rxState.isError = true)
    (hp : s.params.rxErrorRecovery = .externalResetOnly) (ls : List Bool) :
    kbdPulses ls s = .next (ls.foldl (fun s d => s.afterPulse d s.rxState s.rxAcc s.rxBitcnt s.rxParity) s) := by
  induction ls generalizing s with
  | nil => rfl
  | cons d ds ih =>
    rw [kbdPulses, pulse_error h hx hp d, andThen_next]
    exact ih (afterPulse_listening h _ _ _ _ _) hx hp

/-- Eight data bits, least significant first, make a byte (R91). -/
theorem acc_bits (d0 d1 d2 d3 d4 d5 d6 d7 : Bool) :
    ((((((((0 : Byte) ||| (BitVec.ofNat 8 d0.toNat <<< 0)) ||| (BitVec.ofNat 8 d1.toNat <<< 1))
      ||| (BitVec.ofNat 8 d2.toNat <<< 2)) ||| (BitVec.ofNat 8 d3.toNat <<< 3)) ||| (BitVec.ofNat 8 d4.toNat <<< 4))
      ||| (BitVec.ofNat 8 d5.toNat <<< 5)) ||| (BitVec.ofNat 8 d6.toNat <<< 6)) ||| (BitVec.ofNat 8 d7.toNat <<< 7)
    = BitVec.ofNat 8 (d0.toNat + 2 * d1.toNat + 4 * d2.toNat + 8 * d3.toNat + 16 * d4.toNat + 32 * d5.toNat
        + 64 * d6.toNat + 128 * d7.toNat) := by
  cases d0 <;> cases d1 <;> cases d2 <;> cases d3 <;> cases d4 <;> cases d5 <;> cases d6 <;> cases d7 <;> rfl

/-- A start bit and eight data bits: the accumulator holds the byte, the sum the count of 1 bits. -/
theorem pulses_nine {s : State} (h : Listening s) (hx : s.rxState = .idle) (d0 d1 d2 d3 d4 d5 d6 d7 : Bool)
    (ls : List Bool) :
    kbdPulses (false :: d0 :: d1 :: d2 :: d3 :: d4 :: d5 :: d6 :: d7 :: ls) s
      = kbdPulses ls (s.afterPulse d7 .expectingParity
          (BitVec.ofNat 8 (d0.toNat + 2 * d1.toNat + 4 * d2.toNat + 8 * d3.toNat + 16 * d4.toNat + 32 * d5.toNat
            + 64 * d6.toNat + 128 * d7.toNat)) 8
          (d0.toNat + d1.toNat + d2.toNat + d3.toNat + d4.toNat + d5.toNat + d6.toNat + d7.toNat)) := by
  have step : ∀ (e d : Bool) (a : Byte) (n p : Nat) (ls : List Bool), n < 8 →
      kbdPulses (d :: ls) (s.afterPulse e .collectingDataBits a n p)
        = kbdPulses ls (s.afterPulse d (if n + 1 = 8 then .expectingParity else .collectingDataBits)
            (a ||| (BitVec.ofNat 8 d.toNat <<< n)) (n + 1) (p + d.toNat)) := by
    intro e d a n p ls _
    rw [kbdPulses, pulse_data (afterPulse_listening h _ _ _ _ _) rfl d, andThen_next]
    rfl
  rw [kbdPulses, pulse_start h hx, andThen_next, step _ d0 _ _ _ _ (by decide)]
  simp only [Nat.reduceAdd, Nat.reduceEqDiff, if_false]
  rw [step _ d1 _ _ _ _ (by decide)]
  simp only [Nat.reduceAdd, Nat.reduceEqDiff, if_false]
  rw [step _ d2 _ _ _ _ (by decide)]
  simp only [Nat.reduceAdd, Nat.reduceEqDiff, if_false]
  rw [step _ d3 _ _ _ _ (by decide)]
  simp only [Nat.reduceAdd, Nat.reduceEqDiff, if_false]
  rw [step _ d4 _ _ _ _ (by decide)]
  simp only [Nat.reduceAdd, Nat.reduceEqDiff, if_false]
  rw [step _ d5 _ _ _ _ (by decide)]
  simp only [Nat.reduceAdd, Nat.reduceEqDiff, if_false]
  rw [step _ d6 _ _ _ _ (by decide)]
  simp only [Nat.reduceAdd, Nat.reduceEqDiff, if_false]
  rw [step _ d7 _ _ _ _ (by decide)]
  simp only [Nat.reduceAdd, if_true]
  rw [acc_bits, Nat.zero_add]

/-! ## A frame pushes at most one byte -/

/-- How many edge events a push is away at the least: the eleventh of a frame commits its byte (R91, R136). -/
def State.edgesToPush (s : State) : Nat :=
  match s.rxState with
  | .idle => 11
  | .collectingDataBits => 2 + (8 - s.rxBitcnt)
  | .expectingParity => 2
  | .expectingStop => 1
  | .errorStart | .errorOverrun | .errorParity | .errorStop => 11

@[simp] theorem setKbd_edgesToPush (s : State) (c d : Drive) : (s.setKbd c d).edgesToPush = s.edgesToPush := rfl

theorem missEdge_edgesToPush (s : State) : s.missEdge.edgesToPush = s.edgesToPush := by
  rw [missEdge_eq]; rfl

/-- An edge event leaves the buffer alone and comes at most one edge nearer to a push, or pushes one cell and is a whole
frame away from the next. -/
theorem takeEdge_push {s t : State} (h : takeEdge s = .next t) :
    t.buf = s.buf ∧ t.bufWr = s.bufWr ∧ s.edgesToPush ≤ t.edgesToPush + 1
    ∨ s.edgesToPush = 1 ∧ t.buf = s.buf.write s.bufWr s.rxAcc ∧ t.edgesToPush = 11 := by
  simp only [takeEdge] at h
  split at h
  · split at h
    · obtain ⟨hx, rfl⟩ := execRxIdleBadstart_next h; simp [State.edgesToPush, hx]
    · obtain ⟨hx, rfl⟩ := execRxIdleStart_next h; simp [State.edgesToPush, hx]
  · obtain ⟨hx, rfl⟩ := execRxData_next h
    refine .inl ⟨rfl, rfl, ?_⟩
    by_cases h8 : s.rxBitcnt + 1 = 8 <;> simp only [State.edgesToPush, hx, h8, if_true, if_false] <;> omega
  · obtain ⟨hx, rfl⟩ := execRxParity_next h
    by_cases hp : parityAccepts (s.rxParity + s.dataLevel.toNat) = true <;> simp [State.edgesToPush, hx, hp]
  · split at h
    · obtain ⟨hx, ⟨-, -, rfl⟩ | ⟨-, rfl⟩⟩ := execRxStopOk_next h <;> simp [State.edgesToPush, hx]
    · obtain ⟨hx, rfl⟩ := execRxStopBad_next h; simp [State.edgesToPush, hx]
  all_goals
    obtain ⟨hx, rfl | ⟨-, rfl⟩⟩ := execRxError_next h <;> simp [State.edgesToPush, hx, RxState.ofErr]

/-- The same for a pulse of the keyboard. -/
theorem kbdPulse_push {s t : State} {d : Bool} (h : kbdPulse d s = .next t) :
    t.buf = s.buf ∧ t.bufWr = s.bufWr ∧ s.edgesToPush ≤ t.edgesToPush + 1
    ∨ s.edgesToPush = 1 ∧ t.buf = s.buf.write s.bufWr s.rxAcc ∧ t.edgesToPush = 11 := by
  obtain ⟨u, hu, ht⟩ := andThen_eq_next h
  rw [← Host.Outcome.next.inj ht]
  rcases clockChanged_next hu with ⟨-, -, he⟩ | ⟨-, -, rfl⟩ | ⟨-, rfl⟩
  · have := takeEdge_push he
    exact this
  · left; rw [missEdge_eq]; exact ⟨rfl, rfl, Nat.le_succ _⟩
  · exact .inl ⟨rfl, rfl, Nat.le_succ _⟩

/-- Fewer pulses than a push is away leave the buffer alone. -/
theorem kbdPulses_buf {ls : List Bool} {s t : State} (h : kbdPulses ls s = .next t) (hl : ls.length < s.edgesToPush) :
    t.buf = s.buf := by
  induction ls generalizing s with
  | nil => rw [← Host.Outcome.next.inj h]
  | cons d ds ih =>
    obtain ⟨u, hu, ht⟩ := andThen_eq_next h
    rw [List.length_cons] at hl
    rcases kbdPulse_push hu with ⟨hb, -, hn⟩ | ⟨h1, -, -⟩
    · rw [ih ht (by omega), hb]
    · omega

/-- The pulses of one frame write at most the cell at the write cursor. -/
theorem kbdPulses_cell {ls : List Bool} {s t : State} (h : kbdPulses ls s = .next t) (hl : ls.length ≤ 11) {j : Nat}
    (hj : j ≠ s.bufWr) : t.buf.read j = s.buf.read j := by
  induction ls generalizing s with
  | nil => rw [← Host.Outcome.next.inj h]
  | cons d ds ih =>
    obtain ⟨u, hu, ht⟩ := andThen_eq_next h
    rw [List.length_cons] at hl
    rcases kbdPulse_push hu with ⟨hb, hw, -⟩ | ⟨-, hb, hn⟩
    · rw [ih ht (by omega) (by rw [hw]; exact hj), hb]
    · rw [kbdPulses_buf ht (by omega), hb, read_write_other _ _ _ _ hj]

/-- Whether falls of the clock are remembered: interrupts off, IRQ_LATCH, and the block leaves the clock free (R41). -/
def State.latches (s : State) : Bool := !s.irqEnable && s.params.irqLatch && decide (s.ps2ClkDrive = .released)

/-- What a pulse may write, its lines and the latch in full. -/
theorem kbdPulse_lines {s t : State} {d : Bool} (h : kbdPulse d s = .next t) :
    t = { s with
      rxState := t.rxState, rxAcc := t.rxAcc, rxBitcnt := t.rxBitcnt, rxParity := t.rxParity, buf := t.buf,
      bufWr := t.bufWr, bufCount := t.bufCount, irqPending := s.irqPending || s.latches,
      kbdClkDrive := .released, kbdDataDrive := driveOf d } := by
  obtain ⟨u, hu, ht⟩ := andThen_eq_next h
  rw [← Host.Outcome.next.inj ht]
  rcases clockChanged_next hu with ⟨-, hi, he⟩ | ⟨hf, hi, rfl⟩ | ⟨hf, rfl⟩
  · have hl : s.latches = false := by
      have : s.irqEnable = true := hi
      simp [State.latches, this]
    rw [hl, Bool.or_false]
    obtain ⟨_, _, _, _, _, _, _, rfl⟩ := takeEdge_next he
    rfl
  · rw [missEdge_eq]
    have hd : s.ps2ClkDrive = .released := by
      cases hd : s.ps2ClkDrive with
      | released => rfl
      | low => simp [clockFell, State.clkLevel, hd, level] at hf
    have hi' : s.irqEnable = false := hi
    simp [State.latches, hd, hi', State.setKbd, Bool.or_comm]
  · have hd : s.ps2ClkDrive = .low := by
      cases hd : s.ps2ClkDrive with
      | low => rfl
      | released => simp [clockFell, State.clkLevel, hd, level] at hf
    simp [State.latches, hd, State.setKbd]

/-- The same for pulses of which the last has level `d`. -/
theorem kbdPulses_lines {ls : List Bool} {d : Bool} {s t : State} (h : kbdPulses (ls ++ [d]) s = .next t) :
    t = { s with
      rxState := t.rxState, rxAcc := t.rxAcc, rxBitcnt := t.rxBitcnt, rxParity := t.rxParity, buf := t.buf,
      bufWr := t.bufWr, bufCount := t.bufCount, irqPending := s.irqPending || s.latches,
      kbdClkDrive := .released, kbdDataDrive := driveOf d } := by
  induction ls generalizing s with
  | nil =>
    obtain ⟨u, hu, ht⟩ := andThen_eq_next h
    rw [← Host.Outcome.next.inj ht]
    exact kbdPulse_lines hu
  | cons e es ih =>
    obtain ⟨u, hu, ht⟩ := andThen_eq_next h
    have hu' := kbdPulse_lines hu
    have hl : u.latches = s.latches := by rw [hu']; rfl
    have hp : u.irqPending = (s.irqPending || s.latches) := by rw [hu']
    have ht' := ih ht
    rw [hl, hp, Bool.or_assoc, Bool.or_self] at ht'
    rw [hu'] at ht'
    exact ht'

end Sys2Proof.Machine
end

