-- ==== Sys2Proof/Tests/Slice0.lean ====
section
/-! SUPPORT. The model's own tests: ill-formed terms that the checks refuse, words written out from the spec's encodings
that decode to their rows, one-step tests whose results are the vectors of spec/95_test_vectors.md (named V-…, S…) or read
from the rule named, and for each statement with hypotheses a witness that meets them. -/

namespace Sys2Proof.Tests

open Sys2Proof Sys2Proof.Machine

set_option Elab.async false

/-! ## Fixtures -/

/-- The fixture table FIX of 95_test_vectors.md. -/
def fix : Table where
  normal := (List.range 58).map fun s => BitVec.ofNat 8 (0x80 + s)
  shift := (List.range 58).map fun s => BitVec.ofNat 8 (0xC0 + s)
  ctrl := (List.range 58).map fun s =>
    if 0x10 ≤ s ∧ s ≤ 0x32 then BitVec.ofNat 8 (0x80 + s % 32) else BitVec.ofNat 8 (0x40 + s)
  shiftCtrl := List.replicate 58 0

/-- The default parameters with FIX and the startup list of program P5. -/
def par : Params :=
  { Params.standard with
    table := fix
    ledTestSeq := [(0x07, 0), (0x00, 0)]
    typematicByte := 0x20
    timing := { clkInhibitMin := 100, txSettle := 1, a2Setup := 1, strobeMin := 1, wdtTimeout := 1 } }

/-- "Reset state" of 95_test_vectors.md: MAIN between two iterations, nothing buffered. -/
def base : State where
  params := par
  rxState := .idle
  rxAcc := 0
  rxBitcnt := 0
  rxParity := 0
  buf := { cells := [] }
  bufWr := 0
  bufRd := 0
  bufCount := 0
  ctrlDown := false
  shiftDown := false
  xlState := .ground
  a2Data := 0
  a2StrobeN := true
  ps2ClkDrive := .released
  ps2DataDrive := .released
  irqEnable := true
  irqPending := false
  mainPhase := .loop
  cont := []
  ret := .nothing
  wdt := 3
  kbdClkDrive := .released
  kbdDataDrive := .released
  inputs := []
  a2Seen := []
  resets := 0

/-- A full buffer of 32 bytes, byte k being k. -/
def full : State :=
  { base with buf := { cells := (List.range 32).map fun k => (k, BitVec.ofNat 8 k) }, bufCount := 32 }

/-- The buffer holds the listed bytes from cell 0 on. -/
def holding (bs : List Byte) : State :=
  { base with buf := { cells := (List.range bs.length).zip bs }, bufWr := bs.length, bufCount := bs.length }

/-- The receiver in the middle of a frame. -/
def rx (x : RxState) (acc : Byte) (n sum : Nat) : State :=
  { base with rxState := x, rxAcc := acc, rxBitcnt := n, rxParity := sum }

/-- The translator with a byte to classify, called from the loop. -/
def xl (x : XlState) (b : Byte) : State := { base with xlState := x, cont := [.xlByte (some b), .loopOut] }

/-- MAIN at a continuation. -/
def standing (k : List Point) : State := { base with cont := k }

/-- The modifiers (shift, ctrl). -/
def mods (sh ct : Bool) (s : State) : State := { s with shiftDown := sh, ctrlDown := ct }

/-- The outcome is a next state with the property. -/
def gives (o : Out) (f : State → Bool) : Bool :=
  match o with
  | .next t => f t
  | _ => false

/-- The outcome is a refusal with this reason. -/
def refuses (o : Out) (r : Refusal) : Bool :=
  match o with
  | .refused q => q == r
  | _ => false

theorem exists_next {o : Out} {f : State → Bool} (h : gives o f = true) : ∃ t, o = .next t := by
  cases o with
  | next t => exact ⟨t, rfl⟩
  | fault _ => simp [gives] at h
  | refused _ => simp [gives] at h

/-! ## Ill-formed terms -/

/-- Each check of WellFormed refuses a term that violates it alone. -/
theorem test_wellFormed_smoke :
    [ -- a BLOCKLIST row without its member
      WellFormed { par with blocklist := [] } .xlBlocklist0E,
      WellFormed { par with blocklist := [0x0E] } .xlBlocklist0F,
      WellFormed { par with blocklist := [0x0E, 0x0F] } .xlBlocklist1A,
      WellFormed { par with blocklist := [0x0E, 0x0F, 0x1A] } .xlBlocklist1B,
      WellFormed { par with blocklist := [0x0E, 0x0F, 0x1A, 0x1B] } .xlBlocklist28,
      WellFormed { par with blocklist := [0x0E, 0x0F, 0x1A, 0x1B, 0x28] } .xlBlocklist29,
      WellFormed { par with blocklist := [0x0E, 0x0F, 0x1A, 0x1B, 0x28, 0x29] } .xlBlocklist35,
      -- the five special codes are not in HIGHRANGE_80: E1, E0, 9D, AA, B6
      WellFormed par (.xlHighrange80 0x61), WellFormed par (.xlHighrange80 0x60), WellFormed par (.xlHighrange80 0x1D),
      WellFormed par (.xlHighrange80 0x2A), WellFormed par (.xlHighrange80 0x36),
      -- a lookup below 1, above 57, of a modifier make, of a BLOCKLIST code
      WellFormed par (.xlLookup 0), WellFormed par (.xlLookup 58), WellFormed par (.xlLookup 0x1D),
      WellFormed par (.xlLookup 0x2A), WellFormed par (.xlLookup 0x36), WellFormed par (.xlLookup 0x35),
      -- the named second bytes are no "other" byte
      WellFormed par (.xlE0Other 0x1D), WellFormed par (.xlE0Other 0x9D), WellFormed par (.xlE0Other 0x4B),
      WellFormed par (.xlE0Other 0x4D), WellFormed par (.xlE1Other 0x1D), WellFormed par (.xlE1Other 0x9D),
      -- the stop bit is 1
      WellFormed par (.txBit 9 false)] = List.replicate 25 false := by decide +kernel

/-- Terms at the edges of the same checks are well formed. -/
theorem test_wellFormed_accepts :
    [WellFormed par .xlBlocklist35, WellFormed par (.xlHighrange80 0x7F), WellFormed par (.xlHighrange80 0x62),
      WellFormed par (.xlLookup 1), WellFormed par (.xlLookup 57), WellFormed par (.xlE0Other 0xE0),
      WellFormed par (.xlE1Other 0xE1), WellFormed par (.txBit 8 false), WellFormed par (.txBit 9 true)]
      = List.replicate 9 true := by decide +kernel

/-- Each constraint on the parameters (R6) refuses a value that violates it; the fixture's parameters meet all. -/
theorem test_params_smoke :
    par.wf = true
      ∧ [{ par with bufCap := 0 }.wf, { par with bufCap := 256 }.wf, { par with tableM := 57 }.wf,
          { par with tableM := 59 }.wf, { par with blocklist := [0x1D] }.wf, { par with blocklist := [0x3A] }.wf,
          { par with blocklist := [0x37] }.wf, { par with blocklist := [0x0E, 0x0E] }.wf,
          { par with respResend := 0xFA }.wf, { par with cmdSetLeds := 0xF3 }.wf,
          { par with timing := { par.timing with clkInhibitMin := 99 } }.wf,
          { par with timing := { par.timing with strobeMin := 0 } }.wf] = List.replicate 12 false := by decide +kernel

/-! ## Decoding: words written out from the spec's encodings -/

/-- RXEV, `sss d` (R105). -/
theorem test_decode_rxev :
    decode par .rxev 0b0000 = .instr .rxIdleStart ∧ decode par .rxev 0b0001 = .instr .rxIdleBadstart
      ∧ decode par .rxev 0b0010 = .instr (.rxData false) ∧ decode par .rxev 0b0011 = .instr (.rxData true)
      ∧ decode par .rxev 0b0100 = .instr (.rxParity false) ∧ decode par .rxev 0b0101 = .instr (.rxParity true)
      ∧ decode par .rxev 0b0110 = .instr .rxStopBad ∧ decode par .rxev 0b0111 = .instr .rxStopOk
      ∧ decode par .rxev 0b1000 = .instr (.rxError .start false)
      ∧ decode par .rxev 0b1011 = .instr (.rxError .overrun true)
      ∧ decode par .rxev 0b1101 = .instr (.rxError .parity true)
      ∧ decode par .rxev 0b1110 = .instr (.rxError .stop false)
      ∧ decode par .rxev 0b10000 = .rejected .tooWide := by decide +kernel

/-- D2H: the frames of 0x1E, 0x9D and 0xFF of section 2.1, first level in bit 0 (R90); bad start, parity and stop bits. -/
theorem test_decode_d2h :
    decode par .d2h 0b11000111100 = .instr (.kbdFrame 0x1E) ∧ decode par .d2h 0b10100111010 = .instr (.kbdFrame 0x9D)
      ∧ decode par .d2h 0b11111111110 = .instr (.kbdFrame 0xFF)
      ∧ decode par .d2h 0b11000111101 = .rejected .startBitOne
      ∧ decode par .d2h 0b10000111100 = .rejected .parityEven
      ∧ decode par .d2h 0b01000111100 = .rejected .stopBitZero := by decide +kernel

/-- H2D: the bit lists of 0xED, 0x07 and 0x80 of section 2.4, first bit in bit 0 (R186). -/
theorem test_decode_h2d :
    decode par .h2d 0b1111101101 = .instr (.ps2Send 0xED) ∧ decode par .h2d 0b1000000111 = .instr (.ps2Send 0x07)
      ∧ decode par .h2d 0b1010000000 = .instr (.ps2Send 0x80)
      ∧ decode par .h2d 0b0111101101 = .rejected .stopBitZero := by decide +kernel

/-- SC: one byte of every class of R98, at the edges of its ranges. -/
theorem test_decode_sc_named :
    decode par .sc 0xE1 = .instr .xlE1 ∧ decode par .sc 0xE0 = .instr .xlE0 ∧ decode par .sc 0x1D = .instr .xlCtrlMake
      ∧ decode par .sc 0x9D = .instr .xlCtrlBreak ∧ decode par .sc 0x2A = .instr .xlShiftMake2A
      ∧ decode par .sc 0x36 = .instr .xlShiftMake36 ∧ decode par .sc 0xAA = .instr .xlShiftBreakAA
      ∧ decode par .sc 0xB6 = .instr .xlShiftBreakB6 ∧ decode par .sc 0x0E = .instr .xlBlocklist0E
      ∧ decode par .sc 0x0F = .instr .xlBlocklist0F ∧ decode par .sc 0x1A = .instr .xlBlocklist1A
      ∧ decode par .sc 0x1B = .instr .xlBlocklist1B ∧ decode par .sc 0x28 = .instr .xlBlocklist28
      ∧ decode par .sc 0x29 = .instr .xlBlocklist29 ∧ decode par .sc 0x35 = .instr .xlBlocklist35 := by decide +kernel

theorem test_decode_sc_ranges :
    decode par .sc 0x3A = .instr (.xlHighrange3A 0) ∧ decode par .sc 0x3B = .instr (.xlHighrange3A 1)
      ∧ decode par .sc 0x3C = .instr (.xlHighrange3C 0) ∧ decode par .sc 0x3F = .instr (.xlHighrange3C 3)
      ∧ decode par .sc 0x40 = .instr (.xlHighrange40 0) ∧ decode par .sc 0x7F = .instr (.xlHighrange40 0x3F)
      ∧ decode par .sc 0x80 = .instr (.xlHighrange80 0) ∧ decode par .sc 0xFF = .instr (.xlHighrange80 0x7F)
      ∧ decode par .sc 0x9E = .instr (.xlHighrange80 0x1E) ∧ decode par .sc 0x00 = .instr .xlNonpositive
      ∧ decode par .sc 0x01 = .instr (.xlLookup 0x01) ∧ decode par .sc 0x39 = .instr (.xlLookup 0x39)
      ∧ decode par .sc 0x100 = .rejected .tooWide := by decide +kernel

/-- SC.E0, SC.E1, SC.E1C (R99). -/
theorem test_decode_sc_prefixed :
    decode par .scE0 0x1D = .instr .xlE0Ctrl1D ∧ decode par .scE0 0x9D = .instr .xlE0Ctrl9D
      ∧ decode par .scE0 0x4B = .instr .xlE0Arrow4B ∧ decode par .scE0 0x4D = .instr .xlE0Arrow4D
      ∧ decode par .scE0 0xCB = .instr (.xlE0Other 0xCB) ∧ decode par .scE1 0x1D = .instr .xlE1Cont1D
      ∧ decode par .scE1 0x9D = .instr .xlE1Cont9D ∧ decode par .scE1 0x2A = .instr (.xlE1Other 0x2A)
      ∧ decode par .scE1C 0xE0 = .instr (.xlE1Third 0xE0) := by decide +kernel

/-- TE, A2, CMD, RESP (R101, R102, R103); the byte 0x41 at the writer is the violated precondition V-WR6. -/
theorem test_decode_bytes :
    decode par .te 0xC1 = .instr (.xlOutputValid 0x41) ∧ decode par .te 0x80 = .instr (.xlOutputValid 0)
      ∧ decode par .te 0x42 = .instr (.xlOutputSentinel 0x42) ∧ decode par .te 0x00 = .instr (.xlOutputSentinel 0)
      ∧ decode par .a2 0xC1 = .instr (.a2Write 0x41) ∧ decode par .a2 0x41 = .rejected .bit7Clear
      ∧ decode par .cmd 0x07ED = .instr (.cmdSetLeds 0x07) ∧ decode par .cmd 0x20F3 = .instr (.cmdSetTypematic 0x20)
      ∧ decode par .cmd 0x01F0 = .instr (.cmdSetScanset 0x01) ∧ decode par .cmd 0x01F4 = .rejected .noCommandByte
      ∧ decode par .resp 0xFA = .instr .respAck ∧ decode par .resp 0xFE = .instr .respResend
      ∧ decode par .resp 0x1E = .rejected .noResponseCode := by decide +kernel

/-- OP: the numbers are the rows of the opcode table (log entry 4). -/
theorem test_decode_op_plain :
    decode par .op 49 = .instr .ps2RecvNonblocking ∧ decode par .op 50 = .instr .ps2RecvBlocking
      ∧ decode par .op 51 = .instr .txPrepare ∧ decode par .op 52 = .instr .txInhibit
      ∧ decode par .op 53 = .instr .txRtsData ∧ decode par .op 54 = .instr .txRtsRelease
      ∧ decode par .op 56 = .instr .txReleaseData ∧ decode par .op 57 = .instr .txAck
      ∧ decode par .op 58 = .instr .txAckEnd ∧ decode par .op 60 = .instr .txSettle
      ∧ decode par .op 62 = .instr .translatePoll ∧ decode par .op 63 = .instr .xlEmpty
      ∧ decode par .op 64 = .instr .init ∧ decode par .op 65 = .instr .startup
      ∧ decode par .op 66 = .instr .loopIteration ∧ decode par .op 67 = .instr .wdtReset
      ∧ decode par .op 68 = .instr .wdtExpire ∧ decode par .op 69 = .instr .reset
      ∧ decode par .op 70 = .rejected .noSuchOperation := by decide +kernel

theorem test_decode_op_operands :
    decode par .op 0x9E2F = .instr (.bufPush 0x9E) ∧ decode par .op 0x1E30 = .instr (.bufPushFull 0x1E)
      ∧ decode par .op 0x1937 = .instr (.txBit 9 true) ∧ decode par .op 0x0937 = .rejected .operandOutOfRange
      ∧ decode par .op 0x013B = .instr (.txFinish true)
      ∧ decode par .op 0x0201F03D = .instr (.kbdCommand 0xF0 0x01 .scanset) := by decide +kernel

/-- The bare words of the opcode table, under the standard parameters (log entry 5). -/
theorem test_decode_table_words :
    decodeTableWord 8 0x00 = some .rxIdleStart ∧ decodeTableWord 8 0x4B = some .xlE0Arrow4B
      ∧ decodeTableWord 8 0xED = some (.cmdSetLeds 0) ∧ decodeTableWord 8 0xFA = some .respAck
      ∧ decodeTableWord 8 0x35 = some .xlBlocklist35 ∧ decodeTableWord 0 0 = none := by decide +kernel

/-! ## Receiver: the trace of section 2.2 and its corner cases -/

theorem test_rxIdleStart_edge1 :
    gives (exec .rxIdleStart (rx .idle 0x5A 7 6)) (fun t =>
      t.rxState == .collectingDataBits && t.rxAcc == 0 && t.rxBitcnt == 0 && t.rxParity == 0) = true := by decide +kernel

theorem test_rxIdleBadstart_VRX1 :
    gives (exec .rxIdleBadstart base) (fun t => t.rxState == .errorStart && t.bufCount == 0) = true := by decide +kernel

theorem test_rxData_edge4 :
    gives (exec (.rxData true) (rx .collectingDataBits 0x02 2 1)) (fun t =>
      t.rxState == .collectingDataBits && t.rxAcc == 0x06 && t.rxBitcnt == 3 && t.rxParity == 2) = true := by
  decide +kernel

theorem test_rxData_edge9 :
    gives (exec (.rxData false) (rx .collectingDataBits 0x1E 7 4)) (fun t =>
      t.rxState == .expectingParity && t.rxAcc == 0x1E && t.rxBitcnt == 8 && t.rxParity == 4) = true := by decide +kernel

theorem test_rxParity_VRX5 :
    gives (exec (.rxParity true) (rx .expectingParity 0xFF 8 8)) (fun t =>
      t.rxState == .expectingStop && t.rxParity == 9) = true := by decide +kernel

theorem test_rxParity_VRX6 :
    gives (exec (.rxParity false) (rx .expectingParity 0xFF 8 8)) (fun t =>
      t.rxState == .errorParity && t.rxParity == 8) = true := by decide +kernel

/-- The stop level is tested before the buffer. -/
theorem test_rxStopBad_VRX8 :
    gives (exec .rxStopBad { full with rxState := .expectingStop }) (fun t =>
      t.rxState == .errorStop && t.bufCount == 32) = true := by decide +kernel

theorem test_rxStopOk_edge11 :
    gives (exec .rxStopOk (rx .expectingStop 0x1E 8 5)) (fun t =>
      t.rxState == .idle && t.buf.read 0 == some 0x1E && t.bufWr == 1 && t.bufCount == 1) = true := by decide +kernel

theorem test_rxStopOk_VRX9 :
    gives (exec .rxStopOk { full with rxState := .expectingStop, rxAcc := 0x1E }) (fun t =>
      t.rxState == .errorOverrun && t.bufCount == 32 && t.bufWr == 0 && t.buf.read 0 == some 0x00) = true := by
  decide +kernel

theorem test_rxError_R138 :
    gives (exec (.rxError .parity false) (rx .errorParity 0x1E 8 4)) (fun t =>
      t == rx .errorParity 0x1E 8 4) = true := by decide +kernel

theorem test_rxError_VRX15 :
    gives (exec (.rxError .parity false)
        { rx .errorParity 0x1E 8 4 with params := { par with rxErrorRecovery := .resyncOnStart } }) (fun t =>
      t.rxState == .collectingDataBits && t.rxAcc == 0 && t.rxBitcnt == 0) = true := by decide +kernel

theorem test_kbdFrame_VRX12 :
    gives (exec (.kbdFrame 0x1E) (holding [0x2A])) (fun t =>
      t.rxState == .idle && t.buf.read 0 == some 0x2A && t.buf.read 1 == some 0x1E && t.bufCount == 2 && t.bufWr == 2)
      = true := by decide +kernel

/-- A half frame swallows the next one: its first five levels are data bits, the sixth the parity bit. -/
theorem test_kbdFrame_VRX11 :
    gives (exec (.kbdFrame 0x1E) (rx .collectingDataBits 0x06 3 2)) (fun t =>
      t.rxState == .errorParity && t.rxAcc == 0xE6 && t.rxParity == 6 && t.bufCount == 0) = true := by decide +kernel

/-! ## ReceiveBuffer: section 2.3 -/

theorem test_bufPush_VBUF2 :
    gives (exec (.bufPush 0x9E) { full with bufWr := 31, bufRd := 28, bufCount := 3 }) (fun t =>
      t.buf.read 31 == some 0x9E && t.bufWr == 0 && t.bufCount == 4) = true := by decide +kernel

theorem test_bufPushFull_R162 :
    gives (exec (.bufPushFull 0x1E) full) (fun t =>
      t.rxState == .errorOverrun && t.buf == full.buf && t.bufWr == 0 && t.bufCount == 32) = true := by decide +kernel

theorem test_ps2RecvNonblocking_VBUF1 :
    gives (exec .ps2RecvNonblocking base) (fun t => t == { base with ret := .opt none }) = true := by decide +kernel

theorem test_ps2RecvNonblocking_VBUF3 :
    gives (exec .ps2RecvNonblocking { full with bufWr := 0, bufRd := 31, bufCount := 1 }) (fun t =>
      t.ret == .opt (some 31) && t.bufRd == 0 && t.bufCount == 0 && t.bufWr == 0) = true := by decide +kernel

theorem test_ps2RecvBlocking_VBUF9 :
    gives (exec .ps2RecvBlocking (standing [.op .ps2RecvBlocking])) (fun t =>
      t == standing [.op .ps2RecvBlocking]) = true := by decide +kernel

theorem test_ps2RecvBlocking_VBUF8 :
    gives (exec .ps2RecvBlocking { holding [0xFA] with cont := [.op .ps2RecvBlocking] }) (fun t =>
      t.ret == .byte 0xFA && t.bufCount == 0 && t.bufRd == 1 && t.cont == []) = true := by decide +kernel

/-! ## Transmitter: section 2.4 -/

/-- The bit list of 0xED: 1 0 1 1 0 1 1 1, parity 1, stop 1. -/
theorem test_ps2Send_bits :
    gives (exec (.ps2Send 0xED) base) (fun t =>
      t.cont == [.op .txPrepare, .op .txInhibit, .op .txRtsData, .op .txRtsRelease, .op (.txBit 0 true),
        .op (.txBit 1 false), .op (.txBit 2 true), .op (.txBit 3 true), .op (.txBit 4 false), .op (.txBit 5 true),
        .op (.txBit 6 true), .op (.txBit 7 true), .op (.txBit 8 true), .op (.txBit 9 true), .op .txReleaseData,
        .op .txAck]) = true := by decide +kernel

theorem test_txPrepare_VRX14 :
    gives (exec .txPrepare { standing [.op .txPrepare] with rxState := .errorParity, bufCount := 2 }) (fun t =>
      t.rxState == .idle && t.irqEnable == false && t.bufCount == 2) = true := by decide +kernel

theorem test_txInhibit_R182 :
    gives (exec .txInhibit { standing [.op .txInhibit] with irqEnable := false }) (fun t =>
      t.ps2ClkDrive == .low && t.clkLevel == false && t.rxState == .idle && t.cont == [.txInhibitHold]) = true := by
  decide +kernel

theorem test_txRtsData_R183 :
    gives (exec .txRtsData { standing [.op .txRtsData] with ps2ClkDrive := .low }) (fun t =>
      t.ps2DataDrive == .low && t.ps2ClkDrive == .low) = true := by decide +kernel

theorem test_txRtsRelease_R184 :
    gives (exec .txRtsRelease { standing [.op .txRtsRelease] with ps2ClkDrive := .low, ps2DataDrive := .low }) (fun t =>
      t.clkLevel && t.ps2DataDrive == .low) = true := by decide +kernel

/-- The keyboard never pulls the clock low: MAIN stays. -/
theorem test_txBit_VTX2 :
    gives (exec (.txBit 0 true) (standing [.op (.txBit 0 true)])) (fun t =>
      t == standing [.op (.txBit 0 true)]) = true := by decide +kernel

theorem test_txBit_places_zero :
    gives (exec (.txBit 1 false) { standing [.txBitPlace 1 false] with kbdClkDrive := .low }) (fun t =>
      t.ps2DataDrive == .low && t.cont == [.txBitAwaitHigh 1 false]) = true := by decide +kernel

theorem test_txReleaseData_R188 :
    gives (exec .txReleaseData { standing [.op .txReleaseData] with ps2DataDrive := .low }) (fun t =>
      t.ps2DataDrive == .released) = true := by decide +kernel

theorem test_txAck_sampled_low :
    gives (exec .txAck { standing [.txAckSample] with kbdClkDrive := .low, kbdDataDrive := .low }) (fun t =>
      t.cont == [.op .txAckEnd, .op (.txFinish true)]) = true := by decide +kernel

theorem test_txAck_VTX1 :
    gives (exec .txAck { standing [.txAckSample] with kbdClkDrive := .low }) (fun t =>
      t.cont == [.op .txAckEnd, .op (.txFinish false)]) = true := by decide +kernel

/-- Both lines must be high. -/
theorem test_txAckEnd_data_low :
    gives (exec .txAckEnd { standing [.op .txAckEnd] with kbdDataDrive := .low }) (fun t =>
      t.cont == [.op .txAckEnd]) = true := by decide +kernel

theorem test_txFinish_R191 :
    gives (exec (.txFinish true) { standing [.op (.txFinish true)] with irqEnable := false }) (fun t =>
      t.irqEnable && t.ret == .flag true && t.rxState == .idle) = true := by decide +kernel

theorem test_txFinish_VTX6 :
    gives (exec (.txFinish true)
        { standing [.op (.txFinish true)] with
          irqEnable := false, irqPending := true, params := { par with irqLatch := true } }) (fun t =>
      t.rxState == .errorStart && t.irqPending == false) = true := by decide +kernel

theorem test_txSettle_R192 :
    gives (exec .txSettle (standing [.op .txSettle])) (fun t => t == base) = true := by decide +kernel

/-! ## Command layer: section 2.5 -/

theorem test_kbdCommand_VCMD3 :
    gives (exec (.kbdCommand 0xF0 0x04 .scanset) base) (fun t => t == { base with ret := .byte 0xFE }) = true := by
  decide +kernel

theorem test_kbdCommand_VCMD4 :
    gives (exec (.kbdCommand 0xF0 0x03 .scanset) base) (fun t =>
      t.cont == [.op (.ps2Send 0xF0), .op .txSettle, .op .ps2RecvBlocking, .cmdAwait ⟨0xF0, 0x03, .scanset⟩ true])
      = true := by decide +kernel

theorem test_cmdSetLeds_R214 :
    gives (exec (.cmdSetLeds 0x07) base) (fun t => t.cont == [.op (.kbdCommand 0xED 0x07 .leds)]) = true := by
  decide +kernel

theorem test_cmdSetTypematic_R215 :
    gives (exec (.cmdSetTypematic 0x20) base) (fun t => t.cont == [.op (.kbdCommand 0xF3 0x20 .typematic)]) = true := by
  decide +kernel

theorem test_cmdSetScanset_R216 :
    gives (exec (.cmdSetScanset 1) base) (fun t => t.cont == [.op (.kbdCommand 0xF0 0x01 .scanset)]) = true := by
  decide +kernel

/-- The parameter byte follows an acknowledged command byte. -/
theorem test_respAck_VCMD5 :
    gives (exec .respAck (standing [.cmdResp ⟨0xED, 0x07, .leds⟩ true 0xFA])) (fun t =>
      t.cont == [.op (.ps2Send 0x07), .op .txSettle, .op .ps2RecvBlocking, .cmdAwait ⟨0xED, 0x07, .leds⟩ false])
      = true := by decide +kernel

theorem test_respAck_VCMD1 :
    gives (exec .respAck (standing [.cmdResp ⟨0xF0, 1, .scanset⟩ false 0xFA])) (fun t =>
      t == { base with ret := .byte 0xFA }) = true := by decide +kernel

theorem test_respResend_VCMD9 :
    gives (exec .respResend (standing [.cmdResp ⟨0xED, 2, .leds⟩ true 0xFE])) (fun t =>
      t == { base with ret := .byte 0xFE }) = true := by decide +kernel

/-- A stale scan code is taken as the response. -/
theorem test_kbdCommand_VCMD10 :
    gives (exec (.kbdCommand 0xED 2 .leds) (standing [.cmdResp ⟨0xED, 2, .leds⟩ true 0x1E])) (fun t =>
      t == { base with ret := .byte 0x1E }) = true := by decide +kernel

/-! ## Translator: section 2.6, one step of a call -/

/-- The call ends without output and only `ret` and the position are written. -/
def silent (o : Out) (s : State) : Bool :=
  gives o (fun t => t == { s with ret := .opt none, cont := [], xlState := .ground })

theorem test_translatePoll_R240 :
    gives (exec .translatePoll base) (fun t => t.cont == [.op .ps2RecvNonblocking, .xlAwait]) = true := by decide +kernel

theorem test_xlEmpty_VXL1 :
    silent (exec .xlEmpty (standing [.xlByte none, .loopOut])) base = true := by decide +kernel

theorem test_xlE1_R241 :
    gives (exec .xlE1 (xl .ground 0xE1)) (fun t =>
      t.xlState == .afterE1 && t.cont == [.op .ps2RecvBlocking, .xlAwait, .loopOut]) = true := by decide +kernel

theorem test_xlE0_VXL37 :
    gives (exec .xlE0 (xl .ground 0xE0)) (fun t =>
      t.xlState == .afterE0 && t.cont == [.op .ps2RecvBlocking, .xlAwait, .loopOut]) = true := by decide +kernel

theorem test_xlCtrlMake_VXL8 :
    silent (exec .xlCtrlMake (mods true false (xl .ground 0x1D))) (mods true true base) = true := by decide +kernel

theorem test_xlCtrlBreak_VXL10 :
    silent (exec .xlCtrlBreak (mods true true (xl .ground 0x9D))) (mods true false base) = true
      ∧ silent (exec .xlCtrlBreak (mods true false (xl .ground 0x9D))) (mods true false base) = true := by decide +kernel

theorem test_xlShiftMake_VXL11 :
    silent (exec .xlShiftMake2A (mods false true (xl .ground 0x2A))) (mods true true base) = true
      ∧ silent (exec .xlShiftMake36 (mods true false (xl .ground 0x36))) (mods true false base) = true := by
  decide +kernel

theorem test_xlShiftBreak_VXL12 :
    silent (exec .xlShiftBreakAA (mods true true (xl .ground 0xAA))) (mods false true base) = true
      ∧ silent (exec .xlShiftBreakB6 (mods false true (xl .ground 0xB6))) (mods false true base) = true := by
  decide +kernel

theorem test_xlBlocklist_VXL31 :
    silent (exec .xlBlocklist0E (xl .ground 0x0E)) base && silent (exec .xlBlocklist0F (xl .ground 0x0F)) base
      && silent (exec .xlBlocklist1A (xl .ground 0x1A)) base && silent (exec .xlBlocklist1B (xl .ground 0x1B)) base
      && silent (exec .xlBlocklist28 (xl .ground 0x28)) base && silent (exec .xlBlocklist29 (xl .ground 0x29)) base
      && silent (exec .xlBlocklist35 (xl .ground 0x35)) base = true := by decide +kernel

theorem test_xlHighrange_VXL33_VXL34 :
    silent (exec (.xlHighrange3A 0) (xl .ground 0x3A)) base && silent (exec (.xlHighrange3C 3) (xl .ground 0x3F)) base
      && silent (exec (.xlHighrange40 0x3F) (xl .ground 0x7F)) base
      && silent (exec (.xlHighrange80 0x7E) (xl .ground 0xFE)) base = true := by decide +kernel

theorem test_xlNonpositive_VXL35 : silent (exec .xlNonpositive (xl .ground 0x00)) base = true := by decide +kernel

theorem test_xlLookup_VXL2_VXL3 :
    gives (exec (.xlLookup 0x1E) (xl .ground 0x1E)) (fun t => t.cont == [.xlEntry 0x9E, .loopOut])
      && gives (exec (.xlLookup 0x1E) (mods true false (xl .ground 0x1E))) (fun t => t.cont == [.xlEntry 0xDE, .loopOut])
      = true := by decide +kernel

theorem test_xlLookup_VXL5_VXL6 :
    gives (exec (.xlLookup 0x1E) (mods true true (xl .ground 0x1E))) (fun t => t.cont == [.xlEntry 0x00, .loopOut])
      && gives (exec (.xlLookup 0x02) (mods false true (xl .ground 0x02))) (fun t =>
        t.cont == [.xlEntry 0x42, .loopOut]) = true := by decide +kernel

theorem test_xlE0Ctrl_VXL14_VXL15 :
    silent (exec .xlE0Ctrl1D (mods true false (xl .afterE0 0x1D))) (mods true true base)
      && silent (exec .xlE0Ctrl9D (mods true true (xl .afterE0 0x9D))) (mods true false base) = true := by decide +kernel

theorem test_xlE0Arrow4B_VXL18 :
    gives (exec .xlE0Arrow4B (mods true false (xl .afterE0 0x4B))) (fun t =>
      t.cont == [.xlEntry 0xF7, .loopOut] && t.xlState == .ground) = true := by decide +kernel

theorem test_xlE0Arrow4D_VXL19 :
    gives (exec .xlE0Arrow4D (mods false true (xl .afterE0 0x4D))) (fun t =>
      t.cont == [.xlEntry 0x78, .loopOut] && t.xlState == .ground) = true := by decide +kernel

/-- E0 AA leaves the shift bit alone. -/
theorem test_xlE0Other_VXL24 :
    silent (exec (.xlE0Other 0xAA) (mods true false (xl .afterE0 0xAA))) (mods true false base) = true := by
  decide +kernel

theorem test_xlE1Cont_R255 :
    gives (exec .xlE1Cont1D (xl .afterE1 0x1D)) (fun t => t.xlState == .afterE1Cont && !t.ctrlDown)
      && gives (exec .xlE1Cont9D (mods false true (xl .afterE1 0x9D))) (fun t =>
        t.xlState == .afterE1Cont && t.ctrlDown) = true := by decide +kernel

theorem test_xlE1Other_VXL29 : silent (exec (.xlE1Other 0x2A) (xl .afterE1 0x2A)) base = true := by decide +kernel

theorem test_xlE1Third_VXL28 : silent (exec (.xlE1Third 0xE0) (xl .afterE1Cont 0xE0)) base = true := by decide +kernel

theorem test_xlOutputValid_VXL2 :
    gives (exec (.xlOutputValid 0x1E) (standing [.xlEntry 0x9E, .loopOut])) (fun t =>
      t.ret == .opt (some 0x9E) && t.cont == [.a2Byte 0x9E]) = true := by decide +kernel

theorem test_xlOutputSentinel_VXL6 :
    silent (exec (.xlOutputSentinel 0x42) (standing [.xlEntry 0x42, .loopOut])) base = true := by decide +kernel

/-! ## Writer: section 2.7 -/

theorem test_a2Write_data_VWR1 :
    gives (exec (.a2Write 0x41) (standing [.a2Byte 0xC1])) (fun t =>
      t.a2Data == 0xC1 && t.a2StrobeN && t.a2Seen == []) = true := by decide +kernel

theorem test_a2Write_fall_VWR1 :
    gives (exec (.a2Write 0x41) { standing [.a2Fall 0x41] with a2Data := 0xC1 }) (fun t =>
      t.a2StrobeN == false && t.a2Seen == [0x41]) = true := by decide +kernel

/-- A byte with bit 7 clear is refused. -/
theorem test_step_VWR6 :
    refuses (step (standing [.a2Byte 0x41])) (.undecodable .bit7Clear) = true := by decide +kernel

/-! ## Program, watchdog, reset: section 2.8 -/

theorem test_init_R300 :
    gives (exec .init { rx .errorParity 1 2 3 with mainPhase := .init, irqEnable := false, bufCount := 3 }) (fun t =>
      t.rxState == .idle && t.irqEnable && t.bufCount == 0 && t.wdt == 0 && t.mainPhase == .startup 0) = true := by
  decide +kernel

/-- Program P5: the first command is LEDs 07, the third typematic 20, and after the fourth comes the loop. -/
theorem test_startup_P5 :
    gives (exec .startup { base with mainPhase := .startup 0 }) (fun t =>
        t.cont == [.op (.cmdSetLeds 0x07), .startupNext])
      && gives (exec .startup { base with mainPhase := .startup 2 }) (fun t =>
        t.cont == [.op (.cmdSetTypematic 0x20), .startupNext])
      && gives (exec .startup { base with mainPhase := .startup 4 }) (fun t => t == base) = true := by decide +kernel

theorem test_loopIteration_R305 :
    gives (exec .loopIteration base) (fun t =>
      t.cont == [.op .wdtReset, .op .translatePoll, .loopOut]) = true := by decide +kernel

theorem test_wdtReset_R306 :
    gives (exec .wdtReset (standing [.op .wdtReset])) (fun t => t == { base with wdt := 0 }) = true := by decide +kernel

/-- The watchdog resets the block out of a spin only. -/
theorem test_wdtExpire_VLP6 :
    gives (exec .wdtExpire { mods false true (standing [.op .ps2RecvBlocking]) with rxState := .errorStop }) (fun t =>
        t.ctrlDown == false && t.rxState == .idle && t.mainPhase == .init && t.irqEnable == false && t.cont == [])
      && refuses (exec .wdtExpire base) .watchdogNotEnabled = true := by decide +kernel

theorem test_reset_R370 :
    gives (exec .reset full) (fun t => t.bufCount == 0 && t.buf.read 0 == none && t.mainPhase == .init) = true := by
  decide +kernel

/-- A falling edge of the keyboard's clock runs the receiver; with interrupts disabled it runs nothing (V-RX13). -/
theorem test_step_edge :
    gives (step { base with inputs := [.lines .low .released] }) (fun t => t.rxState == .errorStart)
      && gives (step { base with inputs := [.lines .low .released], irqEnable := false }) (fun t =>
        t.rxState == .idle) = true := by decide +kernel

/-! ## Witnesses: for each statement with hypotheses, states and operands that meet them, clause by clause -/

theorem par_bufCap : par.bufCap = 32 := rfl

/-- The buffer's invariants on a concrete state are decided field by field. -/
theorem bufOk_base : BufOk base :=
  ⟨by decide +kernel, by decide +kernel, by decide +kernel, by decide +kernel, by decide +kernel, by decide +kernel,
    by decide +kernel⟩

theorem bufOk_full : BufOk full :=
  ⟨by decide +kernel, by decide +kernel, by decide +kernel, by decide +kernel, by decide +kernel, by decide +kernel,
    by decide +kernel⟩

theorem bufOk_one : BufOk (holding [0x1E]) :=
  ⟨by decide +kernel, by decide +kernel, by decide +kernel, by decide +kernel, by decide +kernel, by decide +kernel,
    by decide +kernel⟩

theorem bufOk_two (b : Byte) : BufOk (holding [0xE0, b]) where
  canonical := by simp [Memory.wf, holding, List.range_succ]
  inRange := by simp [holding, base, par_bufCap, List.range_succ]
  wr := by simp [holding, base, par_bufCap]
  rd := by simp [holding, base, par_bufCap]
  count := by simp [holding, base, par_bufCap]
  cursors := by simp [holding, base, par_bufCap]
  written := by simp [State.queue, Memory.read, findCell, holding, base, par_bufCap, List.range_succ]

theorem bufOk_pause (c : Byte) : BufOk (holding [0xE1, c, 0x45]) where
  canonical := by simp [Memory.wf, holding, List.range_succ]
  inRange := by simp [holding, base, par_bufCap, List.range_succ]
  wr := by simp [holding, base, par_bufCap]
  rd := by simp [holding, base, par_bufCap]
  count := by simp [holding, base, par_bufCap]
  cursors := by simp [holding, base, par_bufCap]
  written := by simp [State.queue, Memory.read, findCell, holding, base, par_bufCap, List.range_succ]

/-- The invariant between two iterations of the loop, with the receiver in any of its resting states. -/
theorem inv_loop : Inv base where
  params := by decide +kernel
  atomic := by decide +kernel
  buffer := bufOk_base
  receiver := ⟨by decide, by decide, trivial⟩
  control := ⟨by decide, by decide, by decide, by decide, by decide, by decide, by decide, trivial, by decide⟩

/-- The loop after a parity error (V-LP4). -/
def silenced : State := rx .errorParity 0x1F 8 6

theorem inv_silenced : Inv silenced where
  params := by decide +kernel
  atomic := by decide +kernel
  buffer :=
    ⟨by decide +kernel, by decide +kernel, by decide +kernel, by decide +kernel, by decide +kernel, by decide +kernel,
      by decide +kernel⟩
  receiver := ⟨by decide, by decide, trivial⟩
  control := ⟨by decide, by decide, by decide, by decide, by decide, by decide, by decide, trivial, by decide⟩

theorem witness_DecodeOfEncodeIsTheInstruction :
    par.wf = true ∧ WellFormed par (.xlLookup 57) = true ∧ WellFormed par (.txBit 9 true) = true
      ∧ WellFormed par (.xlHighrange80 0x7F) = true ∧ WellFormed par .xlBlocklist35 = true := by decide +kernel

/-- Parameters with an eighth member of BLOCKLIST, which has no row of its own (log entry 6). -/
def eightBlocked : Params := { par with blocklist := par.blocklist ++ [0x0D] }

theorem witness_DecodedInstructionIsWellFormed :
    par.wf = true ∧ decode par .sc 0xFF = .instr (.xlHighrange80 0x7F) ∧ decode par .op 0x1937 = .instr (.txBit 9 true)
      ∧ decode par .sc 0x35 = .instr .xlBlocklist35 ∧ eightBlocked.wf = true
      ∧ decode eightBlocked .sc 0x0D = .instr .xlBlocklist35 ∧ eightBlocked.blocklist[7]? = some 0x0D := by decide +kernel

theorem witness_GroundBytesFallInTheirClasses :
    par.wf = true
      ∧ (∀ b ∈ ([0x3A, 0xFF, 0x35, 0x00, 0x01, 0x39] : List Byte),
          b ∉ ([0xE1, 0xE0, 0x1D, 0x9D, 0x2A, 0x36, 0xAA, 0xB6] : List Byte))
      ∧ 58 ≤ (0x3A : Byte).toNat ∧ 58 ≤ (0xFF : Byte).toNat ∧ (0x35 : Byte) ∈ par.blocklist
      ∧ (∀ b ∈ ([0x01, 0x39] : List Byte), 0 < b.toNat ∧ b.toNat < 58 ∧ b ∉ par.blocklist) := by decide +kernel

theorem witness_ResetAndWatchdogRestoreTheBlock :
    inSpin (standing [.op .txAckEnd]) = true
      ∧ ({ base with params := { par with wdtMode := .wide }, wdt := 1 } : State).params.wdtMode = .wide
      ∧ inSpin base = false ∧ base.params.wdtMode = .spinOnly
      ∧ inSpin { base with params := { par with wdtMode := .wide }, wdt := 0 } = false := by decide +kernel

theorem witness_NoStepChangesAParameter : ∃ t, step base = .next t :=
  exists_next (f := fun _ => true) (by decide +kernel)

theorem witness_StartBitClearsTheWorkingRegisters : (rx .idle 0xFF 8 9).rxState = .idle := rfl

theorem witness_BadStartAndStopBitsOnlySetTheErrorState :
    base.rxState = .idle ∧ ({ full with rxState := .expectingStop } : State).rxState = .expectingStop := ⟨rfl, rfl⟩

theorem witness_DataBitEntersTheAccumulator :
    (rx .collectingDataBits 0 0 0).rxState = .collectingDataBits
      ∧ (rx .collectingDataBits 0x7F 7 7).rxState = .collectingDataBits := ⟨rfl, rfl⟩

theorem witness_ParityBitDecidesTheFrame :
    (rx .expectingParity 0 8 0).rxState = .expectingParity ∧ (rx .expectingParity 0xFF 8 8).rxState = .expectingParity :=
  ⟨rfl, rfl⟩

theorem witness_StopBitCommitsOrOverruns :
    (∃ s : State, s.rxState = .expectingStop ∧ s.bufWr = 31 ∧ s.bufWr < s.params.bufCap ∧ s.bufCount = 31)
      ∧ ∃ s : State, s.rxState = .expectingStop ∧ s.bufWr < s.params.bufCap ∧ s.bufCount = s.params.bufCap :=
  ⟨⟨{ full with rxState := .expectingStop, bufWr := 31, bufCount := 31 }, by decide +kernel⟩,
    ⟨{ full with rxState := .expectingStop }, by decide +kernel⟩⟩

theorem witness_ErrorStatesIgnoreEdges :
    silenced.rxState = RxState.ofErr .parity ∧ silenced.params.rxErrorRecovery = .externalResetOnly
      ∧ ({ full with rxState := .errorOverrun, params := { par with rxErrorRecovery := .resyncOnStart } } : State).rxState
        = RxState.ofErr .overrun := by decide +kernel

theorem witness_ValidFrameYieldsItsByte :
    Listening base ∧ base.rxState = .idle ∧ base.bufCount < base.params.bufCap ∧ base.bufWr < base.params.bufCap :=
  ⟨⟨rfl, rfl, rfl⟩, by decide +kernel⟩

theorem witness_FirstFailingCheckDecidesTheFrame :
    Listening full ∧ full.rxState = .idle ∧ full.params.rxErrorRecovery = .externalResetOnly
      ∧ full.bufWr < full.params.bufCap ∧ Listening base ∧ base.bufWr < base.params.bufCap :=
  ⟨⟨rfl, rfl, rfl⟩, rfl, rfl, by decide +kernel, ⟨rfl, rfl, rfl⟩, by decide +kernel⟩

theorem witness_FrameWithoutAListenerIsLost :
    (∃ s : State, s.irqEnable = false ∧ s.params.irqLatch = false)
      ∧ (silenced.rxState.isError = true ∧ silenced.irqEnable = true
        ∧ silenced.params.rxErrorRecovery = .externalResetOnly) :=
  ⟨⟨{ base with irqEnable := false }, rfl, rfl⟩, by decide +kernel⟩

theorem witness_PushWritesOneCellAndAdvances :
    (∃ s : State, s.bufCount < s.params.bufCap ∧ s.bufWr = 31 ∧ s.bufWr < s.params.bufCap)
      ∧ full.params.bufCap ≤ full.bufCount :=
  ⟨⟨{ base with bufWr := 31 }, by decide +kernel⟩, by decide +kernel⟩

theorem witness_PushOnAFullBufferLosesTheByte :
    full.params.bufCap ≤ full.bufCount ∧ base.bufCount < base.params.bufCap := by decide +kernel

theorem witness_TheBufferIsAFifoQueue :
    BufOk (holding [0x1E]) ∧ (holding [0x1E]).bufCount < (holding [0x1E]).params.bufCap
      ∧ (holding [0x1E]).params.bufPopAtomic = true ∧ (holding [0x1E]).queue = [some 0x1E]
      ∧ MayCall .ps2RecvNonblocking (holding [0x1E]) [] ∧ MayCall .ps2RecvBlocking (holding [0x1E]) [] :=
  ⟨bufOk_one, by decide +kernel, by decide +kernel, by decide +kernel, .inr ⟨rfl, rfl⟩, .inr ⟨rfl, rfl⟩⟩

theorem witness_ReceivePopsOneByteOrFindsNone :
    (MayCall .ps2RecvNonblocking base [] ∧ base.bufCount = 0)
      ∧ (MayCall .ps2RecvBlocking (standing [.op .ps2RecvBlocking, .xlAwait]) [.xlAwait] ∧ base.bufCount = 0)
      ∧ ∃ s : State, MayCall .ps2RecvNonblocking s [] ∧ MayCall .ps2RecvBlocking s [] ∧ 0 < s.bufCount
        ∧ s.params.bufPopAtomic = true ∧ s.bufRd = 31 ∧ s.bufRd < s.params.bufCap ∧ s.buf.read s.bufRd = some 31
        ∧ (standing [.xlAwait, .loopOut]).cont = .xlAwait :: [.loopOut]
        ∧ (standing [.cmdAwait ⟨0xED, 7, .leds⟩ false]).cont = .cmdAwait ⟨0xED, 7, .leds⟩ false :: [] ∧ base.cont = [] :=
  ⟨⟨.inr ⟨rfl, rfl⟩, rfl⟩, ⟨.inl rfl, rfl⟩,
    ⟨{ full with bufRd := 31, bufCount := 1 }, .inr ⟨rfl, rfl⟩, .inr ⟨rfl, rfl⟩, by decide +kernel⟩⟩

theorem witness_SplitPopStoresTheLoadedCount : ∀ b : Bool,
    (∃ s : State, s.cont = .op (popOperation b) :: [.xlAwait] ∧ s.params.bufPopAtomic = false ∧ s.bufCount = 1
      ∧ s.bufRd = 31 ∧ s.bufRd < s.params.bufCap ∧ s.buf.read s.bufRd = some 31)
      ∧ (standing [.popCount b 0x1E]).cont = .popCount b 0x1E :: []
      ∧ (standing [.popStore b 0x1E 1]).cont = .popStore b 0x1E 1 :: []
      ∧ (standing [.popCursor b 0x1E]).cont = .popCursor b 0x1E :: [] := fun b =>
  ⟨⟨{ full with
        params := { par with bufPopAtomic := false }, bufRd := 31, bufCount := 1
        cont := [.op (popOperation b), .xlAwait] }, rfl, rfl, rfl, rfl, by decide +kernel +revert, by decide +kernel +revert⟩,
    rfl, rfl, rfl⟩

theorem witness_SendPlacesTheTenBits :
    MayCall (.ps2Send 0xED) base [] ∧ MayCall (.ps2Send 0xED) (standing [.op (.ps2Send 0xED), .op .txSettle]) [.op .txSettle] :=
  ⟨.inr ⟨rfl, rfl⟩, .inl rfl⟩

theorem witness_PrepareForcesTheReceiverIdle : (standing [.op .txPrepare]).cont = .op .txPrepare :: [] := rfl

theorem witness_RequestToSendDrivesTheLines :
    (standing [.op .txRtsData]).cont = .op .txRtsData :: [] ∧ (standing [.op .txRtsRelease]).cont = .op .txRtsRelease :: []
      ∧ (standing [.op .txReleaseData]).cont = .op .txReleaseData :: [] := ⟨rfl, rfl, rfl⟩

theorem witness_InhibitAndSettleComplete :
    (∃ s : State, s.cont = .op .txInhibit :: [] ∧ s.irqEnable = false ∧ s.params.irqLatch = true)
      ∧ (standing [.txInhibitHold]).cont = .txInhibitHold :: [] ∧ (standing [.op .txSettle]).cont = .op .txSettle :: [] :=
  ⟨⟨{ standing [.op .txInhibit] with irqEnable := false, params := { par with irqLatch := true } }, rfl, rfl, rfl⟩,
    rfl, rfl⟩

theorem witness_BitIsPlacedWhileTheClockIsLow :
    (standing [.op (.txBit 0 false)]).cont = .op (.txBit 0 false) :: []
      ∧ (standing [.txBitPlace 9 true]).cont = .txBitPlace 9 true :: []
      ∧ (standing [.txBitAwaitHigh 9 true]).cont = .txBitAwaitHigh 9 true :: [] := ⟨rfl, rfl, rfl⟩

theorem witness_AcknowledgeIsSampledAndReturned :
    (standing [.op .txAck]).cont = .op .txAck :: [] ∧ (standing [.txAckSample]).cont = .txAckSample :: []
      ∧ (standing [.op .txAckEnd]).cont = .op .txAckEnd :: []
      ∧ (standing [.op (.txFinish true)]).cont = .op (.txFinish true) :: []
      ∧ (par.irqLatch && (standing [.op (.txFinish true)]).irqPending) = false := ⟨rfl, rfl, rfl, rfl, rfl⟩

theorem witness_LatchedEdgeIsDeliveredAtFinish :
    ∃ s : State, s.cont = .op (.txFinish true) :: [] ∧ s.params.irqLatch = true ∧ s.irqPending = true
      ∧ s.rxState = .idle ∧ s.dataLevel = true ∧ State.dataLevel { s with kbdDataDrive := .low } = false :=
  ⟨{ standing [.op (.txFinish true)] with irqEnable := false, irqPending := true, params := { par with irqLatch := true } },
    by decide +kernel⟩

theorem witness_AWaitHangsUntilTheWatchdog :
    ∀ k ∈ [Point.op .ps2RecvBlocking, .op (.txBit 0 true), .op .txAck],
      (standing [k]).inputs = [] ∧ awaited (standing [k]) = some false := by decide +kernel

theorem witness_CommandChecksSendsAndReturns :
    MayCall (.kbdCommand 0xF0 4 .scanset) base [] ∧ (4 : Byte) ∉ legalValues par .scanset
      ∧ MayCall (.kbdCommand 0xF0 3 .scanset) base [] ∧ (3 : Byte) ∈ legalValues par .scanset
      ∧ (standing [.cmdResp ⟨0xF0, 3, .scanset⟩ true 0x1E]).cont = .cmdResp ⟨0xF0, 3, .scanset⟩ true 0x1E :: []
      ∧ (0x1E : Byte) ≠ par.respAck ∧ (0x1E : Byte) ≠ par.respResend :=
  ⟨.inr ⟨rfl, rfl⟩, by decide +kernel, .inr ⟨rfl, rfl⟩, by decide +kernel, rfl, by decide, by decide⟩

theorem witness_ConfigurationCommandsCallTheExchange :
    MayCall (.cmdSetLeds 7) base [] ∧ MayCall (.cmdSetTypematic 0x7F) base [] ∧ MayCall (.cmdSetScanset 3) base [] :=
  ⟨.inr ⟨rfl, rfl⟩, .inr ⟨rfl, rfl⟩, .inr ⟨rfl, rfl⟩⟩

theorem witness_ResponseCodesSteerTheCommand :
    par.respAck ≠ par.respResend
      ∧ (standing [.cmdResp ⟨0xED, 7, .leds⟩ true 0xFA]).cont = .cmdResp ⟨0xED, 7, .leds⟩ true par.respAck :: []
      ∧ (standing [.cmdResp ⟨0xED, 7, .leds⟩ false 0xFA]).cont = .cmdResp ⟨0xED, 7, .leds⟩ false par.respAck :: []
      ∧ (standing [.cmdResp ⟨0xED, 7, .leds⟩ true 0xFE]).cont = .cmdResp ⟨0xED, 7, .leds⟩ true par.respResend :: []
      ∧ ∃ s : State, s.cont = .op .ps2RecvBlocking :: .cmdAwait ⟨0xED, 7, .leds⟩ true :: [] ∧ 0 < s.bufCount
        ∧ s.params.bufPopAtomic = true ∧ s.bufRd = 31 ∧ s.bufRd < s.params.bufCap ∧ s.buf.read s.bufRd = some 31 :=
  ⟨by decide, rfl, rfl, rfl,
    ⟨{ full with bufRd := 31, bufCount := 1, cont := [.op .ps2RecvBlocking, .cmdAwait ⟨0xED, 7, .leds⟩ true] }, rfl,
      by decide +kernel⟩⟩

theorem witness_TranslatorFetchesItsBytes :
    MayCall .translatePoll base [] ∧ (standing [.xlByte none]).cont = .xlByte none :: []
      ∧ ((xl .ground 0xE1).cont = [.xlByte (some 0xE1), .loopOut] ∧ (xl .ground 0xE1).xlState = .ground)
      ∧ ((xl .ground 0xE0).cont = [.xlByte (some 0xE0), .loopOut] ∧ (xl .ground 0xE0).xlState = .ground)
      ∧ ((xl .afterE1 0x1D).cont = [.xlByte (some 0x1D), .loopOut] ∧ (xl .afterE1 0x1D).xlState = .afterE1)
      ∧ ((xl .afterE1 0x9D).cont = [.xlByte (some 0x9D), .loopOut] ∧ (xl .afterE1 0x9D).xlState = .afterE1) :=
  ⟨.inr ⟨rfl, rfl⟩, rfl, ⟨rfl, rfl⟩, ⟨rfl, rfl⟩, ⟨rfl, rfl⟩, ⟨rfl, rfl⟩⟩

theorem witness_ModifierCodesSetAndClearTheirBit :
    (∀ b ∈ ([0x1D, 0x9D, 0x2A, 0x36, 0xAA, 0xB6] : List Byte),
        (xl .ground b).xlState = .ground ∧ (xl .ground b).cont = .xlByte (some b) :: [.loopOut])
      ∧ ∀ b ∈ ([0x1D, 0x9D] : List Byte),
        (xl .afterE0 b).xlState = .afterE0 ∧ (xl .afterE0 b).cont = .xlByte (some b) :: [.loopOut] :=
  ⟨fun _ _ => ⟨rfl, rfl⟩, fun _ _ => ⟨rfl, rfl⟩⟩

theorem witness_DiscardedCodesHaveNoEffect :
    mainDue (xl .ground 0x35) = .instr .xlBlocklist35 ∧ mainDue (xl .ground 0x3A) = .instr (.xlHighrange3A 0)
      ∧ mainDue (xl .ground 0x3C) = .instr (.xlHighrange3C 0) ∧ mainDue (xl .ground 0x7F) = .instr (.xlHighrange40 0x3F)
      ∧ mainDue (xl .ground 0xFF) = .instr (.xlHighrange80 0x7F) ∧ mainDue (xl .ground 0) = .instr .xlNonpositive
      ∧ mainDue (xl .afterE0 0xCB) = .instr (.xlE0Other 0xCB) ∧ mainDue (xl .afterE1 0xE1) = .instr (.xlE1Other 0xE1)
      ∧ mainDue (xl .afterE1Cont 0x45) = .instr (.xlE1Third 0x45)
      ∧ mainDue (standing [.xlEntry 0x7F, .loopOut]) = .instr (.xlOutputSentinel 0x7F) := by decide +kernel

theorem witness_LookupReadsTheRowOfTheModifiers :
    par.wf = true
      ∧ (WellFormed par (.xlLookup 1) = true ∧ (xl .ground 1).cont = .xlByte (some 1) :: [.loopOut])
      ∧ (WellFormed par (.xlLookup 57) = true ∧ (xl .ground 57).cont = .xlByte (some 57) :: [.loopOut])
      ∧ (xl .ground 57).xlState = .ground := by decide +kernel

theorem witness_ArrowsAreLookedUpAtTheirSlots :
    par.wf = true ∧ (xl .afterE0 0x4B).xlState = .afterE0
      ∧ (xl .afterE0 0x4B).cont = .xlByte (some 0x4B) :: [.loopOut]
      ∧ (xl .afterE0 0x4D).cont = .xlByte (some 0x4D) :: [.loopOut] := by decide +kernel

theorem witness_EntriesWithBit7AreReturned :
    ((standing [.xlEntry 0x80]).cont = .xlEntry 0x80 :: [] ∧ (0x80 : Byte).getLsbD 7 = true)
      ∧ ((standing [.xlEntry 0x7F]).cont = .xlEntry 0x7F :: [] ∧ (0x7F : Byte).getLsbD 7 = false) := by decide +kernel

theorem witness_OnlyEightInputsChangeTheModifiers :
    (∃ t, exec (.xlE0Other 0xAA) (xl .afterE0 0xAA) = .next t)
      ∧ (Instr.xlE0Other 0xAA) ∉ [Instr.xlCtrlMake, .xlCtrlBreak, .xlShiftMake2A, .xlShiftMake36, .xlShiftBreakAA,
        .xlShiftBreakB6, .xlE0Ctrl1D, .xlE0Ctrl9D, .init, .reset, .wdtExpire] :=
  ⟨exists_next (f := fun _ => true) (by decide +kernel), by decide⟩

theorem witness_PauseSequenceIsConsumedWhole :
    ∀ c ∈ ([0x1D, 0x9D] : List Byte),
      let s := { holding [0xE1, c, 0x45] with cont := [.op .translatePoll, .loopOut] }
      BufOk (holding [0xE1, c, 0x45]) ∧ s.params.bufPopAtomic = true ∧ s.inputs = []
        ∧ s.cont = [.op .translatePoll, .loopOut] ∧ s.queue = [some 0xE1, some c, some 0x45] := by
  intro c _
  exact ⟨bufOk_pause c, rfl, rfl, rfl, by
    simp [State.queue, Memory.read, findCell, holding, base, par_bufCap, List.range_succ]⟩

theorem witness_WriterDrivesDataThenStrobe :
    MayCall (.a2Write 0x41) base [] ∧ (standing [.a2Byte 0xC1]).cont = .a2Byte (1#1 ++ (0x41 : BitVec 7) : BitVec 8) :: []
      ∧ (standing [.a2Setup 0x41]).cont = .a2Setup 0x41 :: [] ∧ (standing [.a2Fall 0x41]).cont = .a2Fall 0x41 :: []
      ∧ (standing [.a2Hold 0x41]).cont = .a2Hold 0x41 :: [] ∧ (standing [.a2Rise 0x41]).cont = .a2Rise 0x41 :: [] :=
  ⟨.inr ⟨rfl, rfl⟩, by decide +kernel, rfl, rfl, rfl, rfl⟩

theorem witness_OnlyTheStrobesFallIsObserved : ∃ t, exec (.a2Write 0x41) (standing [.a2Fall 0x41]) = .next t :=
  exists_next (f := fun _ => true) (by decide +kernel)

theorem witness_InitPreparesTheFirstCommand :
    (∃ s : State, s.cont = [] ∧ s.mainPhase = .init) ∧ base.cont = [] ∧ base.mainPhase ≠ .init :=
  ⟨⟨State.reset, rfl, rfl⟩, rfl, by decide⟩

theorem witness_StartupIssuesItsCommandsInOrder :
    ∀ n, ({ base with mainPhase := .startup n } : State).mainPhase = .startup n
      ∧ ({ base with mainPhase := .startup n } : State).cont = []
      ∧ par.ledTestSeq[1]? = some (0x00, 0) ∧ par.ledTestSeq.length = 2
      ∧ ({ standing [.startupNext] with mainPhase := .startup n } : State).cont = .startupNext :: [] :=
  fun _ => ⟨rfl, rfl, rfl, rfl, rfl⟩

theorem witness_IterationServicesThenPolls :
    base.mainPhase = .loop ∧ MayCall .loopIteration base [] ∧ MayCall .wdtReset (standing [.op .wdtReset, .loopOut]) [.loopOut]
      ∧ (standing [.loopOut]).cont = .loopOut :: [] := ⟨rfl, .inr ⟨rfl, rfl⟩, .inl rfl, rfl⟩

theorem witness_EmptyIterationOnlyServicesTheWatchdog : AtLoopTop base ∧ base.bufCount = 0 := ⟨⟨rfl, rfl, rfl⟩, rfl⟩

/-- Both cases: row Normal, whose entry has bit 7 set, and row ShiftCtrl, whose entry is 0. -/
theorem witness_KeyReachesTheAppleAsItsEntry :
    let s := holding [0x1E]
    BufOk s ∧ s.params.wf = true ∧ s.params.bufPopAtomic = true ∧ AtLoopTop s ∧ s.a2StrobeN = true
      ∧ s.queue = [some 0x1E] ∧ WellFormed s.params (.xlLookup 0x1E) = true
      ∧ (s.params.table.row s.row)[(0x1E : Byte).toNat]? = some 0x9E ∧ (0x9E : Byte).getLsbD 7 = true
      ∧ (s.params.table.row (mods true true s).row)[(0x1E : Byte).toNat]? = some 0x00 ∧ (0x00 : Byte).getLsbD 7 = false :=
  ⟨bufOk_one, by decide +kernel, rfl, ⟨rfl, rfl, rfl⟩, rfl, by decide +kernel⟩

theorem bufOk_mods {s : State} (h : BufOk s) (sh ct : Bool) : BufOk (mods sh ct s) :=
  ⟨h.canonical, h.inRange, h.wr, h.rd, h.count, h.cursors, h.written⟩

/-- Both arrows in row Normal, whose entries have bit 7 set, and both in row ShiftCtrl, whose entries are 0. -/
theorem witness_ArrowReachesTheAppleFromItsSlot :
    let s := holding [0xE0, 0x4B]
    let t := holding [0xE0, 0x4D]
    let s0 := mods true true s
    let t0 := mods true true t
    (BufOk s ∧ AtLoopTop s ∧ s.queue = [some 0xE0, some 0x4B] ∧ (s.params.table.row s.row)[55]? = some 0xB7)
      ∧ (BufOk t ∧ AtLoopTop t ∧ t.queue = [some 0xE0, some 0x4D] ∧ (t.params.table.row t.row)[56]? = some 0xB8)
      ∧ (BufOk s0 ∧ AtLoopTop s0 ∧ s0.queue = [some 0xE0, some 0x4B] ∧ (s0.params.table.row s0.row)[55]? = some 0x00)
      ∧ (BufOk t0 ∧ AtLoopTop t0 ∧ t0.queue = [some 0xE0, some 0x4D] ∧ (t0.params.table.row t0.row)[56]? = some 0x00)
      ∧ par.wf = true ∧ par.bufPopAtomic = true ∧ s.a2StrobeN = true ∧ t.a2StrobeN = true
      ∧ (0xB7 : Byte).getLsbD 7 = true ∧ (0xB8 : Byte).getLsbD 7 = true ∧ (0x00 : Byte).getLsbD 7 = false :=
  ⟨⟨bufOk_two _, ⟨rfl, rfl, rfl⟩, by decide +kernel, by decide +kernel⟩,
    ⟨bufOk_two _, ⟨rfl, rfl, rfl⟩, by decide +kernel, by decide +kernel⟩,
    ⟨bufOk_mods (bufOk_two _) _ _, ⟨rfl, rfl, rfl⟩, by decide +kernel, by decide +kernel⟩,
    ⟨bufOk_mods (bufOk_two _) _ _, ⟨rfl, rfl, rfl⟩, by decide +kernel, by decide +kernel⟩, by decide +kernel⟩

/-- Each of the three clauses has a form that answers; the pushes are at the last cell. -/
theorem witness_EdgeEventsWriteOnlyInterruptState :
    (∃ t, exec .rxIdleStart base = .next t) ∧ (∃ t, exec (.rxData true) (rx .collectingDataBits 0 7 0) = .next t)
      ∧ (∃ t, exec (.rxError .parity false) silenced = .next t) ∧ (∃ t, exec (.bufPushFull 0x1E) full = .next t)
      ∧ (∃ t, exec .rxStopOk { rx .expectingStop 0x1E 8 5 with bufWr := 31 } = .next t)
      ∧ (∃ t, exec (.bufPush 0x1E) { base with bufWr := 31 } = .next t)
      ∧ (∃ t, exec (.kbdFrame 0x1E) { base with bufWr := 31 } = .next t)
      ∧ ∃ t, exec (.kbdFrame 0x1E) { base with irqEnable := false, params := { par with irqLatch := true } } = .next t := by
  refine ⟨?_, ?_, ?_, ?_, ?_, ?_, ?_, ?_⟩ <;> exact exists_next (f := fun _ => true) (by decide +kernel)

theorem witness_MainLeavesTheReceiverAlone :
    (∃ t, exec .txPrepare { standing [.op .txPrepare] with rxState := .errorStop } = .next t)
      ∧ ∃ t, exec .translatePoll base = .next t :=
  ⟨exists_next (f := fun _ => true) (by decide +kernel), exists_next (f := fun _ => true) (by decide +kernel)⟩

theorem witness_ErrorStatesHaveTwoExits :
    (∃ t, exec (.kbdFrame 0x1E) silenced = .next t) ∧ silenced.rxState.isError = true
      ∧ silenced.params.rxErrorRecovery = .externalResetOnly :=
  ⟨exists_next (f := fun _ => true) (by decide +kernel), rfl, rfl⟩

theorem witness_ControlElementsHaveTheirWriters :
    (∃ t, exec (.txBit 0 false) (standing [.txBitPlace 0 false]) = .next t)
      ∧ (Instr.txBit 0 false) ∉ [Instr.init, .reset, .wdtExpire] :=
  ⟨exists_next (f := fun _ => true) (by decide +kernel), by decide⟩

theorem witness_AnErrorInTheLoopIsNeverCleared :
    Inv silenced ∧ silenced.mainPhase = .loop ∧ silenced.rxState.isError = true
      ∧ silenced.params.rxErrorRecovery = .externalResetOnly ∧ (∃ t, step silenced = .next t)
      ∧ ∀ r, silenced.inputs ≠ .wdt :: r ∧ silenced.inputs ≠ .powerOn :: r :=
  ⟨inv_silenced, rfl, rfl, rfl, exists_next (f := fun _ => true) (by decide +kernel), fun _ => by
    constructor <;> intro h <;> cases h⟩

theorem witness_AStepRunsTheDueInstruction :
    (base.inputs = [] ∧ mainDue base = .instr .loopIteration)
      ∧ (({ base with inputs := [.main] } : State).inputs = [.main])
      ∧ mainDue (standing [.a2Byte 0x41]) = .rejected .bit7Clear
      ∧ (base.clkLevel = true ∧ base.irqEnable = true ∧ level base.ps2ClkDrive .low = false
        ∧ decode base.params .rxev (2 * base.rxState.number + (level base.ps2DataDrive .low).toNat) = .instr .rxIdleStart)
      := by decide +kernel

theorem witness_LinesWithoutAnEventOnlyMove :
    State.clkLevel { base with kbdClkDrive := .low } = false ∧ level base.ps2ClkDrive .released = true
      ∧ ({ base with irqEnable := false } : State).irqEnable = false := by decide +kernel

theorem witness_APlacedInstructionIsFetchedNext :
    par.wf = true ∧ WellFormed par (.xlLookup 57) = true ∧ WellFormed par (.rxError .stop true) = true
      ∧ ∀ v, (Instr.xlLookup 57) ≠ .bufPush v ∧ (Instr.xlLookup 57) ≠ .bufPushFull v :=
  ⟨by decide +kernel, by decide +kernel, by decide +kernel, fun _ => ⟨by simp, by simp⟩⟩

theorem witness_EveryStepKeepsTheInvariant : Inv base ∧ ∃ t, step base = .next t :=
  ⟨inv_loop, exists_next (f := fun _ => true) (by decide +kernel)⟩

theorem witness_NoAdmissibleStepStops : Inv base ∧ Admissible base :=
  ⟨inv_loop, fun r h => by cases h⟩

end Sys2Proof.Tests
end

section
/-! The decoder reads every well-formed instruction back from its own word (spec/30_encoding.md), format by format. -/

namespace Sys2Proof

open Machine

/-! ## Words of more than one byte -/

/-- The low byte of a word whose higher bits are the number `n`. -/
theorem ofNat_lowByte (b : Byte) (n : Nat) : BitVec.ofNat 8 (b.toNat + 256 * n) = b := by
  apply BitVec.eq_of_toNat_eq
  rw [BitVec.toNat_ofNat]
  omega

/-- The number above the low byte. -/
theorem shiftRight_lowByte (b : Byte) (n : Nat) : (b.toNat + 256 * n) >>> 8 = n := by
  rw [Nat.shiftRight_eq_div_pow]
  omega

/-! ## Formats of one byte -/

@[simp] theorem byteRow_toNat (f : Byte → Decoded) (b : Byte) : byteRow f b.toNat = f b := by
  simp [byteRow, b.isLt]

theorem decode_sc (p : Params) (b : Byte) : decode p .sc b.toNat = .instr (scRow p b) := by
  simp only [decode, byteRow_toNat]

/-- The member of BLOCKLIST at a position is read as the row of that position (R98 class 7). -/
theorem decode_blockMember {p : Params} (hp : p.wf = true) {k : Nat} (hk : k < p.blocklist.length) :
    decode p .sc (p.blocklist.getD k 0).toNat = .instr (blockRow k) := by
  rw [decode_sc, scRow_blockMember hp hk]

/-- The byte 0x00 is of class 9: no member of BLOCKLIST is 0 (R6, R98). -/
theorem decode_zero {p : Params} (hp : p.wf = true) : decode p .sc 0 = .instr .xlNonpositive := by
  have hb : (0 : Byte) ∉ p.blocklist := fun hm => absurd ((wf_block hp).1 0 hm) (by decide)
  have hr : scRow p 0 = .xlNonpositive := by
    rw [scRow, blockIndex_none hb]
    rfl
  rw [← hr]
  exact decode_sc p 0

/-- `w` is the word of a byte of class 8 whose HIGHRANGE row is `i` (R98). -/
abbrev HighWord (w : Nat) (i : Instr) : Prop :=
  w < 256 ∧ 58 ≤ w ∧ BitVec.ofNat 8 w ∉ specialHigh ∧ highRow (BitVec.ofNat 8 w) = i

/-- The decoder reads a word of class 8 as its HIGHRANGE row, whatever BLOCKLIST is (R98, R251). -/
theorem decode_high {p : Params} (hp : p.wf = true) {w : Nat} {i : Instr} (h : HighWord w i) :
    decode p .sc w = .instr i := by
  obtain ⟨hw, h58, hs, rfl⟩ := h
  have hb : (BitVec.ofNat 8 w).toNat = w := by rw [BitVec.toNat_ofNat]; omega
  have hd := decode_sc p (BitVec.ofNat 8 w)
  rwa [scRow_high hp (hb.symm ▸ h58) hs, hb] at hd

theorem highWord_3A : ∀ x : BitVec 1, HighWord (0x3A + x.toNat) (.xlHighrange3A x) := by decide

theorem highWord_3C : ∀ x : BitVec 2, HighWord (0x3C + x.toNat) (.xlHighrange3C x) := by decide

theorem highWord_40 : ∀ x : BitVec 6, HighWord (0x40 + x.toNat) (.xlHighrange40 x) := by decide

/-- The fourth pair, less the special codes, which `WellFormed` takes out. -/
theorem highWord_80 : ∀ x : BitVec 7, (!specialHigh.contains (1#1 ++ x : BitVec 8)) = true →
    HighWord (0x80 + x.toNat) (.xlHighrange80 x) := by decide

/-- A byte after E0 that is none of the four named ones (R99). -/
theorem scE0Row_other {p : Params} {b : Byte} (h : WellFormed p (.xlE0Other b) = true) : scE0Row b = .xlE0Other b := by
  simp only [WellFormed, Bool.not_eq_true', List.contains_eq_mem, decide_eq_false_iff_not, List.mem_cons, not_or] at h
  obtain ⟨h1, h2, h3, h4, -⟩ := h
  simp only [scE0Row, h1, h2, h3, h4, if_false]

/-- A byte after E1 that is none of the two named ones (R99). -/
theorem scE1Row_other {p : Params} {b : Byte} (h : WellFormed p (.xlE1Other b) = true) : scE1Row b = .xlE1Other b := by
  simp only [WellFormed, Config.e1Cont, Bool.not_eq_true', List.contains_eq_mem, decide_eq_false_iff_not,
    List.mem_cons, not_or] at h
  obtain ⟨h1, h2, -⟩ := h
  simp only [scE1Row, h1, h2, if_false]

theorem decode_outputValid (p : Params) : ∀ c : BitVec 7, decode p .te (0x80 + c.toNat) = .instr (.xlOutputValid c) := by
  simp only [decode]
  decide

theorem decode_outputSentinel (p : Params) : ∀ x : BitVec 7, decode p .te x.toNat = .instr (.xlOutputSentinel x) := by
  simp only [decode]
  decide

theorem decode_a2Write (p : Params) : ∀ c : BitVec 7, decode p .a2 (0x80 + c.toNat) = .instr (.a2Write c) := by
  simp only [decode]
  decide

/-! ## Commands and responses -/

/-- The inequalities of the parameter constraints (R6, log entry 20). -/
theorem wf_codes {p : Params} (h : p.wf = true) : p.respAck ≠ p.respResend ∧ p.cmdSetLeds ≠ p.cmdSetTypematic
    ∧ p.cmdSetLeds ≠ p.cmdSetScanset ∧ p.cmdSetTypematic ≠ p.cmdSetScanset := by
  simp only [Params.wf, Bool.and_eq_true, bne_iff_ne] at h
  obtain ⟨⟨⟨⟨⟨⟨-, hack⟩, hlt⟩, hls⟩, hts⟩, -⟩, -⟩ := h
  exact ⟨hack, hlt, hls, hts⟩

/-- A command word is read by its command byte, its parameter byte is the operand (R103). -/
theorem cmdRow_word (p : Params) (c v : Byte) : cmdRow p (c.toNat + 256 * v.toNat) =
    if c = p.cmdSetLeds then .instr (.cmdSetLeds v)
    else if c = p.cmdSetTypematic then .instr (.cmdSetTypematic v)
    else if c = p.cmdSetScanset then .instr (.cmdSetScanset v)
    else .rejected .noCommandByte := by
  have hw : ¬ 2 ^ 16 ≤ c.toNat + 256 * v.toNat := by omega
  simp only [cmdRow, hw, if_false, ofNat_lowByte, shiftRight_lowByte, BitVec.ofNat_toNat, BitVec.setWidth_eq]

/-! ## Operations without a bit pattern -/

/-- The number of an operation word and its operand (log entry 4). -/
theorem opWord_parts {n : Nat} (hn : n < 256) (a : Nat) :
    (n + 256 * a) % 256 = n ∧ (n + 256 * a) / 256 = a := by omega

theorem opByte_toNat (f : Byte → Instr) (v : Byte) : opByte f v.toNat = .instr (f v) := by
  simp [opByte, v.isLt]

theorem opTxBit_word {p : Params} : ∀ (k : Fin 10) (v : Bool), WellFormed p (.txBit k v) = true →
    opTxBit (k.val + 16 * v.toNat) = .instr (.txBit k v) := by
  simp only [WellFormed]
  decide

theorem opTxFinish_word (a : Bool) : opTxFinish a.toNat = .instr (.txFinish a) := by
  cases a <;> rfl

theorem legalOfNat_of_number (l : LegalSet) : legalOfNat l.number = some l := by
  cases l <;> rfl

theorem opCommand_word (c v : Byte) (l : LegalSet) :
    opCommand (c.toNat + 256 * v.toNat + 65536 * l.number) = .instr (.kbdCommand c v l) := by
  have hl : (c.toNat + 256 * v.toNat + 65536 * l.number) / 65536 = l.number := by omega
  have hw : c.toNat + 256 * v.toNat + 65536 * l.number = c.toNat + 256 * (v.toNat + 256 * l.number) := by omega
  rw [opCommand, hl, legalOfNat_of_number, hw, shiftRight_lowByte, ofNat_lowByte, ofNat_lowByte]

/-! ## Every instruction -/

/-- A well-formed instruction is read back from its own word. -/
theorem decode_encode {p : Params} (hp : p.wf = true) {i : Instr} (hi : WellFormed p i = true) :
    decode p (encode p i).1 (encode p i).2 = .instr i := by
  obtain ⟨hack, hlt, hls, hts⟩ := wf_codes hp
  cases i
  case kbdFrame b => exact decode_frame p b
  case ps2Send b => exact decode_send p b
  case xlBlocklist0E | xlBlocklist0F | xlBlocklist1A | xlBlocklist1B | xlBlocklist28 | xlBlocklist29 | xlBlocklist35 =>
    exact decode_blockMember hp (of_decide_eq_true hi)
  case xlHighrange3A x => exact decode_high hp (highWord_3A x)
  case xlHighrange3C x => exact decode_high hp (highWord_3C x)
  case xlHighrange40 x => exact decode_high hp (highWord_40 x)
  case xlHighrange80 x => exact decode_high hp (highWord_80 x hi)
  case xlNonpositive => exact decode_zero hp
  case xlLookup code => rw [encode, decode_sc, scRow_lookup hi]
  case xlE0Other b => simp only [encode, decode, byteRow_toNat, scE0Row_other hi]
  case xlE1Other b => simp only [encode, decode, byteRow_toNat, scE1Row_other hi]
  case xlE1Third b => simp only [encode, decode, byteRow_toNat]
  case xlOutputValid c => exact decode_outputValid p c
  case xlOutputSentinel x => exact decode_outputSentinel p x
  case a2Write c => exact decode_a2Write p c
  case cmdSetLeds v => simp only [encode, decode, cmdRow_word, if_true]
  case cmdSetTypematic v => simp only [encode, decode, cmdRow_word, hlt.symm, if_true, if_false]
  case cmdSetScanset v => simp only [encode, decode, cmdRow_word, hls.symm, hts.symm, if_true, if_false]
  case respAck => simp only [encode, decode, byteRow_toNat, respRow, if_true]
  case respResend => simp only [encode, decode, byteRow_toNat, respRow, hack.symm, if_true, if_false]
  case bufPush v | bufPushFull v => simp only [encode, decode, opRow, opWord_parts, Nat.reduceLT, opByte_toNat]
  case txBit k v => simp only [encode, decode, opRow, opWord_parts, Nat.reduceLT, opTxBit_word k v hi]
  case txFinish a => simp only [encode, decode, opRow, opWord_parts, Nat.reduceLT, opTxFinish_word]
  case kbdCommand c v l => simp only [encode, decode, opRow, opWord_parts, Nat.reduceLT, opCommand_word]
  case rxData d | rxParity d => cases d <;> (rw [encode]; rfl)
  case rxError e d => cases e <;> cases d <;> (rw [encode]; rfl)
  -- a fixed word: the decoder's answer is computed
  all_goals rw [encode]; rfl

/-- Settles O2, instruction by instruction: each format's decoder is evaluated at the words `encode` builds for it. -/
theorem decodeOfEncodeIsTheInstruction : Obligations.DecodeOfEncodeIsTheInstruction :=
  fun _ hp _ hi => decode_encode hp hi

end Sys2Proof
end

section
/-! Every step keeps the parameters (R5, R76), and which instruction a step runs (R13, R70, R130). -/

namespace Sys2Proof.Machine

open Sys2Proof

/-! ## The parameters -/

/-- No row of `Writes` has `params` among its fields; the two resets carry the parameters over (R370). -/
theorem Writes.params {i : Instr} {s t : State} (h : Writes s t i) : t.params = s.params := by
  cases i
  case rxIdleStart | rxIdleBadstart | rxData | rxParity | rxStopBad | rxStopOk | rxError | bufPush | bufPushFull =>
    obtain ⟨_, _, _, _, _, _, _, rfl⟩ := h; rfl
  case kbdFrame => obtain ⟨_, _, _, _, _, _, _, _, _, _, rfl⟩ := h; rfl
  case txInhibit =>
    rcases h with ⟨_, _, _, rfl⟩ | ⟨-, _, he⟩
    · rfl
    · exact (takeEdge_params he :)
  case txFinish =>
    rcases h with ⟨_, _, rfl⟩ | ⟨-, _, _, he⟩
    · rfl
    · exact (takeEdge_params he :)
  case a2Write => obtain ⟨_, _, _, _, rfl, -⟩ := h; rfl
  case ps2RecvNonblocking | ps2RecvBlocking => obtain ⟨_, _, _, _, rfl⟩ := h; rfl
  case init => obtain ⟨-, _, rfl⟩ := h; rfl
  case startup => obtain ⟨-, _, _, rfl⟩ := h; rfl
  case wdtExpire => obtain ⟨-, rfl⟩ := h; rfl
  case reset => obtain rfl := h; rfl
  case txPrepare | txRtsRelease | wdtReset => obtain ⟨_, rfl⟩ := h; rfl
  case ps2Send | txSettle | txAck | txAckEnd | cmdSetLeds | cmdSetTypematic | cmdSetScanset | respAck | respResend
      | kbdCommand | loopIteration | txRtsData | txReleaseData | txBit | xlCtrlMake | xlE0Ctrl1D | xlCtrlBreak
      | xlE0Ctrl9D | xlShiftMake2A | xlShiftMake36 | xlShiftBreakAA | xlShiftBreakB6 =>
    obtain ⟨_, _, rfl⟩ := h; rfl
  -- the translator's other rows: continuation, result and position
  all_goals obtain ⟨_, _, _, rfl⟩ := h; rfl

theorem exec_params {i : Instr} {s t : State} (h : exec i s = .next t) : t.params = s.params := (exec_writes h).params

/-- Settles O7, by the agent that moves: an instruction writes no parameter, and the other moves are record updates. -/
theorem noStepChangesAParameter : Obligations.NoStepChangesAParameter := by
  intro s t h
  cases step_cases h with
  | main i r hs hd he => exact (exec_params he :)
  | edge r c d hs hi he => exact (takeEdge_params he :)
  | missed r c d hs hi ht => subst ht; rfl
  | quiet r c d hs ht => subst ht; rfl
  | frame r b hs he => exact (exec_params he :)
  | tick r hs ht => subst ht; rfl
  | wdt r hs he => exact (exec_params he :)
  | powerOn r hs ht => subst ht; rfl

/-! ## The instruction that is due -/

/-- The schedule names MAIN. What MAIN has due does not depend on the schedule. -/
theorem step_main_scheduled {s : State} {i : Instr} {r : List Stimulus} (h : s.inputs = .main :: r)
    (hd : mainDue s = .instr i) : step s = exec i { s with inputs := r } := by
  have hd' : mainDue { s with inputs := r } = .instr i := hd
  simp only [step, fetch, h, hd']

/-- With nothing scheduled, a word that is no instruction is refused by name. -/
theorem step_undecodable {s : State} {e : DecodeError} (h : s.inputs = []) (hd : mainDue s = .rejected e) :
    step s = .refused (.undecodable e) := by
  simp only [step, fetch, h, hd]

/-- An edge event runs the instruction its event word decodes to (R105, R130). -/
theorem takeEdge_eq_exec {s : State} {i : Instr} (h : rxDue s = .instr i) : takeEdge s = exec i s := by
  obtain ⟨j, hj, he⟩ := takeEdge_eq_rxDue s
  obtain rfl : j = i := Decoded.instr.inj (hj.symm.trans h)
  exact he

/-- KBD's lines fall while interrupts are enabled: the step is the receiver's (R64, R130). -/
theorem step_edge {s : State} {i : Instr} {c d : Drive} {r : List Stimulus} (h : s.inputs = .lines c d :: r)
    (hk : s.clkLevel = true) (he : s.irqEnable = true) (hl : level s.ps2ClkDrive c = false)
    (hd : rxDue (s.afterLines r c d) = .instr i) : step s = exec i (s.afterLines r c d) := by
  have hf : clockFell s (s.afterLines r c d) = true := by
    have hl' : (s.afterLines r c d).clkLevel = false := hl
    simp only [clockFell, hk, hl', Bool.not_false, Bool.and_self]
  have he' : (s.afterLines r c d).irqEnable = true := he
  rw [step_lines h, clockChanged, if_pos hf, if_pos he', takeEdge_eq_exec hd]

theorem step_wdt {s : State} {r : List Stimulus} (h : s.inputs = .wdt :: r) :
    step s = exec .wdtExpire { s with inputs := r } := by
  simp only [step, fetch, h]

theorem step_powerOn {s : State} {r : List Stimulus} (h : s.inputs = .powerOn :: r) :
    step s = exec .reset { s with inputs := r } := by
  simp only [step, fetch, h]

/-- Settles O55, by the head of the schedule: one lemma for each kind of step. -/
theorem aStepRunsTheDueInstruction : Obligations.AStepRunsTheDueInstruction := fun _ _ _ =>
  ⟨step_main, step_main_scheduled, fun _ => step_undecodable, fun _ _ => step_edge, fun _ => step_frame, step_wdt,
    step_powerOn⟩

end Sys2Proof.Machine
end

section
/-! The state after a reset (R42), the edge remembered during a send (R41), the writers of the control elements (R32 to
R35), and the place of an instruction (log entry 23). -/

namespace Sys2Proof.Machine

open Sys2Proof

/-! ## The state after a reset -/

theorem openRow_length (r : Row) : (Config.openRow r).length = 58 := by
  rw [Config.openRow, List.length_map, List.length_range]

/-- The standard values meet the constraints of R6. The contents of the table's rows are open, their length is not. -/
theorem standard_wf : Params.standard.wf = true := by
  simp only [Params.wf, Params.standard, openRow_length]
  decide

/-- Settles O5: the fields of `State.reset`, read off; the two free registers by the types of their values. -/
theorem resetLeavesTheValuesOfTheTable : Obligations.ResetLeavesTheValuesOfTheTable :=
  ⟨rfl, Nat.le_of_lt_succ (Config.resetRxBitcnt 0).isLt, Nat.le_of_lt_succ (Config.resetRxParity 0).isLt, rfl, rfl, rfl,
    fun _ => rfl, rfl, rfl, rfl, rfl, rfl, rfl, rfl, rfl, rfl⟩

theorem wf_bufCap {p : Params} (h : p.wf = true) : 0 < p.bufCap := by
  simp only [Params.wf, Bool.and_eq_true, decide_eq_true_eq] at h
  omega

/-- A block in phase Init with the values of R42, whatever the parameters and the values R42 leaves open. -/
theorem inv_of_resetValues {s : State} (hp : s.params.wf = true) (ha : s.params.bufPopAtomic = true)
    (hn : s.rxBitcnt ≤ 8) (hq : s.rxParity ≤ 9)
    (hs : s = { State.reset with
      params := s.params, rxAcc := s.rxAcc, rxBitcnt := s.rxBitcnt, rxParity := s.rxParity, a2Data := s.a2Data,
      kbdClkDrive := s.kbdClkDrive, kbdDataDrive := s.kbdDataDrive, inputs := s.inputs, a2Seen := s.a2Seen,
      resets := s.resets }) : Inv s := by
  have hcap : 0 < s.params.bufCap := wf_bufCap hp
  rw [hs]
  exact {
    params := hp
    atomic := ha
    buffer := .empty .nil (fun _ hc => absurd hc List.not_mem_nil) rfl rfl rfl hcap
    receiver := .quiet (.inl rfl) hn hq
    control := {
      shape := rfl, enable := rfl, receiver := fun _ => rfl, clock := rfl, data := fun _ => rfl
      pending := fun h => absurd h Bool.false_ne_true
      strobe := rfl, held := trivial, translator := fun h => absurd rfl h } }

/-- Settles O58: the standard parameters are well-formed, the free registers in range by their types. -/
theorem resetMeetsTheInvariant : Obligations.ResetMeetsTheInvariant :=
  inv_of_resetValues standard_wf rfl (Nat.le_of_lt_succ (Config.resetRxBitcnt 0).isLt)
    (Nat.le_of_lt_succ (Config.resetRxParity 0).isLt) rfl

/-- The two resets establish the invariant anew (R370); the parameters are not theirs to change. -/
theorem afterReset_inv {s : State} (hp : s.params.wf = true) (ha : s.params.bufPopAtomic = true) : Inv s.afterReset :=
  inv_of_resetValues hp ha (Nat.le_of_lt_succ (Config.resetRxBitcnt (s.resets + 1)).isLt)
    (Nat.le_of_lt_succ (Config.resetRxParity (s.resets + 1)).isLt) rfl

/-! ## The edge remembered during a send -/

/-- The idle receiver at an edge with the data line high: a bad start bit (R132). -/
theorem takeEdge_idle_high {s : State} (hx : s.rxState = .idle) (hd : s.dataLevel = true) :
    takeEdge s = .next (raiseRx .start s) := by
  simp only [takeEdge, hx, hd, if_true, execRxIdleBadstart, whenRx]

/-- The idle receiver at an edge with the data line low: a start bit (R131). -/
theorem takeEdge_idle_low {s : State} (hx : s.rxState = .idle) (hd : s.dataLevel = false) :
    takeEdge s = .next (acceptStart s) := by
  simp only [takeEdge, hx, hd, Bool.false_eq_true, if_false, if_true, execRxIdleStart, whenRx]

/-- No caller waits for a flag: the continuation stays as it is. -/
theorem returnTo_flag (s : State) (ack : Bool) : returnTo (.flag ack) s = { s with ret := .flag ack } := by
  unfold returnTo
  split
  case h_6 => rfl
  all_goals contradiction

/-- TX.FINISH with an edge remembered: the edge event is taken at the state that has returned the flag (R41, R191). -/
theorem txFinish_latched {s : State} {ack : Bool} {k : List Point} (hc : s.cont = .op (.txFinish ack) :: k)
    (hl : s.params.irqLatch = true) (hq : s.irqPending = true) :
    exec (.txFinish ack) s
      = takeEdge { s with cont := k, irqEnable := true, irqPending := false, ret := .flag ack } := by
  rw [exec, execTxFinish, whenDue_cons _ hc rfl]
  simp only [returnTo_flag, hl, hq, Bool.and_self, if_true]

/-- Settles O29: TX.FINISH takes the remembered edge with the receiver idle, so the data level decides the start bit. -/
theorem latchedEdgeIsDeliveredAtFinish : Obligations.LatchedEdgeIsDeliveredAtFinish := by
  intro s ack k hc hl hq hx
  rw [txFinish_latched hc hl hq]
  exact ⟨fun hd => takeEdge_idle_high (by exact hx) (by exact hd),
    fun hd => takeEdge_idle_low (by exact hx) (by exact hd)⟩

/-! ## The writers of the control elements -/

/-- The interrupt enable, the two line drives, the watchdog's count and the phase are as they were (R32 to R35). -/
def SameControl (s t : State) : Prop :=
  t.irqEnable = s.irqEnable ∧ t.ps2ClkDrive = s.ps2ClkDrive ∧ t.ps2DataDrive = s.ps2DataDrive ∧ t.wdt = s.wdt
    ∧ t.mainPhase = s.mainPhase

/-- An edge event writes none of the control elements. -/
theorem takeEdge_sameControl {s t : State} (h : takeEdge s = .next t) : SameControl s t := by
  obtain ⟨_, _, _, _, _, _, _, rfl⟩ := takeEdge_next h
  exact ⟨rfl, rfl, rfl, rfl, rfl⟩

/-- The instructions that write a control element. -/
def writesControl : Instr → Bool
  | .txPrepare | .txInhibit | .txRtsData | .txRtsRelease | .txReleaseData | .txBit _ _ | .txFinish _ | .wdtReset
  | .startup | .init | .reset | .wdtExpire => true
  | _ => false

/-- Every other row of `Writes` names none of the control elements. -/
theorem Writes.sameControl {i : Instr} {s t : State} (h : Writes s t i) (hi : writesControl i = false) :
    SameControl s t := by
  cases i
  case rxIdleStart | rxIdleBadstart | rxData | rxParity | rxStopBad | rxStopOk | rxError | bufPush | bufPushFull =>
    obtain ⟨_, _, _, _, _, _, _, rfl⟩ := h; exact ⟨rfl, rfl, rfl, rfl, rfl⟩
  case kbdFrame => obtain ⟨_, _, _, _, _, _, _, _, _, _, rfl⟩ := h; exact ⟨rfl, rfl, rfl, rfl, rfl⟩
  case a2Write => obtain ⟨_, _, _, _, rfl, -⟩ := h; exact ⟨rfl, rfl, rfl, rfl, rfl⟩
  case ps2RecvNonblocking | ps2RecvBlocking => obtain ⟨_, _, _, _, rfl⟩ := h; exact ⟨rfl, rfl, rfl, rfl, rfl⟩
  case ps2Send | txSettle | txAck | txAckEnd | cmdSetLeds | cmdSetTypematic | cmdSetScanset | respAck | respResend
      | kbdCommand | loopIteration | xlCtrlMake | xlE0Ctrl1D | xlCtrlBreak | xlE0Ctrl9D | xlShiftMake2A
      | xlShiftMake36 | xlShiftBreakAA | xlShiftBreakB6 =>
    obtain ⟨_, _, rfl⟩ := h; exact ⟨rfl, rfl, rfl, rfl, rfl⟩
  case txPrepare | txInhibit | txRtsData | txRtsRelease | txReleaseData | txBit | txFinish | wdtReset | startup | init
      | reset | wdtExpire =>
    cases hi
  -- the translator's other rows: continuation, result and position
  all_goals obtain ⟨_, _, _, rfl⟩ := h; exact ⟨rfl, rfl, rfl, rfl, rfl⟩

/-- Settles O53: a row of `Writes` that names a control element is one of the element's writers. -/
theorem controlElementsHaveTheirWriters : Obligations.ControlElementsHaveTheirWriters := by
  intro i s t h hi
  have hw := exec_writes h
  by_cases hc : writesControl i = false
  · obtain ⟨h1, h2, h3, h4, h5⟩ := hw.sameControl hc
    exact ⟨.inl h1, .inl h2, .inl h3, .inl h4, .inl h5⟩
  · cases i <;> simp only [writesControl, not_true_eq_false] at hc
    case txPrepare => obtain ⟨_, rfl⟩ := hw; simp
    case txInhibit =>
      rcases hw with ⟨_, _, _, rfl⟩ | ⟨-, _, he⟩
      · simp
      · obtain ⟨h1, -, h3, h4, h5⟩ := takeEdge_sameControl he
        exact ⟨.inl h1, .inr (.inl rfl), .inl h3, .inl h4, .inl h5⟩
    case txFinish =>
      rcases hw with ⟨_, _, rfl⟩ | ⟨-, _, _, he⟩
      · simp
      · obtain ⟨-, h2, h3, h4, h5⟩ := takeEdge_sameControl he
        exact ⟨.inr (.inr ⟨_, rfl⟩), .inl h2, .inl h3, .inl h4, .inl h5⟩
    case txRtsData | txReleaseData | txBit => obtain ⟨_, _, rfl⟩ := hw; simp
    case txRtsRelease | wdtReset => obtain ⟨_, rfl⟩ := hw; simp
    case startup => obtain ⟨-, _, _, rfl⟩ := hw; simp
    case init | reset | wdtExpire => simp at hi

/-! ## The place of an instruction -/

/-- A step runs what has been fetched. -/
theorem step_of_fetch {s t : State} {i : Instr} (h : fetch s = .run (.instr i) t) : step s = exec i t := by
  simp only [step, h]

/-- The state `t` fetches the instruction, under the parameters of `s`. -/
def Fetches (s t : State) (i : Instr) : Prop := ∃ u, fetch t = .run (.instr i) u ∧ u.params = s.params

/-- MAIN put at a control point fetches what is due there. -/
theorem fetches_placePoint {s : State} {i : Instr} {p : Point} (h : dueAt s.params s.xlState p = .instr i) :
    Fetches s (placePoint p s) i :=
  ⟨placePoint p s, congrArg (Fetched.run · _) h, rfl⟩

/-- Read as a byte, the word of a one-byte format is the same word. -/
theorem decode_ofNat {p : Params} {f : Format} {w : Nat} {i : Instr} (h : decode p f w = .instr i)
    (hf : f ∈ [Format.sc, .scE0, .scE1, .scE1C, .te, .a2, .resp]) :
    decode p f (BitVec.ofNat 8 w).toNat = .instr i := by
  have hw : ∃ b : Byte, w = b.toNat := by
    cases f
    case rxev | d2h | h2d | cmd | op => simp at hf
    all_goals
      rw [decode] at h
      exact (byteRow_instr h).imp fun _ hb => hb.1
  obtain ⟨b, rfl⟩ := hw
  rwa [BitVec.ofNat_toNat, BitVec.setWidth_eq]

/-- A byte put before the translator is decoded under the format of the position (R98, R99). -/
theorem fetches_placeByte {s : State} {i : Instr} {x : XlState} {w : Nat} (h : decode s.params x.format w = .instr i) :
    Fetches s (placeByte x w s) i := by
  have hf : x.format ∈ [Format.sc, .scE0, .scE1, .scE1C, .te, .a2, .resp] := by cases x <;> decide
  exact ⟨placeByte x w s, congrArg (Fetched.run · _) (decode_ofNat h hf), rfl⟩

/-- The data line follows the keyboard's drive while the block releases it (R64). -/
theorem level_released (d : Bool) : level .released (driveOf d) = d := by
  cases d <;> rfl

/-- An edge put before the receiver is decoded from its state and the level (R105). -/
theorem fetches_placeEdge {s : State} {i : Instr} {x : RxState} {d : Bool}
    (h : rxevRow (2 * x.number + d.toNat) = .instr i) : Fetches s (placeEdge x d s) i := by
  refine ⟨(placeEdge x d s).afterLines [] .low (driveOf d), congrArg (Fetched.run · _) ?_, rfl⟩
  rw [← level_released d] at h
  exact h

/-- A well-formed instruction is fetched at its place: its word, put at the control point, decodes to it. -/
theorem place_fetches {s : State} {i : Instr} (hp : s.params.wf = true) (hi : WellFormed s.params i = true)
    (hb : ∀ v, i ≠ .bufPush v ∧ i ≠ .bufPushFull v) : Fetches s (s.place i) i := by
  have hw := decode_encode hp hi
  cases i
  case bufPush v => exact absurd rfl (hb v).1
  case bufPushFull v => exact absurd rfl (hb v).2
  case rxIdleStart | rxIdleBadstart | rxData | rxParity | rxStopBad | rxStopOk => exact fetches_placeEdge hw
  case rxError e d => exact fetches_placeEdge (by cases e <;> exact hw)
  case kbdFrame b => exact ⟨{ s with inputs := [] }, by simp only [State.place, fetch, decode_frame], rfl⟩
  case xlOutputValid | xlOutputSentinel => exact fetches_placePoint (decode_ofNat (f := .te) hw (by decide))
  case a2Write => exact fetches_placePoint (decode_ofNat (f := .a2) hw (by decide))
  case respAck | respResend =>
    have hd := decode_ofNat (f := .resp) hw (by decide)
    exact fetches_placePoint (by simp only [dueAt, hd])
  case xlEmpty | ps2Send | cmdSetLeds | cmdSetTypematic | cmdSetScanset | ps2RecvNonblocking | ps2RecvBlocking
      | txPrepare | txInhibit | txRtsData | txRtsRelease | txBit | txReleaseData | txAck | txAckEnd | txFinish | txSettle
      | kbdCommand | translatePoll | wdtReset =>
    exact fetches_placePoint rfl
  case init | startup | loopIteration | wdtExpire | reset => exact ⟨_, rfl, rfl⟩
  -- the rows of a scan-code byte
  all_goals exact fetches_placeByte hw

/-- Settles O57: what is fetched at the place is the instruction, and a step runs what is fetched. -/
theorem aPlacedInstructionIsFetchedNext : Obligations.APlacedInstructionIsFetchedNext := by
  intro s i hp hi hb
  obtain ⟨t, hf, ht⟩ := place_fetches hp hi hb
  exact ⟨t, hf, ht, step_of_fetch hf⟩

end Sys2Proof.Machine
end

section
/-! What a step of MAIN leaves to check of the invariant where it stands outside a send (R28 to R34, R74). -/

namespace Sys2Proof.Machine

open Sys2Proof

/-! ## A step of MAIN -/

/-- MAIN executes the instruction that is due. -/
def MainStep (s t : State) : Prop := ∃ i, mainDue s = .instr i ∧ exec i s = .next t

/-- What is due is what has run. -/
theorem MainStep.exec {s t : State} (h : MainStep s t) {i : Instr} (hd : mainDue s = .instr i) :
    exec i s = .next t := by
  obtain ⟨j, hj, he⟩ := h
  rwa [Decoded.instr.inj (hd.symm.trans hj)]

section
variable {s t : State} {f : Point → State → Out}

/-- An operation that has run at a known control point has left it. -/
theorem whenDue_at {i : Instr} {p : Point} {k : List Point} (h : whenDue i s f = .next t) (hc : s.cont = p :: k) :
    f p { s with cont := k } = .next t := by
  obtain ⟨-, h⟩ := whenDue_next h
  rwa [mainTop_cons hc, popPoint_cons hc] at h

/-- What is due at a known control point has run from there. -/
theorem MainStep.due {p : Point} {k : List Point} (h : MainStep s t) {i : Instr} (hc : s.cont = p :: k)
    (hp : dueAt s.params s.xlState p = .instr i) (hf : Machine.exec i s = whenDue i s f) :
    f p { s with cont := k } = .next t :=
  whenDue_at (hf ▸ h.exec ((mainDue_cons hc).trans hp)) hc

/-- The same for an operation that MAIN calls. -/
theorem MainStep.called {p : Point} {k : List Point} (h : MainStep s t) {i : Instr} (hc : s.cont = p :: k)
    (hp : dueAt s.params s.xlState p = .instr i) (hf : Machine.exec i s = whenCalled i s f) :
    f p { s with cont := k } = .next t := by
  rw [← h.exec ((mainDue_cons hc).trans hp), hf, whenCalled_cons f hc hp]

/-- With no operation under way, the one that the phase calls for has run. -/
theorem MainStep.due_nil (h : MainStep s t) {i : Instr} (hc : s.cont = []) (hp : mainTop s = .op i)
    (hf : Machine.exec i s = whenDue i s f) : f (.op i) { s with cont := [] } = .next t := by
  have hd : mainDue s = .instr i := by rw [mainDue, hp]; rfl
  have hs : s.popPoint = { s with cont := [] } := by rw [State.popPoint, hc]; rfl
  rw [← h.exec hd, hf, whenDue, if_pos hd, hp, hs]

theorem MainStep.called_nil (h : MainStep s t) {i : Instr} (hc : s.cont = []) (hp : mainTop s = .op i)
    (hf : Machine.exec i s = whenCalled i s f) : f (.op i) { s with cont := [] } = .next t := by
  have hd : mainDue s = .instr i := by rw [mainDue, hp]; rfl
  rw [← h.exec hd, hf, whenCalled_may f (.inr ⟨hc, rfl⟩)]
end

/-- Left and put back, a control point leaves the state as it was. -/
theorem goto_left {s : State} {p : Point} {k : List Point} (hc : s.cont = p :: k) :
    ({ s with cont := k } : State).goto p = s := by
  show { s with cont := p :: k } = s
  rw [← hc]

/-- A receive at its beginning. -/
theorem receive_start {s : State} {b : Bool} {k : List Point} (f : State → Out)
    (hc : s.cont = .op (popOperation b) :: k) : receive b s f = f { s with cont := k } := by
  rw [receive, whenCalled_cons _ hc rfl]

/-- Under an atomic pop a receive finds nothing, or it takes the oldest byte and returns it (R163, R164). -/
theorem MainStep.received {s t : State} {b : Bool} {k : List Point} (h : MainStep s t)
    (ha : s.params.bufPopAtomic = true) (hc : s.cont = .op (popOperation b) :: k) :
    t = (if b then s else returnTo (.opt none) { s with cont := k })
    ∨ 0 < s.bufCount ∧ ∃ v, t = returnTo (received b v)
        { s with cont := k, bufRd := (s.bufRd + 1) % s.params.bufCap, bufCount := s.bufCount - 1 } := by
  have hr : ∀ u, pop b { s with cont := k } = .next u → ∃ v, u = returnTo (Machine.received b v)
      { s with cont := k, bufRd := (s.bufRd + 1) % s.params.bufCap, bufCount := s.bufCount - 1 } := by
    intro u hu
    obtain ⟨-, v, -, ⟨-, rfl⟩ | ⟨hna, -⟩⟩ := pop_next hu
    · exact ⟨v, rfl⟩
    · rw [ha] at hna; cases hna
  have he := h.exec (mainDue_cons hc)
  cases b
  case false =>
    replace he : execPs2RecvNonblocking s = .next t := he
    rw [execPs2RecvNonblocking, receive_start _ hc] at he
    split at he
    · exact .inl (Host.Outcome.next.inj he).symm
    · exact .inr ⟨Nat.pos_of_ne_zero ‹_›, hr _ he⟩
  case true =>
    replace he : execPs2RecvBlocking s = .next t := he
    rw [execPs2RecvBlocking, receive_start _ hc] at he
    split at he
    · exact .inl ((Host.Outcome.next.inj he).symm.trans (goto_left hc))
    · exact .inr ⟨Nat.pos_of_ne_zero ‹_›, hr _ he⟩

/-! ## Outside a send -/

/-- MAIN's control state outside Init and outside a send. -/
structure Settled (s : State) : Prop where
  phase : s.mainPhase ≠ .init
  shape : controlShape s = true
  outside : (mainTop s).inSend = false
  strobe : s.a2StrobeN = !(mainTop s).strobeLow
  held : dataHeld s
  translator : s.xlState ≠ .ground → xlInside s.cont = true

/-- Outside a send interrupts are enabled, both lines are released and no edge is remembered (R32, R74, R194). -/
structure LinesFree (s : State) : Prop where
  enable : s.irqEnable = true
  clock : s.ps2ClkDrive = .released
  data : s.ps2DataDrive = .released
  pending : s.irqPending = false

theorem Point.inSend_of_holdsClock {p : Point} (h : p.holdsClock = true) : p.inSend = true := by
  unfold Point.holdsClock at h
  split at h
  case h_4 => cases h
  all_goals rfl

theorem Point.inSend_of_mayHoldData {p : Point} (h : p.mayHoldData = true) : p.inSend = true := by
  unfold Point.mayHoldData at h
  split at h
  case h_6 => cases h
  all_goals rfl

/-- Outside a send the block drives neither line. -/
theorem Point.drivesNothing {p : Point} (h : p.inSend = false) : p.holdsClock = false ∧ p.mayHoldData = false := by
  rw [← Bool.not_eq_true] at h
  exact ⟨eq_false_of_ne_true (mt inSend_of_holdsClock h), eq_false_of_ne_true (mt inSend_of_mayHoldData h)⟩

theorem ControlOk.linesFree {s : State} (h : ControlOk s) (hm : s.mainPhase ≠ .init)
    (ho : (mainTop s).inSend = false) : LinesFree s := by
  have he : s.irqEnable = true := by
    rw [h.enable, ho, beq_eq_false_iff_ne.mpr hm]
    rfl
  refine ⟨he, ?_, h.data (Point.drivesNothing ho).2, ?_⟩
  · rw [h.clock, (Point.drivesNothing ho).1]
    rfl
  · by_contra hp
    rw [(h.pending (eq_true_of_ne_false hp)).2] at he
    cases he

theorem Settled.controlOk {s : State} (h : Settled s) (hl : LinesFree s) : ControlOk s where
  shape := h.shape
  enable := by rw [hl.enable, h.outside, beq_eq_false_iff_ne.mpr h.phase]; rfl
  receiver := by rw [h.outside]; exact fun hi => absurd hi Bool.false_ne_true
  clock := by rw [hl.clock, (Point.drivesNothing h.outside).1]; rfl
  data := fun _ => hl.data
  pending := by rw [hl.pending]; exact fun hp => absurd hp Bool.false_ne_true
  strobe := h.strobe
  held := h.held
  translator := h.translator

/-- What MAIN writes outside a send, an initialisation and a pop. -/
def CallWrites (s t : State) : Prop :=
  ∃ m c r x sh ct w a n v, t = { s with
    mainPhase := m, cont := c, ret := r, xlState := x, shiftDown := sh, ctrlDown := ct, wdt := w, a2Data := a,
    a2StrobeN := n, a2Seen := v }

/-- A step outside a send leaves the receiver, the buffer and the lines, so only MAIN's control state is to check. -/
theorem Inv.call {s t : State} (hv : Inv s) (hm : s.mainPhase ≠ .init) (ho : (mainTop s).inSend = false)
    (hw : CallWrites s t) (ht : Settled t) : Inv t := by
  obtain ⟨he, hc, hd, hp⟩ := hv.control.linesFree hm ho
  obtain ⟨_, _, _, _, _, _, _, _, _, _, rfl⟩ := hw
  exact ⟨hv.params, hv.atomic, hv.buffer.congr rfl rfl rfl rfl rfl, hv.receiver.congr rfl rfl rfl rfl,
    ht.controlOk ⟨he, hc, hd, hp⟩⟩

/-- The oldest byte taken out of a non-empty buffer (R163). -/
theorem Inv.popped {s : State} (hv : Inv s) (hc : 0 < s.bufCount) :
    Inv { s with bufRd := (s.bufRd + 1) % s.params.bufCap, bufCount := s.bufCount - 1 } where
  params := hv.params
  atomic := hv.atomic
  buffer := hv.buffer.pop hc
  receiver := hv.receiver.congr rfl rfl rfl rfl
  control := hv.control.congr rfl rfl rfl rfl rfl rfl rfl rfl hv.control.pending (.inl rfl)

/-! ## Between the operations that drive a line -/

/-- Inside `a2_write`, with the byte on the data lines (R291). -/
def Point.inWriter : Point → Bool
  | .a2Setup _ | .a2Fall _ | .a2Hold _ | .a2Rise _ => true
  | _ => false

/-- MAIN stands neither in a send nor in the writer. -/
def quietCont : List Point → Bool
  | [] => true
  | p :: _ => !p.inSend && !p.inWriter

theorem Point.inWriter_of_strobeLow {p : Point} (h : p.strobeLow = true) : p.inWriter = true := by
  unfold Point.strobeLow at h
  split at h
  case h_3 => cases h
  all_goals rfl

theorem Point.strobeHigh_of_quiet {p : Point} (h : p.inWriter = false) : p.strobeLow = false := by
  rw [← Bool.not_eq_true] at h ⊢
  exact mt inWriter_of_strobeLow h

theorem mainTop_quiet {s : State} (h : quietCont s.cont = true) :
    (mainTop s).inSend = false ∧ (mainTop s).inWriter = false := by
  cases hc : s.cont with
  | nil =>
    rw [mainTop_nil hc]
    split <;> exact ⟨rfl, rfl⟩
  | cons p k =>
    rw [hc, quietCont, Bool.and_eq_true, Bool.not_eq_true', Bool.not_eq_true'] at h
    rwa [mainTop_cons hc]

theorem dataHeld_of_quiet {s : State} (h : (mainTop s).inWriter = false) : dataHeld s := by
  unfold dataHeld
  split
  case h_5 => trivial
  all_goals
    rename_i hp
    rw [hp] at h
    cases h

/-- What MAIN writes outside a send, the writer, an initialisation and a pop. -/
def QuietWrites (s t : State) : Prop :=
  ∃ m c r x sh ct w, t = { s with
    mainPhase := m, cont := c, ret := r, xlState := x, shiftDown := sh, ctrlDown := ct, wdt := w }

/-- A step from a quiet control point to a quiet one: the continuation and the translator's position are to check. -/
theorem Inv.quiet {s t : State} (hv : Inv s) (hm : s.mainPhase ≠ .init) (hq : quietCont s.cont = true)
    (hw : QuietWrites s t) (hm' : t.mainPhase ≠ .init) (hs : controlShape t = true) (hq' : quietCont t.cont = true)
    (hx : t.xlState ≠ .ground → xlInside t.cont = true) : Inv t := by
  obtain ⟨ho, hn⟩ := mainTop_quiet hq
  obtain ⟨ho', hn'⟩ := mainTop_quiet hq'
  have hstrobe : s.a2StrobeN = true := by rw [hv.control.strobe, Point.strobeHigh_of_quiet hn]; rfl
  obtain ⟨_, _, _, _, _, _, _, rfl⟩ := hw
  refine hv.call hm ho ⟨_, _, _, _, _, _, _, _, _, _, rfl⟩ ⟨hm', hs, ho', ?_, dataHeld_of_quiet hn', hx⟩
  rw [Point.strobeHigh_of_quiet hn']
  exact hstrobe

/-- Outside a call that waits for a byte the translator is in Ground (R30, R262). -/
theorem Inv.ground {s : State} (hv : Inv s) (h : xlInside s.cont = false) : s.xlState = .ground := by
  by_contra hx
  rw [hv.control.translator hx] at h
  cases h

end Sys2Proof.Machine
end

section
/-! MAIN's steps in the dispatch loop keep the invariant (R240, R291, R305). -/

namespace Sys2Proof.Machine

open Sys2Proof

/-! ## The translator's rows -/

/-- The rows by which the translator classifies a byte, none or a table entry (R240). -/
def translates : Instr → Bool
  | .xlE1 | .xlE0 | .xlCtrlMake | .xlCtrlBreak | .xlShiftMake2A | .xlShiftMake36 | .xlShiftBreakAA | .xlShiftBreakB6
  | .xlBlocklist0E | .xlBlocklist0F | .xlBlocklist1A | .xlBlocklist1B | .xlBlocklist28 | .xlBlocklist29
  | .xlBlocklist35 | .xlHighrange3A _ | .xlHighrange3C _ | .xlHighrange40 _ | .xlHighrange80 _ | .xlNonpositive
  | .xlLookup _ | .xlE0Ctrl1D | .xlE0Ctrl9D | .xlE0Arrow4B | .xlE0Arrow4D | .xlE0Other _ | .xlE1Cont1D | .xlE1Cont9D
  | .xlE1Other _ | .xlE1Third _ | .xlOutputValid _ | .xlOutputSentinel _ | .xlEmpty => true
  | _ => false

theorem translates_highRow (b : Byte) : translates (highRow b) = true := by
  unfold highRow
  split_ifs <;> rfl

theorem translates_blockRow (k : Nat) : translates (blockRow k) = true := by
  unfold blockRow
  split <;> rfl

theorem translates_scRow (p : Params) (b : Byte) : translates (scRow p b) = true := by
  unfold scRow
  iterate 8
    split
    · rfl
  split
  · exact translates_blockRow _
  · split
    · exact translates_highRow b
    · split <;> rfl

/-- A byte in whatever position of a sequence, or none, has a translator's row due. -/
theorem translates_of_byte {p : Params} {x : XlState} {r : Option Byte} {i : Instr}
    (h : dueAt p x (.xlByte r) = .instr i) : translates i = true := by
  cases r with
  | none => obtain rfl := Decoded.instr.inj h; rfl
  | some b =>
    cases x <;> simp only [dueAt, XlState.format, decode, byteRow_toNat] at h <;> obtain rfl := Decoded.instr.inj h
    case ground => exact translates_scRow p b
    case afterE0 => unfold scE0Row; split_ifs <;> rfl
    case afterE1 => unfold scE1Row; split_ifs <;> rfl
    case afterE1Cont => rfl

theorem translates_of_entry {p : Params} {x : XlState} {e : Byte} {i : Instr} (h : dueAt p x (.xlEntry e) = .instr i) :
    translates i = true := by
  simp only [dueAt, decode, byteRow_toNat] at h
  obtain rfl := Decoded.instr.inj h
  unfold teRow
  split <;> rfl

/-- What a row of the translator makes of a call of the dispatch loop: the call is over, without output or with a valid
entry, or a table entry has been read, or one more byte is awaited (R240, R254, R262). -/
def TranslatorMove (s t : State) : Prop :=
  ∃ r x sh ct c, t = { s with ret := r, xlState := x, shiftDown := sh, ctrlDown := ct, cont := c }
    ∧ (x = .ground ∧ (c = [] ∨ (∃ a, entryValid a = true ∧ c = [.a2Byte a]) ∨ ∃ e, c = [.xlEntry e, .loopOut])
      ∨ c = [.op .ps2RecvBlocking, .xlAwait, .loopOut])

theorem xlReturn_none_move {s t : State} {sh ct : Bool}
    (h : xlReturn none { s with cont := [.loopOut], shiftDown := sh, ctrlDown := ct } = .next t) :
    TranslatorMove s t := by
  obtain rfl := Host.Outcome.next.inj h
  exact ⟨_, _, _, _, _, rfl, .inl ⟨rfl, .inl rfl⟩⟩

theorem xlReturn_some_move {s t : State} {a : Byte} (ha : entryValid a = true)
    (h : xlReturn (some a) { s with cont := [.loopOut] } = .next t) : TranslatorMove s t := by
  obtain rfl := Host.Outcome.next.inj h
  exact ⟨_, _, _, _, _, rfl, .inl ⟨rfl, .inr (.inl ⟨a, ha, rfl⟩)⟩⟩

theorem xlMore_move {s t : State} {x : XlState} (h : xlMore x { s with cont := [.loopOut] } = .next t) :
    TranslatorMove s t := by
  obtain rfl := Host.Outcome.next.inj h
  exact ⟨_, _, _, _, _, rfl, .inr rfl⟩

theorem xlRead_move {s t : State} {code : Byte} (h : xlRead code { s with cont := [.loopOut] } = .next t) :
    TranslatorMove s t := by
  obtain ⟨e, -, rfl⟩ := xlRead_next h
  exact ⟨_, _, _, _, _, rfl, .inl ⟨rfl, .inr (.inr ⟨e, rfl⟩)⟩⟩

theorem xlFilter_move {s t : State} {code : Byte} (h : xlFilter code { s with cont := [.loopOut] } = .next t) :
    TranslatorMove s t := by
  rcases xlFilter_next h with rfl | ⟨e, -, rfl⟩
  · exact ⟨_, _, _, _, _, rfl, .inl ⟨rfl, .inl rfl⟩⟩
  · exact ⟨_, _, _, _, _, rfl, .inl ⟨rfl, .inr (.inr ⟨e, rfl⟩)⟩⟩

/-- The byte a valid entry returns has bit 7 set (R254). -/
theorem entryValid_output (c : BitVec 7) : entryValid (1#1 ++ c : BitVec 8) = true := by
  revert c
  decide

/-- Every row of the translator makes one of these moves. -/
theorem translator_move {s t : State} {i : Instr} {p : Point} (hi : translates i = true) (hc : s.cont = [p, .loopOut])
    (h : exec i s = .next t) : TranslatorMove s t := by
  cases i <;> cases hi <;> rw [exec] at h
  case xlE1 | xlE0 | xlE1Cont1D | xlE1Cont9D => exact xlMore_move (whenDue_at h hc)
  case xlLookup => exact xlRead_move (whenDue_at h hc)
  case xlE0Arrow4B | xlE0Arrow4D => exact xlFilter_move (whenDue_at h hc)
  case xlOutputValid c => exact xlReturn_some_move (entryValid_output c) (whenDue_at h hc)
  all_goals exact xlReturn_none_move (whenDue_at h hc)

/-! ## The dispatch loop -/

/-- In the loop the shape of the control state is `loopShape`. -/
theorem controlShape_loop {s : State} (hm : s.mainPhase = .loop) : controlShape s = loopShape s.cont := by
  simp only [controlShape, hm]

theorem mainTop_loop {s : State} (hc : s.cont = []) (hm : s.mainPhase = .loop) : mainTop s = .op .loopIteration := by
  rw [mainTop_nil hc, hm]

/-- No control point of the loop is inside a send. -/
theorem loop_outside {s : State} (hm : s.mainPhase = .loop) (h : loopShape s.cont = true) :
    (mainTop s).inSend = false := by
  unfold loopShape at h
  split at h
  case h_1 hc => rw [mainTop_loop hc hm]; rfl
  case h_13 => cases h
  all_goals
    rename_i hc
    rw [mainTop_cons hc]
    rfl

section
variable {s t : State} (hv : Inv s) (hm : s.mainPhase = .loop)
include hv hm

/-- The rule of `Inv.quiet` in the loop. -/
theorem Inv.loop (hq : quietCont s.cont = true) (hw : QuietWrites s t) (hm' : t.mainPhase = .loop)
    (hs : loopShape t.cont = true) (hq' : quietCont t.cont = true)
    (hx : t.xlState ≠ .ground → xlInside t.cont = true) : Inv t :=
  hv.quiet (by simp [hm]) hq hw (by simp [hm']) ((controlShape_loop hm').trans hs) hq' hx

/-- The rule of `Inv.call` in the loop, for the writer: the strobe and the data lines are to check (R291, R383). -/
theorem Inv.write (hw : CallWrites s t) (hm' : t.mainPhase = .loop) (hs : loopShape t.cont = true)
    (hn : t.a2StrobeN = !(mainTop t).strobeLow) (hd : dataHeld t) (hx : t.xlState = .ground) : Inv t := by
  have hs' : loopShape s.cont = true := (controlShape_loop hm).symm.trans hv.control.shape
  exact hv.call (by simp [hm]) (loop_outside hm hs') hw
    ⟨by simp [hm'], (controlShape_loop hm').trans hs, loop_outside hm' hs, hn, hd, absurd hx⟩

theorem TranslatorMove.inv (hq : quietCont s.cont = true) (h : TranslatorMove s t) : Inv t := by
  obtain ⟨_, _, _, _, _, rfl, ⟨rfl, rfl | ⟨a, ha, rfl⟩ | ⟨e, rfl⟩⟩ | rfl⟩ := h
  · exact hv.loop hm hq ⟨_, _, _, _, _, _, _, rfl⟩ hm rfl rfl (absurd rfl)
  · exact hv.loop hm hq ⟨_, _, _, _, _, _, _, rfl⟩ hm ha rfl (absurd rfl)
  · exact hv.loop hm hq ⟨_, _, _, _, _, _, _, rfl⟩ hm rfl rfl (absurd rfl)
  · exact hv.loop hm hq ⟨_, _, _, _, _, _, _, rfl⟩ hm rfl rfl (fun _ => rfl)

variable (h : MainStep s t)
include h

/-- `loop_iteration` lays out its three calls (R305). -/
theorem inv_loopIteration (hc : s.cont = []) : Inv t := by
  have he := h.called_nil hc (mainTop_loop hc hm) (by rw [exec, execLoopIteration])
  obtain rfl := Host.Outcome.next.inj he
  have hx := hv.ground (by rw [hc]; rfl)
  exact hv.loop hm (by rw [hc]; rfl) ⟨_, _, _, _, _, _, _, rfl⟩ hm rfl rfl (absurd hx)

theorem inv_loopWdtReset (hc : s.cont = [.op .wdtReset, .op .translatePoll, .loopOut]) : Inv t := by
  have he := h.called hc rfl (by rw [exec, execWdtReset])
  obtain rfl := Host.Outcome.next.inj he
  have hx := hv.ground (by rw [hc]; rfl)
  exact hv.loop hm (by rw [hc]; rfl) ⟨_, _, _, _, _, _, _, rfl⟩ hm rfl rfl (absurd hx)

theorem inv_loopPoll (hc : s.cont = [.op .translatePoll, .loopOut]) : Inv t := by
  have he := h.called hc rfl (by rw [exec, execTranslatePoll])
  obtain rfl := Host.Outcome.next.inj he
  exact hv.loop hm (by rw [hc]; rfl) ⟨_, _, _, _, _, _, _, rfl⟩ hm rfl rfl (absurd rfl)

/-- The first byte of a call, or none (R163, R240). -/
theorem inv_loopRecv (hc : s.cont = [.op .ps2RecvNonblocking, .xlAwait, .loopOut]) : Inv t := by
  have hx := hv.ground (by rw [hc]; rfl)
  have hq : quietCont s.cont = true := by rw [hc]; rfl
  obtain rfl | ⟨h0, v, rfl⟩ := h.received (b := false) hv.atomic hc
  · exact hv.loop hm hq ⟨_, _, _, _, _, _, _, rfl⟩ hm rfl rfl (absurd hx)
  · exact (hv.popped h0).loop hm hq ⟨_, _, _, _, _, _, _, rfl⟩ hm rfl rfl (absurd hx)

/-- A further byte of a sequence: the call waits for it (R164, R240). -/
theorem inv_loopRecvBlocking (hc : s.cont = [.op .ps2RecvBlocking, .xlAwait, .loopOut]) : Inv t := by
  have hq : quietCont s.cont = true := by rw [hc]; rfl
  obtain rfl | ⟨h0, v, rfl⟩ := h.received (b := true) hv.atomic hc
  · exact hv
  · exact (hv.popped h0).loop hm hq ⟨_, _, _, _, _, _, _, rfl⟩ hm rfl rfl (fun _ => rfl)

theorem inv_loopByte {r : Option Byte} (hc : s.cont = [.xlByte r, .loopOut]) : Inv t := by
  obtain ⟨i, hd, he⟩ := h
  rw [mainDue_cons hc] at hd
  exact (translator_move (translates_of_byte hd) hc he).inv hv hm (by rw [hc]; rfl)

theorem inv_loopEntry {e : Byte} (hc : s.cont = [.xlEntry e, .loopOut]) : Inv t := by
  obtain ⟨i, hd, he⟩ := h
  rw [mainDue_cons hc] at hd
  exact (translator_move (translates_of_entry hd) hc he).inv hv hm (by rw [hc]; rfl)

/-- The writer takes the byte: bit 7 is set, so a write is due, and it puts the byte on the data lines (R291, R294). -/
theorem inv_loopByteOut {a : Byte} (hc : s.cont = [.a2Byte a]) (ha : entryValid a = true) : Inv t := by
  have hd : dueAt s.params s.xlState (.a2Byte a) = .instr (.a2Write (a.extractLsb' 0 7)) := by
    simp only [dueAt, decode, byteRow_toNat]
    exact if_pos ha
  have he := h.called hc hd (by rw [exec, execA2Write])
  obtain rfl := Host.Outcome.next.inj he
  have hn := hv.control.strobe
  rw [mainTop_cons hc] at hn
  exact hv.write hm ⟨_, _, _, _, _, _, _, _, _, _, rfl⟩ hm rfl hn rfl (hv.ground (by rw [hc]; rfl))

/-- The steps of `a2_write` after the data is set: the lines hold the byte, the strobe falls and rises (R291). -/
theorem inv_loopWriter {p : Point} {c : BitVec 7} (hc : s.cont = [p])
    (hp : p = .a2Setup c ∨ p = .a2Fall c ∨ p = .a2Hold c ∨ p = .a2Rise c) : Inv t := by
  have hn := hv.control.strobe
  have hd := hv.control.held
  rw [dataHeld, mainTop_cons hc] at hd
  rw [mainTop_cons hc] at hn
  rcases hp with rfl | rfl | rfl | rfl
  all_goals
    have hx := hv.ground (by rw [hc]; rfl)
    have he := h.called hc rfl (by rw [exec, execA2Write])
    obtain rfl := Host.Outcome.next.inj he
  · exact hv.write hm ⟨_, _, _, _, _, _, _, _, _, _, rfl⟩ hm rfl hn hd hx
  · exact hv.write hm ⟨_, _, _, _, _, _, _, _, _, _, rfl⟩ hm rfl rfl hd hx
  · exact hv.write hm ⟨_, _, _, _, _, _, _, _, _, _, rfl⟩ hm rfl hn hd hx
  · have htop := mainTop_loop (s := { s with cont := [], a2StrobeN := true }) rfl hm
    exact hv.write hm ⟨_, _, _, _, _, _, _, _, _, _, rfl⟩ hm rfl (by rw [htop]; rfl) (by rw [dataHeld, htop]; trivial) hx

/-- MAIN's steps in the loop, by the shapes of its continuation. -/
theorem inv_loop : Inv t := by
  have hs : loopShape s.cont = true := (controlShape_loop hm).symm.trans hv.control.shape
  unfold loopShape at hs
  split at hs
  case h_1 hc => exact inv_loopIteration hv hm h hc
  case h_2 hc => exact inv_loopWdtReset hv hm h hc
  case h_3 hc => exact inv_loopPoll hv hm h hc
  case h_4 hc => exact inv_loopRecv hv hm h hc
  case h_5 hc => exact inv_loopRecvBlocking hv hm h hc
  case h_6 hc => exact inv_loopByte hv hm h hc
  case h_7 hc => exact inv_loopEntry hv hm h hc
  case h_8 hc => exact inv_loopByteOut hv hm h hc hs
  case h_9 hc => exact inv_loopWriter hv hm h hc (.inl rfl)
  case h_10 hc => exact inv_loopWriter hv hm h hc (.inr (.inl rfl))
  case h_11 hc => exact inv_loopWriter hv hm h hc (.inr (.inr (.inl rfl)))
  case h_12 hc => exact inv_loopWriter hv hm h hc (.inr (.inr (.inr rfl)))
  case h_13 => cases hs
end

end Sys2Proof.Machine
end

section
/-! MAIN's steps during initialisation and startup keep the invariant, and with them every step (R180, R300, R302). -/

namespace Sys2Proof.Machine

open Sys2Proof

/-! ## The startup commands, outside a send -/

theorem controlShape_startup {s : State} {n : Nat} (hm : s.mainPhase = .startup n) :
    controlShape s = startupShape s.cont := by
  simp only [controlShape, hm]

/-- The translator is not called during startup. -/
theorem xlInside_startup {k : List Point} (h : startupShape k = true) : xlInside k = false := by
  unfold xlInside
  split
  case h_3 => rfl
  all_goals cases h

theorem exchangeRest_eq {k : List Point} (h : exchangeRest k = true) :
    ∃ c f, k = [.op .txSettle, .op .ps2RecvBlocking, .cmdAwait c f, .startupNext] := by
  unfold exchangeRest at h
  split at h
  · exact ⟨_, _, rfl⟩
  · cases h

/-- Each startup command is one of the three configuration commands, so a call of it has a startup shape (R302). -/
theorem startupShape_command {p : Params} {n : Nat} {c : Instr} (h : (startupCommands p)[n]? = some c) :
    startupShape [.op c, .startupNext] = true ∧ quietCont [.op c, .startupNext] = true := by
  have hmem := List.mem_of_getElem? h
  simp only [startupCommands, List.mem_append, List.mem_map, List.mem_cons, List.not_mem_nil, or_false] at hmem
  rcases hmem with ⟨_, -, rfl⟩ | rfl | rfl <;> exact ⟨rfl, rfl⟩

/-- What is due at a response: its code, or the call that has received another byte (R211, R212). -/
theorem dueAt_cmdResp (p : Params) (x : XlState) (c : Cmd) (f : Bool) (r : Byte) : dueAt p x (.cmdResp c f r)
    = .instr (if r = p.respAck then .respAck else if r = p.respResend then .respResend
        else .kbdCommand c.cmd c.param c.legal) := by
  simp only [dueAt, decode, byteRow_toNat, respRow]
  split_ifs <;> rfl

section
variable {s t : State} {n : Nat} (hv : Inv s) (hm : s.mainPhase = .startup n)
include hv hm

theorem Inv.startup_ground : s.xlState = .ground :=
  hv.ground (xlInside_startup ((controlShape_startup hm).symm.trans hv.control.shape))

/-- The rule of `Inv.quiet` during startup. -/
theorem Inv.startup {m : Nat} (hq : quietCont s.cont = true) (hw : QuietWrites s t) (hm' : t.mainPhase = .startup m)
    (hs : startupShape t.cont = true) (hq' : quietCont t.cont = true) (hx : t.xlState = .ground) : Inv t :=
  hv.quiet (by simp [hm]) hq hw (by simp [hm']) ((controlShape_startup hm').trans hs) hq' (absurd hx)

variable (h : MainStep s t)
include h

/-- The next command is issued, or after the last the loop is entered (R302). -/
theorem inv_startup (hc : s.cont = []) : Inv t := by
  have hx := hv.startup_ground hm
  have hq : quietCont s.cont = true := by rw [hc]; rfl
  have he := h.due_nil hc (by rw [mainTop_nil hc, hm]) (by rw [exec, execStartup])
  simp only [hm] at he
  split at he
  · obtain ⟨hs, hq'⟩ := startupShape_command ‹_›
    obtain rfl := Host.Outcome.next.inj he
    exact hv.startup hm hq ⟨_, _, _, _, _, _, _, rfl⟩ rfl hs hq' hx
  · obtain rfl := Host.Outcome.next.inj he
    exact hv.quiet (by simp [hm]) hq ⟨_, _, _, _, _, _, _, rfl⟩ nofun rfl rfl (absurd hx)

/-- A command has returned: the next one follows (R303). -/
theorem inv_startupNext (hc : s.cont = [.startupNext]) : Inv t := by
  have he := h.due hc rfl (by rw [exec, execStartup])
  simp only [hm] at he
  obtain rfl := Host.Outcome.next.inj he
  exact hv.startup hm (by rw [hc]; rfl) ⟨_, _, _, _, _, _, _, rfl⟩ rfl rfl rfl (hv.startup_ground hm)

/-- A configuration command calls `kbd_command` with its operands (R214 to R216). -/
theorem inv_configCommand {i : Instr} {c : State → Byte} {v : Byte} {l : LegalSet}
    (hc : s.cont = [.op i, .startupNext]) (hq : quietCont s.cont = true)
    (hi : exec i s = whenCalled i s fun _ t => .next (t.goto (.op (.kbdCommand (c t) v l)))) : Inv t := by
  have he := h.called hc rfl hi
  obtain rfl := Host.Outcome.next.inj he
  exact hv.startup hm hq ⟨_, _, _, _, _, _, _, rfl⟩ hm rfl rfl (hv.startup_ground hm)

/-- The exchange begins, or an illegal parameter is refused at once (R211, R213). -/
theorem inv_kbdCommand {c v : Byte} {l : LegalSet} (hc : s.cont = [.op (.kbdCommand c v l), .startupNext]) :
    Inv t := by
  have hx := hv.startup_ground hm
  have hq : quietCont s.cont = true := by rw [hc]; rfl
  have he := h.called hc rfl (by rw [exec, execKbdCommand])
  simp only at he
  split at he <;> obtain rfl := Host.Outcome.next.inj he
  · exact hv.startup hm hq ⟨_, _, _, _, _, _, _, rfl⟩ hm rfl rfl hx
  · exact hv.startup hm hq ⟨_, _, _, _, _, _, _, rfl⟩ hm rfl rfl hx

theorem inv_ps2Send {b : Byte} {k : List Point} (hc : s.cont = .op (.ps2Send b) :: k) (hk : exchangeRest k = true) :
    Inv t := by
  have he := h.called hc rfl (by rw [exec, execPs2Send])
  obtain rfl := Host.Outcome.next.inj he
  obtain ⟨c, f, rfl⟩ := exchangeRest_eq hk
  exact hv.startup hm (by rw [hc]; rfl) ⟨_, _, _, _, _, _, _, rfl⟩ hm rfl rfl (hv.startup_ground hm)

theorem inv_txSettle {c : Cmd} {f : Bool}
    (hc : s.cont = [.op .txSettle, .op .ps2RecvBlocking, .cmdAwait c f, .startupNext]) : Inv t := by
  have he := h.due hc rfl (by rw [exec, execTxSettle])
  obtain rfl := Host.Outcome.next.inj he
  exact hv.startup hm (by rw [hc]; rfl) ⟨_, _, _, _, _, _, _, rfl⟩ hm rfl rfl (hv.startup_ground hm)

theorem inv_startupRecv {c : Cmd} {f : Bool} (hc : s.cont = [.op .ps2RecvBlocking, .cmdAwait c f, .startupNext]) :
    Inv t := by
  obtain rfl | ⟨h0, v, rfl⟩ := h.received (b := true) hv.atomic hc
  · exact hv
  · exact (hv.popped h0).startup hm (by rw [hc]; rfl) ⟨_, _, _, _, _, _, _, rfl⟩ hm rfl rfl (hv.startup_ground hm)

/-- A response is inspected: the parameter byte is sent, or the command returns (R211, R212). -/
theorem inv_cmdResp {c : Cmd} {f : Bool} {r : Byte} (hc : s.cont = [.cmdResp c f r, .startupNext]) : Inv t := by
  have hx := hv.startup_ground hm
  have hq : quietCont s.cont = true := by rw [hc]; rfl
  have hd := dueAt_cmdResp s.params s.xlState c f r
  split at hd
  · have he := h.due hc hd (by rw [exec, execRespAck])
    cases f <;> obtain rfl := Host.Outcome.next.inj he
    · exact hv.startup hm hq ⟨_, _, _, _, _, _, _, rfl⟩ hm rfl rfl hx
    · exact hv.startup hm hq ⟨_, _, _, _, _, _, _, rfl⟩ hm rfl rfl hx
  · split at hd
    · have he := h.due hc hd (by rw [exec, execRespResend])
      obtain rfl := Host.Outcome.next.inj he
      exact hv.startup hm hq ⟨_, _, _, _, _, _, _, rfl⟩ hm rfl rfl hx
    · have he := h.called hc hd (by rw [exec, execKbdCommand])
      obtain rfl := Host.Outcome.next.inj he
      exact hv.startup hm hq ⟨_, _, _, _, _, _, _, rfl⟩ hm rfl rfl hx
end

/-! ## Inside a send -/

theorem Point.outsideWriter {p : Point} (h : p.inSend = true) : p.inWriter = false := by
  unfold Point.inSend at h
  split at h
  case h_13 => cases h
  all_goals rfl

theorem mainTop_head {s : State} {p : Point} (h : s.cont.head? = some p) : mainTop s = p := by
  obtain ⟨k, hc⟩ := List.head?_eq_some_iff.mp h
  exact mainTop_cons hc

/-- A send is the last of the startup shapes. -/
theorem startupShape_send {k : List Point} (h : sendShape k = true) : startupShape k = true := by
  unfold startupShape
  split
  case h_11 => exact h
  all_goals cases h

/-- After a bit come the next bit and the release of the data line: interrupts off, the clock free, data may be low. -/
theorem afterBit_head {j : Fin 10} {k : List Point} (h : afterBit j k = true) :
    ∃ p, k.head? = some p ∧ p.inSend = true ∧ p.holdsClock = false ∧ p.mayHoldData = true := by
  unfold afterBit at h
  split at h
  · exact ⟨_, rfl, rfl, rfl, rfl⟩
  · exact ⟨_, rfl, rfl, rfl, rfl⟩
  · cases h

/-- What MAIN writes inside a send: its continuation and the two drives. -/
def SendWrites (s t : State) : Prop :=
  ∃ c kd dd, t = { s with cont := c, ps2ClkDrive := kd, ps2DataDrive := dd }

/-- What the control invariants say of the block's lines at a known control point. -/
theorem ControlOk.lines {s : State} {p : Point} {k : List Point} (h : ControlOk s) (hc : s.cont = p :: k) :
    (mainTop s).inSend = p.inSend ∧ s.ps2ClkDrive = (if p.holdsClock then .low else .released)
      ∧ (p.mayHoldData = false → s.ps2DataDrive = .released) := by
  have hclk := h.clock
  have hdata := h.data
  rw [mainTop_cons hc] at hclk hdata ⊢
  exact ⟨rfl, hclk, hdata⟩

section
variable {s t : State} {n : Nat} (hv : Inv s) (hm : s.mainPhase = .startup n)
include hv hm

/-- A step inside a send: interrupts stay off and the receiver in Idle, so the control point and the two drives are to
check (R74, R181 to R194). -/
theorem Inv.send {q : Point} (ho : (mainTop s).inSend = true) (hw : SendWrites s t) (hs : sendShape t.cont = true)
    (htop : mainTop t = q) (hq : q.inSend = true)
    (hclk : t.ps2ClkDrive = if q.holdsClock then .low else .released)
    (hdata : q.mayHoldData = false → t.ps2DataDrive = .released) : Inv t := by
  have hx := hv.startup_ground hm
  have hoff : s.irqEnable = false := by rw [hv.control.enable, ho, Bool.not_true, Bool.and_false]
  have hstrobe : s.a2StrobeN = true := by
    rw [hv.control.strobe, Point.strobeHigh_of_quiet (Point.outsideWriter ho)]
    rfl
  have hidle := hv.control.receiver ho
  have hpend := hv.control.pending
  subst htop
  obtain ⟨_, _, _, rfl⟩ := hw
  exact {
    params := hv.params
    atomic := hv.atomic
    buffer := hv.buffer.congr rfl rfl rfl rfl rfl
    receiver := hv.receiver.congr rfl rfl rfl rfl
    control := {
      shape := by rw [controlShape_startup (by exact hm)]; exact startupShape_send hs
      enable := by rw [hq, Bool.not_true, Bool.and_false]; exact hoff
      receiver := fun _ => hidle
      clock := hclk
      data := hdata
      pending := hpend
      strobe := by rw [Point.strobeHigh_of_quiet (Point.outsideWriter hq)]; exact hstrobe
      held := dataHeld_of_quiet (Point.outsideWriter hq)
      translator := absurd hx } }

variable (h : MainStep s t)
include h

/-- TX.PREPARE: interrupts off, the receiver to Idle (R181). -/
theorem inv_txPrepare {k : List Point} (hc : s.cont = .op .txPrepare :: k) (hk : k.head? = some (.op .txInhibit))
    (hs : sendShape k = true) : Inv t := by
  have hx := hv.startup_ground hm
  have hq : quietCont s.cont = true := by rw [hc]; rfl
  obtain ⟨-, hclk, hdata, hpend⟩ := hv.control.linesFree (by simp [hm]) (mainTop_quiet hq).1
  have hstrobe := hv.control.strobe
  rw [mainTop_cons hc] at hstrobe
  have he := h.due hc rfl (by rw [exec, execTxPrepare])
  obtain rfl := Host.Outcome.next.inj he
  have htop := mainTop_head (s := { s with cont := k, irqEnable := false, rxState := .idle }) hk
  exact {
    params := hv.params
    atomic := hv.atomic
    buffer := hv.buffer.congr rfl rfl rfl rfl rfl
    receiver := .quiet (.inl rfl) hv.receiver.bitcnt hv.receiver.parity
    control := {
      shape := by rw [controlShape_startup (by exact hm)]; exact startupShape_send hs
      enable := by rw [htop]; exact (Bool.and_false _).symm
      receiver := fun _ => rfl
      clock := by rw [htop]; exact hclk
      data := fun _ => hdata
      pending := fun hp => absurd (hpend.symm.trans hp) Bool.false_ne_true
      strobe := by rw [htop]; exact hstrobe
      held := dataHeld_of_quiet (by rw [htop]; rfl)
      translator := absurd hx } }

/-- TX.INHIBIT pulls the clock low with interrupts off: a fall is lost or remembered (R41, R182). -/
theorem inv_txInhibit {k : List Point} (hc : s.cont = .op .txInhibit :: k) (hk : k.head? = some (.op .txRtsData))
    (hs : sendShape k = true) : Inv t := by
  have ho : (mainTop s).inSend = true := by rw [mainTop_cons hc]; rfl
  have hdata := hv.control.data
  rw [mainTop_cons hc] at hdata
  have hv' : Inv (({ s with cont := k, ps2ClkDrive := .low } : State).goto .txInhibitHold) := by
    refine hv.send hm ho ⟨_, _, _, rfl⟩ ?_ rfl rfl rfl hdata
    show (k.head? == some (.op .txRtsData) && sendShape k) = true
    rw [hk, hs]
    rfl
  have he := h.due hc rfl (by rw [exec, execTxInhibit])
  have hoff := hv.control.enable
  rw [ho, Bool.not_true, Bool.and_false] at hoff
  rcases clockChanged_next he with ⟨-, hi, -⟩ | ⟨-, -, rfl⟩ | ⟨-, rfl⟩
  · exact absurd (hoff.symm.trans hi) Bool.false_ne_true
  · exact hv'.missEdge hoff
  · exact hv'

/-- The end of the delay (R182). -/
theorem inv_txInhibitHold {k : List Point} (hc : s.cont = .txInhibitHold :: k) (hk : k.head? = some (.op .txRtsData))
    (hs : sendShape k = true) : Inv t := by
  obtain ⟨ho, hclk, hdata⟩ := hv.control.lines hc
  have he := h.due hc rfl (by rw [exec, execTxInhibit])
  obtain rfl := Host.Outcome.next.inj he
  exact hv.send hm (ho.trans rfl) ⟨_, _, _, rfl⟩ hs (mainTop_head hk) rfl hclk hdata

/-- TX.RTS.DATA: the data line low while the clock is held (R183). -/
theorem inv_txRtsData {k : List Point} (hc : s.cont = .op .txRtsData :: k) (hk : k.head? = some (.op .txRtsRelease))
    (hs : sendShape k = true) : Inv t := by
  obtain ⟨ho, hclk, -⟩ := hv.control.lines hc
  have he := h.due hc rfl (by rw [exec, execTxRtsData])
  obtain rfl := Host.Outcome.next.inj he
  exact hv.send hm (ho.trans rfl) ⟨_, _, _, rfl⟩ hs (mainTop_head hk) rfl hclk nofun

/-- TX.RTS.RELEASE: the clock is given back to the keyboard (R184). -/
theorem inv_txRtsRelease {k : List Point} {j : Fin 10} {v : Bool} (hc : s.cont = .op .txRtsRelease :: k)
    (hk : k.head? = some (.op (.txBit j v))) (hs : sendShape k = true) : Inv t := by
  obtain ⟨ho, -, -⟩ := hv.control.lines hc
  have he := h.due hc rfl (by rw [exec, execTxRtsRelease])
  obtain rfl := Host.Outcome.next.inj he
  exact hv.send hm (ho.trans rfl) ⟨_, _, _, rfl⟩ hs (mainTop_head hk) rfl rfl nofun

/-- TX.BIT, the first wait: the clock low (R185). -/
theorem inv_txBit {k : List Point} {j : Fin 10} {v : Bool} (hc : s.cont = .op (.txBit j v) :: k)
    (hs : sendShape (.txBitPlace j v :: k) = true) : Inv t := by
  obtain ⟨ho, hclk, -⟩ := hv.control.lines hc
  have he := h.due hc rfl (by rw [exec, execTxBit])
  simp only at he
  split at he <;> obtain rfl := Host.Outcome.next.inj he
  · exact hv
  · exact hv.send hm (ho.trans rfl) ⟨_, _, _, rfl⟩ hs rfl rfl hclk nofun

/-- The level is placed (R187). -/
theorem inv_txBitPlace {k : List Point} {j : Fin 10} {v : Bool} (hc : s.cont = .txBitPlace j v :: k)
    (hs : sendShape (.txBitAwaitHigh j v :: k) = true) : Inv t := by
  obtain ⟨ho, hclk, -⟩ := hv.control.lines hc
  have he := h.due hc rfl (by rw [exec, execTxBit])
  obtain rfl := Host.Outcome.next.inj he
  exact hv.send hm (ho.trans rfl) ⟨_, _, _, rfl⟩ hs rfl rfl hclk nofun

/-- The second wait: the clock high, then the next bit or the release of the data line (R185). -/
theorem inv_txBitAwaitHigh {k : List Point} {j : Fin 10} {v : Bool} (hc : s.cont = .txBitAwaitHigh j v :: k)
    (hk : afterBit j k = true) (hs : sendShape k = true) : Inv t := by
  obtain ⟨ho, hclk, -⟩ := hv.control.lines hc
  have he := h.due hc rfl (by rw [exec, execTxBit])
  simp only at he
  split at he <;> obtain rfl := Host.Outcome.next.inj he
  · obtain ⟨q, hq, hin, hfree, hlow⟩ := afterBit_head hk
    exact hv.send hm (ho.trans rfl) ⟨_, _, _, rfl⟩ hs (mainTop_head hq) hin (by rw [hfree]; exact hclk)
      (fun hf => absurd (hlow.symm.trans hf) nofun)
  · exact hv

/-- TX.RELEASE.DATA (R188). -/
theorem inv_txReleaseData {k : List Point} (hc : s.cont = .op .txReleaseData :: k) (hk : k.head? = some (.op .txAck))
    (hs : sendShape k = true) : Inv t := by
  obtain ⟨ho, hclk, -⟩ := hv.control.lines hc
  have he := h.due hc rfl (by rw [exec, execTxReleaseData])
  obtain rfl := Host.Outcome.next.inj he
  exact hv.send hm (ho.trans rfl) ⟨_, _, _, rfl⟩ hs (mainTop_head hk) rfl hclk (fun _ => rfl)

/-- TX.ACK, the wait for the clock low (R189). -/
theorem inv_txAck {k : List Point} (hc : s.cont = .op .txAck :: k) (hs : exchangeRest k = true) : Inv t := by
  obtain ⟨ho, hclk, hdata⟩ := hv.control.lines hc
  have he := h.due hc rfl (by rw [exec, execTxAck])
  simp only at he
  split at he <;> obtain rfl := Host.Outcome.next.inj he
  · exact hv
  · exact hv.send hm (ho.trans rfl) ⟨_, _, _, rfl⟩ hs rfl rfl hclk hdata

/-- The data line is sampled; the end of the acknowledge and TX.FINISH follow (R189 to R191). -/
theorem inv_txAckSample {k : List Point} (hc : s.cont = .txAckSample :: k) (hs : exchangeRest k = true) : Inv t := by
  obtain ⟨ho, hclk, hdata⟩ := hv.control.lines hc
  have he := h.due hc rfl (by rw [exec, execTxAck])
  obtain rfl := Host.Outcome.next.inj he
  exact hv.send hm (ho.trans rfl) ⟨_, _, _, rfl⟩ hs rfl rfl hclk hdata

/-- TX.ACK.END, the wait for both lines high (R190). -/
theorem inv_txAckEnd {k : List Point} {a : Bool} (hc : s.cont = .op .txAckEnd :: .op (.txFinish a) :: k)
    (hs : exchangeRest k = true) : Inv t := by
  obtain ⟨ho, hclk, hdata⟩ := hv.control.lines hc
  have he := h.due hc rfl (by rw [exec, execTxAckEnd])
  split at he <;> obtain rfl := Host.Outcome.next.inj he
  · exact hv.send hm (ho.trans rfl) ⟨_, _, _, rfl⟩ hs rfl rfl hclk hdata
  · exact hv

/-- TX.FINISH: interrupts on and the flag returned; the receiver then takes an edge that was remembered (R41, R191). -/
theorem inv_txFinish {k : List Point} {a : Bool} (hc : s.cont = .op (.txFinish a) :: k) (hs : exchangeRest k = true) :
    Inv t := by
  obtain ⟨ho, hclk, hdata⟩ := hv.control.lines hc
  have hx := hv.startup_ground hm
  have hstrobe := hv.control.strobe
  rw [mainTop_cons hc] at hstrobe
  have he := h.due hc rfl (by rw [exec, execTxFinish])
  obtain ⟨c, f, rfl⟩ := exchangeRest_eq hs
  have hv' : Inv (returnTo (.flag a) { s with
      cont := [.op .txSettle, .op .ps2RecvBlocking, .cmdAwait c f, .startupNext], irqEnable := true
      irqPending := false }) := {
    params := hv.params
    atomic := hv.atomic
    buffer := hv.buffer.congr rfl rfl rfl rfl rfl
    receiver := hv.receiver.congr rfl rfl rfl rfl
    control := Settled.controlOk
      ⟨by rw [returnTo_mainPhase]; simp [hm], controlShape_startup (by exact hm), rfl, hstrobe, trivial, absurd hx⟩
      ⟨rfl, hclk, hdata rfl, rfl⟩ }
  simp only [returnTo_flag] at he hv'
  split at he
  · exact takeEdge_inv he rfl hv'
  · rename_i hn
    obtain rfl := Host.Outcome.next.inj he
    have hp : s.irqPending = false := by
      by_contra hp
      have hp := eq_true_of_ne_false hp
      exact hn (by rw [Bool.and_eq_true]; exact ⟨(hv.control.pending hp).1, hp⟩)
    have hs' : s = { s with irqPending := false } := by rw [← hp]
    rw [hs']
    exact hv'
end

/-! ## Every step -/

section
variable {s t : State} {n : Nat} (hv : Inv s) (hm : s.mainPhase = .startup n) (h : MainStep s t)
include hv hm h

/-- MAIN's steps with a send under way, by the point of the send (R180). -/
theorem inv_send {k : List Point} (hc : s.cont = k) (hs : sendShape k = true) : Inv t := by
  unfold sendShape at hs
  split at hs
  case h_1 =>
    obtain ⟨hk, hs⟩ := Bool.and_eq_true_iff.mp hs
    exact inv_txPrepare hv hm h hc (eq_of_beq hk) hs
  case h_2 =>
    obtain ⟨hk, hs⟩ := Bool.and_eq_true_iff.mp hs
    exact inv_txInhibit hv hm h hc (eq_of_beq hk) hs
  case h_3 =>
    obtain ⟨hk, hs⟩ := Bool.and_eq_true_iff.mp hs
    exact inv_txInhibitHold hv hm h hc (eq_of_beq hk) hs
  case h_4 =>
    obtain ⟨hk, hs⟩ := Bool.and_eq_true_iff.mp hs
    exact inv_txRtsData hv hm h hc (eq_of_beq hk) hs
  case h_5 k =>
    obtain ⟨hk, hs⟩ := Bool.and_eq_true_iff.mp hs
    obtain ⟨j, v, hk⟩ : ∃ j v, k.head? = some (.op (.txBit j v)) := by
      split at hk
      · exact ⟨_, _, rfl⟩
      · cases hk
    exact inv_txRtsRelease hv hm h hc hk hs
  case h_6 => exact inv_txBit hv hm h hc hs
  case h_7 => exact inv_txBitPlace hv hm h hc hs
  case h_8 =>
    obtain ⟨hk, hs⟩ := Bool.and_eq_true_iff.mp hs
    exact inv_txBitAwaitHigh hv hm h hc hk hs
  case h_9 =>
    obtain ⟨hk, hs⟩ := Bool.and_eq_true_iff.mp hs
    exact inv_txReleaseData hv hm h hc (eq_of_beq hk) hs
  case h_10 => exact inv_txAck hv hm h hc hs
  case h_11 => exact inv_txAckSample hv hm h hc hs
  case h_12 => exact inv_txAckEnd hv hm h hc hs
  case h_13 => exact inv_txFinish hv hm h hc hs
  case h_14 => cases hs

/-- MAIN's steps during startup, by the shapes of its continuation (R302). -/
theorem inv_startupPhase : Inv t := by
  have hs : startupShape s.cont = true := (controlShape_startup hm).symm.trans hv.control.shape
  unfold startupShape at hs
  split at hs
  case h_1 hc => exact inv_startup hv hm h hc
  case h_2 hc => exact inv_startupNext hv hm h hc
  case h_3 hc => exact inv_configCommand hv hm h hc (by rw [hc]; rfl) (by rw [exec, execCmdSetLeds])
  case h_4 hc => exact inv_configCommand hv hm h hc (by rw [hc]; rfl) (by rw [exec, execCmdSetTypematic])
  case h_5 hc => exact inv_configCommand hv hm h hc (by rw [hc]; rfl) (by rw [exec, execCmdSetScanset])
  case h_6 hc => exact inv_kbdCommand hv hm h hc
  case h_7 hc => exact inv_ps2Send hv hm h hc hs
  case h_8 hc => exact inv_txSettle hv hm h hc
  case h_9 hc => exact inv_startupRecv hv hm h hc
  case h_10 hc => exact inv_cmdResp hv hm h hc
  case h_11 => exact inv_send hv hm h rfl hs
end

/-- Initialisation empties the buffer, frees the lines and goes on to the first startup command (R300). -/
theorem inv_init {s t : State} (hv : Inv s) (hm : s.mainPhase = .init) (h : MainStep s t) : Inv t := by
  have hc : s.cont = [] := by
    have hs := hv.control.shape
    simp only [controlShape, hm] at hs
    exact List.isEmpty_iff.mp hs
  have he := h.due_nil hc (by rw [mainTop_nil hc, hm]) (by rw [exec, execInit])
  rw [if_pos hm] at he
  obtain rfl := Host.Outcome.next.inj he
  exact {
    params := hv.params
    atomic := hv.atomic
    buffer := .empty hv.buffer.canonical hv.buffer.inRange rfl rfl rfl (wf_bufCap hv.params)
    receiver := .quiet (.inl rfl) hv.receiver.bitcnt hv.receiver.parity
    control := Settled.controlOk ⟨nofun, rfl, rfl, rfl, trivial, absurd rfl⟩ ⟨rfl, rfl, rfl, rfl⟩ }

/-- MAIN's steps keep the invariant, phase by phase (R34). -/
theorem mainStep_inv {s t : State} (hv : Inv s) (h : MainStep s t) : Inv t := by
  cases hm : s.mainPhase with
  | init => exact inv_init hv hm h
  | startup n => exact inv_startupPhase hv hm h
  | loop => exact inv_loop hv hm h

/-- Settles O59, by the agent that moves: MAIN phase by phase, the keyboard's edges by the receiver's rules, the resets
anew; what is scheduled, the keyboard's lines and the watchdog's count are outside the invariant. -/
theorem everyStepKeepsTheInvariant : Obligations.EveryStepKeepsTheInvariant := by
  intro s t hv h
  have henv : ∀ r c d w, Inv { s with kbdClkDrive := c, kbdDataDrive := d, inputs := r, wdt := w } :=
    fun r c d w => hv.environment c d r w
  cases step_cases h with
  | main i r hs hd he => exact mainStep_inv (henv r s.kbdClkDrive s.kbdDataDrive s.wdt) ⟨i, hd, he⟩
  | edge r c d hs hi he => exact takeEdge_inv he hi (henv r c d s.wdt)
  | missed r c d hs hi ht => exact ht ▸ missEdge_eq (s.afterLines r c d) ▸ (henv r c d s.wdt).missEdge hi
  | quiet r c d hs ht => exact ht ▸ henv r c d s.wdt
  | frame r b hs he => exact kbdPulses_inv he (henv r s.kbdClkDrive s.kbdDataDrive s.wdt)
  | tick r hs ht => exact ht ▸ henv r s.kbdClkDrive s.kbdDataDrive (s.wdt + 1)
  | wdt r hs he =>
    obtain ⟨-, rfl⟩ := exec_writes he
    exact afterReset_inv hv.params hv.atomic
  | powerOn r hs ht => exact ht ▸ afterReset_inv hv.params hv.atomic

end Sys2Proof.Machine
end

section
/-! The receive buffer as a FIFO queue (R65, R73, R165), and the pop that is not atomic (R72, U6). Both forms of the
receive are treated as one, `popOperation b`, by what `exec` does at each of a pop's control points. -/

namespace Sys2Proof.Machine

open Sys2Proof

/-! ## The two forms of the receive -/

/-- Both forms of the receive are one operation, up to what they do on an empty buffer (R163, R164). -/
theorem exec_popOperation (b : Bool) (s : State) :
    exec (popOperation b) s = receive b s fun t =>
      if t.bufCount = 0 then .next (if b then t.goto (.op .ps2RecvBlocking) else returnTo (.opt none) t)
      else pop b t := by
  cases b <;> rfl

/-- On a buffer that is not empty a receive begins its pop. -/
theorem exec_popOperation_nonempty {s : State} {b : Bool} {k : List Point} (hm : MayCall (popOperation b) s k)
    (hc : 0 < s.bufCount) : exec (popOperation b) s = pop b { s with cont := k } := by
  rw [exec_popOperation, receive, whenCalled_may _ hm]
  exact if_neg (Nat.ne_of_gt hc)

/-! ## The queue -/

/-- A push with room appends its byte to the queue (R161). -/
theorem execBufPush_refines {s : State} (hk : BufOk s) (v : Byte) (hc : s.bufCount < s.params.bufCap) :
    ∃ t, execBufPush v s = .next t ∧ BufOk t ∧ t.queue = s.queue ++ [some v] := by
  refine ⟨_, ?_, hk.push v hc, queue_push hk v hc⟩
  rw [execBufPush, if_pos hc, push_eq v hk.wr]

/-- An atomic receive removes the oldest byte and returns it (R163, R164). -/
theorem exec_popOperation_refines {s : State} {b : Bool} {v : Byte} {q : List (Option Byte)} {k : List Point}
    (hk : BufOk s) (ha : s.params.bufPopAtomic = true) (hq : s.queue = some v :: q)
    (hm : MayCall (popOperation b) s k) :
    ∃ t, exec (popOperation b) s = .next t ∧ BufOk t ∧ t.queue = q ∧ t.ret = received b v := by
  obtain ⟨hc, hv, hrest⟩ := queue_head hk hq
  refine ⟨_, (exec_popOperation_nonempty hm hc).trans (pop_atomic b ha hk.rd hv), ?_, ?_, ?_⟩
  · exact (hk.pop hc).congr (returnTo_buf ..) (returnTo_bufWr ..) (returnTo_bufRd ..) (returnTo_bufCount ..)
      (returnTo_params ..)
  · rw [← hrest]
    exact queue_congr (returnTo_buf ..) (returnTo_bufRd ..) (returnTo_bufCount ..) (returnTo_params ..)
  · exact returnTo_ret ..

/-- Settles O19, by the modular arithmetic of the cursors: a push fills the cell behind the queue's last, a receive
takes the cell at its head. -/
theorem theBufferIsAFifoQueue : Obligations.TheBufferIsAFifoQueue := fun _ hk =>
  ⟨fun v hc => execBufPush_refines hk v hc,
    fun _ _ _ ha hq hm => exec_popOperation_refines (b := false) hk ha hq hm,
    fun _ _ _ ha hq hm => exec_popOperation_refines (b := true) hk ha hq hm⟩

/-! ## The pop that is not atomic -/

/-- The first step of a pop that is not atomic loads the data (R72). -/
theorem pop_split {s : State} {v : Byte} (b : Bool) (ha : s.params.bufPopAtomic = false)
    (hi : s.bufRd < s.params.bufCap) (hv : s.buf.read s.bufRd = some v) :
    pop b s = .next (s.goto (.popCount b v)) := by
  simp [pop, bufRead_some _ hi hv, ha]

/-- The second step loads the count. -/
theorem exec_popCount {s : State} {b : Bool} {v : Byte} {k : List Point} (h : s.cont = .popCount b v :: k) :
    exec (popOperation b) s = .next { s with cont := .popStore b v s.bufCount :: k } := by
  rw [exec_popOperation, receive, whenCalled_cons _ h rfl]
  rfl

/-- The third step stores the loaded count less one, whatever the count has become (U6). -/
theorem exec_popStore {s : State} {b : Bool} {v : Byte} {c : Nat} {k : List Point} (h : s.cont = .popStore b v c :: k) :
    exec (popOperation b) s = .next { s with bufCount := c - 1, cont := .popCursor b v :: k } := by
  rw [exec_popOperation, receive, whenCalled_cons _ h rfl]
  rfl

/-- The last step advances the read cursor and returns the data. -/
theorem exec_popCursor {s : State} {b : Bool} {v : Byte} {k : List Point} (h : s.cont = .popCursor b v :: k) :
    exec (popOperation b) s
      = .next (returnTo (received b v) { s with bufRd := (s.bufRd + 1) % s.params.bufCap, cont := k }) := by
  rw [exec_popOperation, receive, whenCalled_cons _ h rfl]
  rfl

/-- Settles O21, step by step: the count that is stored stands in the control point that the load left. -/
theorem splitPopStoresTheLoadedCount : Obligations.SplitPopStoresTheLoadedCount := fun _ b _ _ _ =>
  ⟨fun h ha hc hi hv => (exec_popOperation_nonempty (.inl h) hc).trans (pop_split b ha hi hv),
    exec_popCount, exec_popStore, exec_popCursor⟩

end Sys2Proof.Machine
end

section
/-! The parity bit (spec/30_encoding.md R95, R113), and what a whole valid frame leaves (R91, R137). -/

namespace Sys2Proof.Machine

open Sys2Proof

/-! ## The parity bit -/

/-- One more bit turns the evenness of a count exactly if it is 1. -/
theorem even_add_bit (n : Nat) (d : Bool) : decide ((n + d.toNat) % 2 = 0) = (decide (n % 2 = 0) ^^ d) := by
  cases d with
  | false => simp
  | true =>
    have h : (n + 1) % 2 = 0 ↔ ¬ n % 2 = 0 := by omega
    rw [Bool.toNat_true, Bool.xor_true, ← decide_not, decide_eq_decide, h]

/-- The parity bit is 1 exactly on a byte with an even count of 1 bits (R92, R95). -/
theorem parityBit_eq_even (b : Byte) : parityBit b = decide (ones b % 2 = 0) := by
  have h0 : decide ((b.getLsbD 0).toNat % 2 = 0) = (true ^^ b.getLsbD 0) := by
    simpa using even_add_bit 0 (b.getLsbD 0)
  rw [ones]
  simp only [even_add_bit, h0, parityBit]

theorem odd_ones_iff (b : Byte) (p : Bool) : (ones b + p.toNat) % 2 = 1 ↔ p = parityBit b := by
  rw [parityBit_eq_even]
  cases p with
  | false => rw [@eq_comm Bool, decide_eq_false_iff_not, Bool.toNat_false]; omega
  | true => rw [@eq_comm Bool, decide_eq_true_iff, Bool.toNat_true]; omega

theorem parityAccepts_iff (b : Byte) (p : Bool) : parityAccepts (ones b + p.toNat) = true ↔ p = parityBit b := by
  rw [parityAccepts, beq_iff_eq, odd_ones_iff]

/-- Settles O23, by the evenness of the count, bit by bit. -/
theorem parityBitMakesTheCountOdd : Obligations.ParityBitMakesTheCountOdd := fun b p =>
  ⟨rfl, odd_ones_iff b p, parityAccepts_iff b p⟩

/-! ## A valid frame -/

/-- A start bit and the bits of a byte: the accumulator holds the byte, the sum its count of 1 bits (R91, R92). -/
theorem pulses_byte {s : State} (h : Listening s) (hx : s.rxState = .idle) (b : Byte) :
    kbdPulses (frameLevels b) s
      = kbdPulses [parityBit b, true] (s.afterPulse (b.getLsbD 7) .expectingParity b 8 (ones b)) := by
  rw [frameLevels, pulses_nine h hx, ← toNat_eq_bits, BitVec.ofNat_toNat, BitVec.setWidth_eq, ones]

/-- The parity bit of the byte received is accepted (R134). -/
theorem pulse_parityBit {s : State} (h : Listening s) (d : Bool) (b : Byte) (n : Nat) :
    kbdPulse (parityBit b) (s.afterPulse d .expectingParity b n (ones b))
      = .next (s.afterPulse (parityBit b) .expectingStop b n (ones b + (parityBit b).toNat)) := by
  have ha : parityAccepts (ones b + (parityBit b).toNat) = true := (parityAccepts_iff b _).mpr rfl
  rw [pulse_parity (afterPulse_listening h ..) rfl]
  simp only [State.afterPulse, ha, if_true]

/-- Settles O14, pulse by pulse: the start bit and the data bits, the parity bit, the stop bit. -/
theorem validFrameYieldsItsByte : Obligations.ValidFrameYieldsItsByte := by
  intro s b hl hx hc hw
  rw [exec, execKbdFrame, pulses_byte hl hx, kbdPulses, pulse_parityBit hl, andThen_next, kbdPulses,
    pulse_stop (afterPulse_listening hl ..) rfl hc hw, ← hx]
  rfl

end Sys2Proof.Machine
end

section
/-! The converse of `decode_encode`: a word that decodes is its instruction's own word, format by format; the classes
of a scan-code byte in Ground (spec/30_encoding.md R98). -/

namespace Sys2Proof

open Machine

/-- Under the format `f` the word `w` is the own word of the well-formed instruction `i`, which is not the BLOCKLIST row
that several codes share (log entry 6). -/
structure OwnWord (p : Params) (f : Format) (w : Nat) (i : Instr) : Prop where
  wellFormed : WellFormed p i = true
  notShared : i ≠ .xlBlocklist35
  encode : encode p i = (f, w)

/-! ## Frames and event words -/

theorem rxevRow_ownWord {p : Params} {w : Nat} {i : Instr} (h : rxevRow w = .instr i) : OwnWord p .rxev w i := by
  have hw : 2 * (w / 2) + (w.testBit 0).toNat = w := by rw [Nat.toNat_testBit]; omega
  rw [← hw]
  unfold rxevRow at h
  generalize w.testBit 0 = d at h ⊢
  generalize w / 2 = n at h ⊢
  match n, d, h with
  | 0, true, h | 0, false, h | 1, true, h | 1, false, h | 2, true, h | 2, false, h | 3, true, h | 3, false, h
  | 4, _, h | 5, _, h | 6, _, h | 7, _, h => cases h; exact ⟨rfl, nofun, rfl⟩
  | _ + 8, _, h => cases h

theorem d2hRow_ownWord {p : Params} {w : Nat} {i : Instr} (h : d2hRow w = .instr i) : OwnWord p .d2h w i := by
  dsimp only [d2hRow] at h
  split_ifs at h with h11 h0 h9 h10
  cases h
  exact ⟨rfl, nofun, by
    rw [encode, frame_word (by omega) (by simpa using h0) (by simpa using h9) (by simpa using h10)]⟩

theorem h2dRow_ownWord {p : Params} {w : Nat} {i : Instr} (h : h2dRow w = .instr i) : OwnWord p .h2d w i := by
  dsimp only [h2dRow] at h
  split_ifs at h with h10 h8 h9
  cases h
  exact ⟨rfl, nofun, by rw [encode, send_word (by omega) (by simpa using h8) (by simpa using h9)]⟩

/-! ## Scan-code bytes in Ground -/

/-- The codes that R98 names: classes 1 to 6. -/
def namedCodes : List Byte := [0xE1, 0xE0, 0x1D, 0x9D, 0x2A, 0x36, 0xAA, 0xB6]

theorem not_mem_specialHigh {b : Byte} (h : b ∉ namedCodes) : b ∉ specialHigh :=
  fun hb => h ((by decide : specialHigh ⊆ namedCodes) hb)

theorem scRow_named (p : Params) {b : Byte} (h : b ∈ namedCodes) : OwnWord p .sc b.toNat (scRow p b) := by
  simp only [namedCodes, List.mem_cons, List.not_mem_nil, or_false] at h
  rcases h with rfl | rfl | rfl | rfl | rfl | rfl | rfl | rfl <;> exact ⟨rfl, nofun, rfl⟩

/-- The code of a member of BLOCKLIST is read as a BLOCKLIST row (R98 class 7). -/
theorem scRow_blocklist {p : Params} (hp : p.wf = true) {b : Byte} (h : b ∈ p.blocklist) :
    ∃ k, blockIndex p.blocklist b = some k ∧ scRow p b = blockRow k := by
  obtain ⟨hc, hn⟩ := wf_block hp
  obtain ⟨k, hk, hb⟩ := List.mem_iff_getElem.mp h
  rw [← List.getD_eq_getElem _ 0 hk] at hb
  have hi : blockIndex p.blocklist b = some k := hb ▸ blockIndex_getD hn hk
  exact ⟨k, hi, scRow_block hi (hc b h)⟩

theorem wellFormed_lookup {p : Params} {b : Byte} (h0 : 0 < b.toNat) (h58 : b.toNat < 58) (hn : b ∉ namedCodes)
    (hb : b ∉ p.blocklist) : WellFormed p (.xlLookup b) = true := by
  have hm : b ∉ modifierMakes := fun h => hn ((by decide : modifierMakes ⊆ namedCodes) h)
  simp [WellFormed, Config.filterLow, h0, h58, hm, hb]

/-- The byte 0x00 is of class 9 (R98). -/
theorem scRow_zero {p : Params} (hp : p.wf = true) : scRow p 0 = .xlNonpositive :=
  Decoded.instr.inj ((decode_sc p 0).symm.trans (decode_zero hp))

/-- Every code is its row's own word, or is listed in BLOCKLIST (R98). -/
theorem scRow_classes {p : Params} (hp : p.wf = true) (b : Byte) : OwnWord p .sc b.toNat (scRow p b)
    ∨ ∃ k, blockIndex p.blocklist b = some k ∧ scRow p b = blockRow k := by
  by_cases hn : b ∈ namedCodes
  · exact .inl (scRow_named p hn)
  by_cases hb : b ∈ p.blocklist
  · exact .inr (scRow_blocklist hp hb)
  left
  by_cases h58 : 58 ≤ b.toNat
  · have hs := not_mem_specialHigh hn
    obtain ⟨hwf, henc, hne⟩ := highRow_word p h58 hs
    rw [scRow_high hp h58 hs]
    exact ⟨hwf, hne, henc⟩
  by_cases h0 : b = 0
  · subst h0
    rw [scRow_zero hp]
    exact ⟨rfl, nofun, rfl⟩
  · have hpos : 0 < b.toNat := Nat.pos_of_ne_zero fun h => h0 (BitVec.eq_of_toNat_eq h)
    have hwf := wellFormed_lookup hpos (by omega) hn hb
    rw [scRow_lookup hwf]
    exact ⟨hwf, nofun, rfl⟩

theorem blockRow_mem (k : Nat) : blockRow k ∈ [Instr.xlBlocklist0E, .xlBlocklist0F, .xlBlocklist1A, .xlBlocklist1B,
    .xlBlocklist28, .xlBlocklist29, .xlBlocklist35] := by
  match k with
  | 0 | 1 | 2 | 3 | 4 | 5 | _ + 6 => simp [blockRow]

/-- The four match and mask pairs cover the codes from 58 on (R98 class 8). -/
theorem highRow_classes {b : Byte} (h58 : 58 ≤ b.toNat) : (∃ x, b &&& 0xFE = 0x3A ∧ highRow b = .xlHighrange3A x)
    ∨ (∃ x, b &&& 0xFC = 0x3C ∧ highRow b = .xlHighrange3C x)
    ∨ (∃ x, b &&& 0xC0 = 0x40 ∧ highRow b = .xlHighrange40 x)
    ∨ (∃ x, b &&& 0x80 = 0x80 ∧ highRow b = .xlHighrange80 x) := by
  have hrest : ∀ b : Byte, 58 ≤ b.toNat → b &&& 0xFE ≠ 0x3A → b &&& 0xFC ≠ 0x3C → b &&& 0xC0 ≠ 0x40 →
      b &&& 0x80 = 0x80 := by decide
  unfold highRow
  split_ifs with h1 h2 h3
  · exact .inl ⟨_, h1, rfl⟩
  · exact .inr (.inl ⟨_, h2, rfl⟩)
  · exact .inr (.inr (.inl ⟨_, h3, rfl⟩))
  · exact .inr (.inr (.inr ⟨_, hrest b h58 h1 h2 h3, rfl⟩))

/-- Settles O4, class by class of R98. -/
theorem groundBytesFallInTheirClasses : Obligations.GroundBytesFallInTheirClasses := by
  intro p hp b hn
  simp only [decode_sc, Decoded.instr.injEq]
  refine ⟨fun h58 => ?_, fun hb => ?_, fun h0 => ?_, fun h0 h58 hb => scRow_lookup (wellFormed_lookup h0 h58 hn hb)⟩
  · rw [scRow_high hp h58 (not_mem_specialHigh hn)]
    exact highRow_classes h58
  · obtain ⟨k, -, hk⟩ := scRow_blocklist hp hb
    exact ⟨_, blockRow_mem k, hk⟩
  · exact h0 ▸ scRow_zero hp

/-! ## The other formats of one byte -/

/-- Bit 7 of a byte and the seven bits below it. -/
theorem bit7_low7 (b : Byte) : 0x80 * (b.getLsbD 7).toNat + (b.extractLsb' 0 7).toNat = b.toNat := by
  rw [BitVec.extractLsb'_toNat, BitVec.getLsbD, Nat.toNat_testBit]
  omega

theorem scE0Row_ownWord (p : Params) (b : Byte) : OwnWord p .scE0 b.toNat (scE0Row b) := by
  unfold scE0Row
  split_ifs with h1 h2 h3 h4
  case neg => exact ⟨by simpa [WellFormed] using ⟨h1, h2, h3, h4⟩, nofun, rfl⟩
  all_goals subst b; exact ⟨rfl, nofun, rfl⟩

theorem scE1Row_ownWord (p : Params) (b : Byte) : OwnWord p .scE1 b.toNat (scE1Row b) := by
  unfold scE1Row
  split_ifs with h1 h2
  case neg => exact ⟨by simpa [WellFormed, Config.e1Cont] using ⟨h1, h2⟩, nofun, rfl⟩
  all_goals subst b; exact ⟨rfl, nofun, rfl⟩

theorem teRow_ownWord (p : Params) (e : Byte) : OwnWord p .te e.toNat (teRow e) := by
  have hb := bit7_low7 e
  unfold teRow entryValid
  split
  next h7 =>
    rw [h7, Bool.toNat_true] at hb
    exact ⟨rfl, nofun, by rw [encode, ← hb]⟩
  next h7 =>
    rw [eq_false_of_ne_true h7, Bool.toNat_false, Nat.mul_zero, Nat.zero_add] at hb
    exact ⟨rfl, nofun, by rw [encode, hb]⟩

theorem respRow_ownWord {p : Params} {b : Byte} {i : Instr} (h : respRow p b = .instr i) :
    OwnWord p .resp b.toNat i := by
  unfold respRow at h
  split_ifs at h with hb hb
  all_goals
    cases h
    exact hb ▸ ⟨rfl, nofun, rfl⟩

/-! ## Commands and operations -/

/-- A word of two bytes, low byte first. -/
theorem twoBytes_word {w : Nat} (h : w < 2 ^ 16) :
    (BitVec.ofNat 8 w).toNat + 256 * (BitVec.ofNat 8 (w >>> 8)).toNat = w := by
  rw [BitVec.toNat_ofNat, BitVec.toNat_ofNat, Nat.shiftRight_eq_div_pow]
  omega

theorem cmdRow_ownWord {p : Params} {w : Nat} {i : Instr} (h : cmdRow p w = .instr i) : OwnWord p .cmd w i := by
  dsimp only [cmdRow] at h
  split_ifs at h with h16 hc hc hc
  all_goals
    cases h
    refine ⟨rfl, nofun, ?_⟩
    rw [encode, ← hc, twoBytes_word (Nat.not_le.mp h16)]

theorem opTxBit_instr {i : Instr} {a : Nat} (h : opTxBit a = .instr i) :
    ∃ k v, i = .txBit k v ∧ (v = true ∨ k.val < 9) ∧ k.val + 16 * v.toNat = a := by
  unfold opTxBit at h
  split_ifs at h with hk h0 h1
  · cases h; exact ⟨_, _, rfl, .inr h0.2, by simp only [Bool.toNat_false]; omega⟩
  · cases h; exact ⟨_, _, rfl, .inl rfl, by simp only [Bool.toNat_true]; omega⟩

theorem opTxFinish_instr {i : Instr} {a : Nat} (h : opTxFinish a = .instr i) :
    ∃ v : Bool, i = .txFinish v ∧ v.toNat = a := by
  unfold opTxFinish at h
  split_ifs at h with h0 h1
  · cases h; exact ⟨false, rfl, h0.symm⟩
  · cases h; exact ⟨true, rfl, h1.symm⟩

theorem opCommand_instr {i : Instr} {a : Nat} (h : opCommand a = .instr i) :
    ∃ c v l, i = .kbdCommand c v l ∧ c.toNat + 256 * v.toNat + 65536 * l.number = a := by
  unfold opCommand at h
  split at h
  next l hl =>
    cases h
    refine ⟨_, _, l, rfl, ?_⟩
    rw [legalOfNat_number hl, BitVec.toNat_ofNat, BitVec.toNat_ofNat, Nat.shiftRight_eq_div_pow]
    omega
  next => cases h

theorem opPlain_ownWord {p : Params} {i j : Instr} {n a : Nat} (h : opPlain j a = .instr i) (hj : OwnWord p .op n j) :
    OwnWord p .op (n + 256 * a) i := by
  obtain ⟨rfl, rfl⟩ := opPlain_instr h
  exact hj

theorem opRow_ownWord {p : Params} {w : Nat} {i : Instr} (h : opRow w = .instr i) : OwnWord p .op w i := by
  rw [← Nat.mod_add_div w 256]
  dsimp only [opRow] at h
  generalize w / 256 = a at h ⊢
  split at h
  case h_1 hn | h_2 hn => -- BUF.PUSH, BUF.PUSH.FULL
    obtain ⟨b, rfl, rfl⟩ := opByte_instr h
    exact ⟨rfl, nofun, by rw [hn, encode]⟩
  case h_9 hn => -- TX.BIT
    obtain ⟨k, v, rfl, hk, rfl⟩ := opTxBit_instr h
    exact ⟨by simpa [WellFormed] using hk, nofun, by rw [hn, encode]⟩
  case h_13 hn => -- TX.FINISH
    obtain ⟨v, rfl, rfl⟩ := opTxFinish_instr h
    exact ⟨rfl, nofun, by rw [hn, encode]⟩
  case h_15 hn => -- kbd_command
    obtain ⟨c, v, l, rfl, rfl⟩ := opCommand_instr h
    exact ⟨rfl, nofun, by rw [hn, encode]⟩
  case h_24 => cases h -- no such operation
  -- the operations without operands
  all_goals
    rw [‹w % 256 = _›]
    exact opPlain_ownWord h ⟨rfl, nofun, rfl⟩

/-! ## Every word -/

/-- What decodes is its instruction's own word, the codes of BLOCKLIST apart. -/
theorem decode_ownWord {p : Params} (hp : p.wf = true) {f : Format} {w : Nat} {i : Instr}
    (h : decode p f w = .instr i) : OwnWord p f w i
      ∨ f = .sc ∧ ∃ b k, w = b.toNat ∧ blockIndex p.blocklist b = some k ∧ i = blockRow k := by
  cases f
  case rxev => exact .inl (rxevRow_ownWord h)
  case d2h => exact .inl (d2hRow_ownWord h)
  case h2d => exact .inl (h2dRow_ownWord h)
  case cmd => exact .inl (cmdRow_ownWord h)
  case op => exact .inl (opRow_ownWord h)
  all_goals
    rw [decode] at h
    obtain ⟨b, rfl, hb⟩ := byteRow_instr h
  case sc =>
    cases hb
    exact (scRow_classes hp b).imp_right fun ⟨k, hk, hr⟩ => ⟨rfl, b, k, rfl, hk, hr⟩
  case scE0 => cases hb; exact .inl (scE0Row_ownWord p b)
  case scE1 => cases hb; exact .inl (scE1Row_ownWord p b)
  case scE1C => cases hb; exact .inl ⟨rfl, nofun, rfl⟩
  case te => cases hb; exact .inl (teRow_ownWord p b)
  case a2 =>
    split at hb
    next h7 =>
      cases hb
      exact .inl ⟨rfl, nofun, by rw [encode, ← bit7_low7 b, h7, Bool.toNat_true]⟩
    next => cases hb
  case resp => exact .inl (respRow_ownWord hb)

/-- Settles O3, format by format; the codes of BLOCKLIST by their positions in it. -/
theorem decodedInstructionIsWellFormed : Obligations.DecodedInstructionIsWellFormed := by
  intro p hp f w i h
  rcases decode_ownWord hp h with ⟨hwf, hne, henc⟩ | ⟨rfl, b, k, rfl, hk, rfl⟩
  · exact ⟨hwf, fun _ => henc, fun he => absurd he hne⟩
  · obtain ⟨hword, hlast⟩ := blockRow_word hk
    exact ⟨blockRow_wellFormed hk, hword, fun he => ⟨rfl, k, b, hlast he, blockIndex_getElem hk, rfl⟩⟩

/-- Settles O1: the decoder's answer to each fixed word is computed. -/
theorem wordsOfTheSpecDecode : Obligations.WordsOfTheSpecDecode := by
  unfold Obligations.WordsOfTheSpecDecode
  decide

end Sys2Proof
end

section
/-! The receiver's rules, one edge at a time (spec/40_receiver.md R131 to R139), and what the keyboard's lines leave
unchanged where no edge reaches the receiver or the receiver ignores it (R41, R130, R138, R328). -/

namespace Sys2Proof.Machine

open Sys2Proof

/-! ## One edge event -/

/-- The rule of the receiver's present state runs. -/
theorem whenRx_of_state {x : RxState} {s : State} (o : Out) (h : s.rxState = x) : whenRx x s o = o := if_pos h

/-- Settles O8, by the rule of Idle at a level of 0. -/
theorem startBitClearsTheWorkingRegisters : Obligations.StartBitClearsTheWorkingRegisters :=
  fun _ hx => whenRx_of_state _ hx

/-- Settles O9, by the two rules that raise an error and touch nothing else. -/
theorem badStartAndStopBitsOnlySetTheErrorState : Obligations.BadStartAndStopBitsOnlySetTheErrorState := fun _ =>
  ⟨fun hx => whenRx_of_state _ hx, fun hx => whenRx_of_state _ hx⟩

/-- A level shifted to position `n` is a byte with that level at bit `n` and no other bit. -/
theorem getLsbD_level_shiftLeft (d : Bool) (n : Nat) {k : Nat} (hk : k < 8) :
    (BitVec.ofNat 8 d.toNat <<< n).getLsbD k = (d && decide (k = n)) := by
  cases d with
  | false => simp
  | true =>
    have hone : BitVec.ofNat 8 true.toNat <<< n = BitVec.twoPow 8 n := rfl
    rw [hone, BitVec.getLsbD_twoPow, Bool.true_and, ← Bool.decide_and, decide_eq_decide]
    omega

/-- Settles O10: the written bit by `getLsbD_level_shiftLeft`, the rest is the rule. -/
theorem dataBitEntersTheAccumulator : Obligations.DataBitEntersTheAccumulator := by
  intro s d hx
  refine ⟨_, whenRx_of_state _ hx, fun k hk => ?_, rfl⟩
  rw [BitVec.getLsbD_or, getLsbD_level_shiftLeft d s.rxBitcnt hk]

/-- Settles O11, by whether the sum with the parity bit is odd. -/
theorem parityBitDecidesTheFrame : Obligations.ParityBitDecidesTheFrame := by
  intro s d hx
  rw [exec, execRxParity, whenRx_of_state _ hx]
  by_cases hodd : (s.rxParity + d.toNat) % 2 = 1
  · have ha : parityAccepts (s.rxParity + d.toNat) = true := beq_iff_eq.mpr hodd
    simp only [ha, hodd, if_true]
  · have ha : parityAccepts (s.rxParity + d.toNat) = false := beq_eq_false_iff_ne.mpr hodd
    simp only [ha, hodd, Bool.false_eq_true, if_false]
    rfl

/-- Settles O12: the push where the buffer has room, the overrun where it has none. -/
theorem stopBitCommitsOrOverruns : Obligations.StopBitCommitsOrOverruns := by
  intro s hx hw
  rw [exec, execRxStopOk, whenRx_of_state _ hx]
  by_cases hc : s.bufCount < s.params.bufCap
  · rw [if_pos hc, if_pos hc, push_eq s.rxAcc hw, andThen_next]
  · rw [if_neg hc, if_neg hc]
    rfl

/-! ## The error states -/

/-- R138: an error state ignores an edge of either level. -/
theorem execRxError_ignores {s : State} {e : RxErr} (d : Bool) (hx : s.rxState = RxState.ofErr e)
    (hp : s.params.rxErrorRecovery = .externalResetOnly) : execRxError e d s = .next s := by
  simp only [execRxError, whenRx_of_state _ hx, hp]

/-- R139 with D7: a level of 0 restarts the receiver, from ErrorOverrun only when the buffer has room. -/
theorem execRxError_resyncs {s : State} {e : RxErr} (d : Bool) (hx : s.rxState = RxState.ofErr e)
    (hp : s.params.rxErrorRecovery = .resyncOnStart) :
    execRxError e d s = .next (if d = false ∧ (e ≠ .overrun ∨ s.bufCount < s.params.bufCap) then acceptStart s
      else s) := by
  simp only [execRxError, whenRx_of_state _ hx, hp, apply_ite Host.Outcome.next, Bool.and_eq_true, Bool.not_eq_true',
    Bool.or_eq_true, decide_eq_true_eq]

/-- Settles O13, by the two recovery modes. -/
theorem errorStatesIgnoreEdges : Obligations.ErrorStatesIgnoreEdges := fun _ _ d hx =>
  ⟨execRxError_ignores d hx, execRxError_resyncs d hx⟩

/-- In an error state, without the recovery of R139, the receiver answers an edge event with the state as it was. -/
theorem takeEdge_of_error {s : State} (hx : s.rxState.isError = true)
    (hp : s.params.rxErrorRecovery = .externalResetOnly) : takeEdge s = .next s := by
  unfold takeEdge
  split
  case h_1 hs | h_2 hs | h_3 hs | h_4 hs => rw [hs] at hx; cases hx
  case h_5 hs | h_6 hs | h_7 hs | h_8 hs => exact execRxError_ignores _ hs hp

/-! ## Lines without an edge event -/

/-- Where a fall of the clock finds interrupts disabled, the change is over: a fall is at most remembered (R41, R130). -/
theorem clockChanged_without_event {old new : State} (h : clockFell old new = true → new.irqEnable = false) :
    clockChanged old new
      = .next { new with irqPending := new.irqPending || (new.params.irqLatch && clockFell old new) } := by
  unfold clockChanged
  cases hf : clockFell old new with
  | true => simp only [h hf, Bool.false_eq_true, if_true, if_false, missEdge_eq, Bool.and_true, Bool.or_comm]
  | false => simp only [Bool.false_eq_true, if_false, Bool.and_false, Bool.or_false]

theorem clockFell_afterLines (s : State) (r : List Stimulus) (c d : Drive) :
    clockFell s (s.afterLines r c d) = (s.clkLevel && !level s.ps2ClkDrive c) := rfl

theorem step_tick {s : State} {r : List Stimulus} (h : s.inputs = .tick :: r) :
    step s = .next { s with inputs := r, wdt := s.wdt + 1 } := by
  simp only [step, fetch, h]

/-- Settles O56: a fall while interrupts are enabled is excluded, and any other change makes no edge event. -/
theorem linesWithoutAnEventOnlyMove : Obligations.LinesWithoutAnEventOnlyMove := by
  refine fun s r => ⟨fun c d hs hq => ?_, step_tick⟩
  have hoff : clockFell s (s.afterLines r c d) = true → (s.afterLines r c d).irqEnable = false := by
    rw [clockFell_afterLines, Bool.and_eq_true, Bool.not_eq_true']
    rintro ⟨hhigh, hlow⟩
    rcases hq with hq | hq | hq
    · rw [hq] at hhigh; cases hhigh
    · rw [hq] at hlow; cases hlow
    · exact hq
  rw [step_lines hs, clockChanged_without_event hoff, clockFell_afterLines, ← Bool.and_assoc]
  rfl

/-! ## A frame that nobody hears -/

/-- No edge has an effect: interrupts are disabled and no edge is remembered, or the receiver is in an error state that
only a reset ends (R130, R138). -/
def Deaf (s : State) : Prop :=
  s.irqEnable = false ∧ s.params.irqLatch = false
    ∨ s.rxState.isError = true ∧ s.irqEnable = true ∧ s.params.rxErrorRecovery = .externalResetOnly

theorem clockChanged_deaf (old : State) {new : State} (h : Deaf new) : clockChanged old new = .next new := by
  rcases h with ⟨hi, hl⟩ | ⟨hx, hi, hp⟩
  · rw [clockChanged_without_event fun _ => hi, hl, Bool.false_and, Bool.or_false]
  · rw [clockChanged, hi, takeEdge_of_error hx hp, if_pos rfl, ite_self]

/-- A pulse that has no effect moves the keyboard's lines only. -/
theorem kbdPulse_deaf {s : State} (h : Deaf s) (d : Bool) : kbdPulse d s = .next (s.setKbd .released (driveOf d)) := by
  have hlow : Deaf ((s.setKbd .released (driveOf d)).setKbd .low (driveOf d)) := h
  rw [kbdPulse, clockChanged_deaf _ hlow, andThen_next]
  rfl

/-- Pulses without effect leave the lines as the last one does. -/
theorem kbdPulses_deaf {s : State} (h : Deaf s) (ls : List Bool) (d : Bool) :
    kbdPulses (ls ++ [d]) s = .next (s.setKbd .released (driveOf d)) := by
  induction ls generalizing s with
  | nil => rw [List.nil_append, kbdPulses, kbdPulse_deaf h, andThen_next, kbdPulses]
  | cons e es ih =>
    have hnext : Deaf (s.setKbd .released (driveOf e)) := h
    rw [List.cons_append, kbdPulses, kbdPulse_deaf h, andThen_next, ih hnext]
    rfl

/-- A frame ends with its stop bit, a level of 1 (R90). -/
theorem frameLevels_stop (b : Byte) : frameLevels b = (frameLevels b).dropLast ++ [true] := rfl

/-- Settles O16, by induction over the frame's pulses, each of which moves the keyboard's lines only. -/
theorem frameWithoutAListenerIsLost : Obligations.FrameWithoutAListenerIsLost := by
  intro s b h
  rw [exec, execKbdFrame, frameLevels_stop, kbdPulses_deaf h]
  rfl

end Sys2Proof.Machine
end

section
/-! The receive buffer's operations one by one (spec/41_receive_buffer.md R161 to R164): the push, the push that finds
no room, either receive, and the operations that wait for a receive's result (R211, R240). -/

namespace Sys2Proof.Machine

open Sys2Proof

/-! ## The two pushes -/

/-- Settles O17: the push is `push_eq`, its cells are those of `read_write`; without room it is refused. -/
theorem pushWritesOneCellAndAdvances : Obligations.PushWritesOneCellAndAdvances := by
  refine fun s v => ⟨fun hc hw => ?_, fun hfull => if_neg (Nat.not_lt.mpr hfull)⟩
  have hpush : exec (.bufPush v) s = _ := (if_pos hc).trans (push_eq v hw)
  exact ⟨_, hpush, fun i => read_write s.buf s.bufWr i v, rfl⟩

/-- Settles O18, by the operation's one test: whether the buffer has room. -/
theorem pushOnAFullBufferLosesTheByte : Obligations.PushOnAFullBufferLosesTheByte :=
  fun _ _ => ⟨fun hfull => if_neg (Nat.not_lt.mpr hfull), fun hroom => if_pos hroom⟩

/-! ## The receives -/

/-- On an empty buffer the blocking receive stays in its spin, the other one finds no byte (R163, R164). -/
theorem exec_popOperation_empty {s : State} {b : Bool} {k : List Point} (hm : MayCall (popOperation b) s k)
    (hc : s.bufCount = 0) : exec (popOperation b) s
      = .next (if b then { s with cont := .op .ps2RecvBlocking :: k } else returnTo (.opt none) { s with cont := k }) := by
  rw [exec_popOperation, receive, whenCalled_may _ hm]
  exact if_pos hc

/-- A receive of one step takes the byte at the read cursor and returns it (R163, R164, D12). -/
theorem exec_popOperation_atomic {s : State} {b : Bool} {v : Byte} {k : List Point} (hm : MayCall (popOperation b) s k)
    (hc : 0 < s.bufCount) (ha : s.params.bufPopAtomic = true) (hi : s.bufRd < s.params.bufCap)
    (hv : s.buf.read s.bufRd = some v) : exec (popOperation b) s
      = .next (returnTo (received b v)
          { s with cont := k, bufCount := s.bufCount - 1, bufRd := (s.bufRd + 1) % s.params.bufCap }) :=
  (exec_popOperation_nonempty hm hc).trans (pop_atomic b ha hi hv)

/-! ## Who waits for the result -/

/-- A return records the result and moves the continuation only. -/
theorem returnTo_of_cont {s : State} {r : Ret} {k : List Point} (h : (returnTo r s).cont = k) :
    returnTo r s = { s with ret := r, cont := k } := h ▸ returnTo_frame s r

/-- Where nothing waits, as after a call from a script (R108), the result is only recorded. -/
theorem returnTo_nil {s : State} (hc : s.cont = []) (r : Ret) : returnTo r s = { s with ret := r } :=
  returnTo_of_cont (returnTo_cont_of_plain s r (by simp [hc]))

/-- Settles O20: either receive on an empty and on a non-empty buffer, then the points that wait for the result. -/
theorem receivePopsOneByteOrFindsNone : Obligations.ReceivePopsOneByteOrFindsNone := fun s k =>
  ⟨fun hm => ⟨exec_popOperation_empty (b := false) hm, fun _ => exec_popOperation_atomic (b := false) hm⟩,
    fun hm => ⟨exec_popOperation_empty (b := true) hm, fun _ => exec_popOperation_atomic (b := true) hm⟩,
    fun hx o v => ⟨returnTo_of_cont (returnTo_xlAwait s o k hx), returnTo_of_cont (returnTo_xlAwait_byte s v k hx)⟩,
    fun c first v hx => returnTo_of_cont (returnTo_cmdAwait s c first v k hx),
    returnTo_nil⟩

end Sys2Proof.Machine
end

section
/-! The transmitter's rules, one phase of a send at a time (spec/42_transmitter.md R180 to R192), and the levels of the
two open-collector lines that the phases drive and wait for (R64). -/

namespace Sys2Proof.Machine

open Sys2Proof

/-! ## The phases of a send -/

/-- Settles O22: a call of the send runs from its beginning, and its ten bits are those of `sendBit`. -/
theorem sendPlacesTheTenBits : Obligations.SendPlacesTheTenBits := by
  refine fun s b k hm => ⟨?_, rfl⟩
  rw [exec, execPs2Send, whenCalled_may _ hm]

/-- Settles O24, by the phase's one rule. -/
theorem prepareForcesTheReceiverIdle : Obligations.PrepareForcesTheReceiverIdle := by
  intro s k hc
  rw [exec, execTxPrepare, whenDue_cons _ hc rfl]

/-! ## The lines -/

/-- A line is low exactly when a driver pulls it low (R64). -/
theorem level_eq_false_iff (block kbd : Drive) : level block kbd = false ↔ block = .low ∨ kbd = .low := by
  cases block with
  | low => exact iff_of_true rfl (.inl rfl)
  | released => cases kbd <;> simp [level]

theorem clockFell_iff (s t : State) : clockFell s t = true ↔ s.clkLevel = true ∧ t.clkLevel = false := by
  rw [clockFell, Bool.and_eq_true, Bool.not_eq_true']

/-- Settles O25: each of the three phases acts on its one drive; the levels are those of the wired-AND. -/
theorem requestToSendDrivesTheLines : Obligations.RequestToSendDrivesTheLines := by
  refine fun s k => ⟨fun hc => ?data, fun hc => ?clock, fun hc => ?free, level_eq_false_iff,
    level_eq_false_iff .., level_eq_false_iff .., clockFell_iff s⟩
  case data => rw [exec, execTxRtsData, whenDue_cons _ hc rfl]
  case clock => rw [exec, execTxRtsRelease, whenDue_cons _ hc rfl]
  case free => rw [exec, execTxReleaseData, whenDue_cons _ hc rfl]

/-! ## The two delays -/

/-- Once the block pulls the clock low it has fallen exactly if it was high (R64, R182). -/
theorem clockFell_of_low {s t : State} (ht : t.ps2ClkDrive = .low) : clockFell s t = s.clkLevel := by
  have hlow : t.clkLevel = false := (level_eq_false_iff ..).mpr (.inl ht)
  rw [clockFell, hlow, Bool.not_false, Bool.and_true]

/-- TX.INHIBIT's first step: a fall finds interrupts disabled, so it is at most remembered (R41, R182). -/
theorem txInhibit_pulls_low {s : State} {k : List Point} (hc : s.cont = .op .txInhibit :: k)
    (hoff : s.irqEnable = false) : exec .txInhibit s
      = .next { s with
          ps2ClkDrive := .low
          cont := .txInhibitHold :: k
          irqPending := s.irqPending || (s.params.irqLatch && s.clkLevel) } := by
  rw [exec, execTxInhibit, whenDue_cons _ hc rfl]
  simp only
  rw [clockChanged_without_event (by exact fun _ => hoff), clockFell_of_low rfl]
  rfl

/-- Settles O26: the pull by `txInhibit_pulls_low`; the delays complete and change nothing. -/
theorem inhibitAndSettleComplete : Obligations.InhibitAndSettleComplete := by
  refine fun s k => ⟨txInhibit_pulls_low, fun hc => ?hold, fun hc => ?settle⟩
  case hold => rw [exec, execTxInhibit, whenDue_cons _ hc rfl]
  case settle => rw [exec, execTxSettle, whenDue_cons _ hc rfl]

/-! ## The waits -/

/-- A phase that waits goes to one of two states, by its condition (R185, R189, R190). -/
theorem whenDue_wait {i : Instr} {s t u : State} {p : Point} {k : List Point} {f : Point → State → Out} {c : Prop}
    [Decidable c] (hc : s.cont = p :: k) (hd : dueAt s.params s.xlState p = .instr i)
    (hf : f p { s with cont := k } = if c then .next t else .next u) : whenDue i s f = .next (if c then t else u) := by
  rw [whenDue_cons f hc hd, hf, apply_ite Host.Outcome.next]

/-- Settles O27: the two waits by `whenDue_wait`, the placing between them by its rule. -/
theorem bitIsPlacedWhileTheClockIsLow : Obligations.BitIsPlacedWhileTheClockIsLow := by
  intro s j v k
  rw [exec, execTxBit]
  exact ⟨fun hc => whenDue_wait hc rfl rfl, fun hc => whenDue_cons _ hc rfl, fun hc => whenDue_wait hc rfl rfl⟩

/-- TX.FINISH with no edge to deliver: interrupts on and the flag returned (R191). -/
theorem txFinish_without_edge {s : State} {ack : Bool} {k : List Point} (hc : s.cont = .op (.txFinish ack) :: k)
    (hq : (s.params.irqLatch && s.irqPending) = false) :
    exec (.txFinish ack) s = .next { s with cont := k, irqEnable := true, ret := .flag ack } := by
  rw [exec, execTxFinish, whenDue_cons _ hc rfl]
  simp only [returnTo_flag, hq, Bool.false_eq_true, if_false]

/-- Settles O28: the two waits by `whenDue_wait`, the sample by its rule, the return by `txFinish_without_edge`. -/
theorem acknowledgeIsSampledAndReturned : Obligations.AcknowledgeIsSampledAndReturned := by
  intro s ack k
  rw [exec, execTxAck, exec, execTxAckEnd]
  exact ⟨fun hc => whenDue_wait hc rfl rfl, fun hc => whenDue_cons _ hc rfl, fun hc => whenDue_wait hc rfl rfl,
    txFinish_without_edge⟩

end Sys2Proof.Machine
end

section
/-! The command layer (spec/43_command_layer.md R211 to R216): a command's call, and its response inspected. What is
due at a response is `dueAt_cmdResp`. -/

namespace Sys2Proof.Machine

open Sys2Proof

/-! ## The call -/

/-- A call of `kbd_command` sends its command byte, or refuses the parameter at once (R211, R213). -/
theorem exec_kbdCommand_called {s : State} {c v : Byte} {l : LegalSet} {k : List Point}
    (hm : MayCall (.kbdCommand c v l) s k) : exec (.kbdCommand c v l) s
      = if v ∈ legalValues s.params l then
          .next { s with cont := exchange c { cmd := c, param := v, legal := l } true ++ k }
        else .next (returnTo (.byte s.params.respResend) { s with cont := k }) := by
  rw [exec, execKbdCommand, whenCalled_may _ hm]
  simp only [List.contains_iff_mem]

/-- A response that is neither named code is due to the call that has received it, which returns it (R212). -/
theorem exec_kbdCommand_foreign {s : State} {c : Cmd} {first : Bool} {r : Byte} {k : List Point}
    (hc : s.cont = .cmdResp c first r :: k) (hack : r ≠ s.params.respAck) (hresend : r ≠ s.params.respResend) :
    exec (.kbdCommand c.cmd c.param c.legal) s = .next (returnTo (.byte r) { s with cont := k }) := by
  have hd := dueAt_cmdResp s.params s.xlState c first r
  rw [if_neg hack, if_neg hresend] at hd
  rw [exec, execKbdCommand, whenCalled_cons _ hc hd]

/-- Settles O31: the call by its one test of the parameter, the foreign response by its rule. -/
theorem commandChecksSendsAndReturns : Obligations.CommandChecksSendsAndReturns :=
  fun _ _ _ _ _ =>
    ⟨fun hm => ⟨fun hv => (exec_kbdCommand_called hm).trans (if_neg hv),
        fun hv => (exec_kbdCommand_called hm).trans (if_pos hv)⟩,
      fun _ _ => exec_kbdCommand_foreign⟩

/-- A configuration command goes to the call of `kbd_command` with its command byte `c`, its operand and its legal set
(R214 to R216). -/
theorem exec_configCommand {i : Instr} {s : State} (c : Params → Byte) {v : Byte} {l : LegalSet} {k : List Point}
    (hi : exec i s = whenCalled i s fun _ t => .next (t.goto (.op (.kbdCommand (c t.params) v l))))
    (hm : MayCall i s k) : exec i s = .next { s with cont := .op (.kbdCommand (c s.params) v l) :: k } :=
  hi.trans (whenCalled_may _ hm)

/-- Settles O32: each command is `exec_configCommand` at its own command byte; the legal scan-code sets are the list of
R216. -/
theorem configurationCommandsCallTheExchange : Obligations.ConfigurationCommandsCallTheExchange := by
  refine fun s v k => ⟨exec_configCommand Params.cmdSetLeds rfl, exec_configCommand Params.cmdSetTypematic rfl,
    exec_configCommand Params.cmdSetScanset rfl, ?_⟩
  simp only [legalValues, Config.legalScanset, List.mem_cons, List.not_mem_nil, or_false]

/-! ## The response -/

/-- After the command byte, RESP_ACK begins the exchange of the parameter byte (R211). -/
theorem exec_respAck_first {s : State} {c : Cmd} {k : List Point}
    (hc : s.cont = .cmdResp c true s.params.respAck :: k) :
    exec .respAck s = .next { s with cont := exchange c.param c false ++ k } := by
  have hd := dueAt_cmdResp s.params s.xlState c true s.params.respAck
  rw [if_pos rfl] at hd
  rw [exec, execRespAck, whenDue_cons _ hc hd]

/-- After the parameter byte, RESP_ACK is the command's result (R212). -/
theorem exec_respAck_second {s : State} {c : Cmd} {k : List Point}
    (hc : s.cont = .cmdResp c false s.params.respAck :: k) :
    exec .respAck s = .next (returnTo (.byte s.params.respAck) { s with cont := k }) := by
  have hd := dueAt_cmdResp s.params s.xlState c false s.params.respAck
  rw [if_pos rfl] at hd
  rw [exec, execRespAck, whenDue_cons _ hc hd]

/-- After either byte, RESP_RESEND is the command's result (R211, R212). -/
theorem exec_respResend_either {s : State} {c : Cmd} {first : Bool} {k : List Point}
    (hne : s.params.respAck ≠ s.params.respResend) (hc : s.cont = .cmdResp c first s.params.respResend :: k) :
    exec .respResend s = .next (returnTo (.byte s.params.respResend) { s with cont := k }) := by
  have hd := dueAt_cmdResp s.params s.xlState c first s.params.respResend
  rw [if_neg hne.symm, if_pos rfl] at hd
  rw [exec, execRespResend, whenDue_cons _ hc hd]

/-- A command's blocking receive delivers the byte it pops as the response to inspect (R164, R211). -/
theorem exec_ps2RecvBlocking_cmdAwait {s : State} {c : Cmd} {first : Bool} {v : Byte} {k : List Point}
    (hc : s.cont = .op .ps2RecvBlocking :: .cmdAwait c first :: k) (h0 : 0 < s.bufCount)
    (ha : s.params.bufPopAtomic = true) (hi : s.bufRd < s.params.bufCap) (hv : s.buf.read s.bufRd = some v) :
    exec .ps2RecvBlocking s
      = .next { s with
          bufCount := s.bufCount - 1, bufRd := (s.bufRd + 1) % s.params.bufCap, ret := .byte v
          cont := .cmdResp c first v :: k } := by
  have hpop := exec_popOperation_atomic (b := true) (.inl hc) h0 ha hi hv
  exact hpop.trans (congrArg _ (returnTo_of_cont (returnTo_cmdAwait _ c first v k rfl)))

/-- Settles O33: the receive, then each code at the response it is due at. -/
theorem responseCodesSteerTheCommand : Obligations.ResponseCodesSteerTheCommand :=
  fun _ _ _ _ => ⟨fun _ => exec_ps2RecvBlocking_cmdAwait, exec_respAck_first, exec_respAck_second,
    exec_respResend_either⟩

end Sys2Proof.Machine
end

section
/-! The translator, one step at a time (spec/44_translator.md R240 to R260): what is due at a byte and at a table entry,
what each row answers, and which instructions write a modifier bit. -/

namespace Sys2Proof.Machine

open Sys2Proof

/-! ## What is due -/

/-- The row of a byte in the translator's position `x` (R98, R99). -/
def xlRow (p : Params) : XlState → Byte → Instr
  | .ground, b => scRow p b
  | .afterE0, b => scE0Row b
  | .afterE1, b => scE1Row b
  | .afterE1Cont, b => .xlE1Third b

theorem dueAt_xlByte {p : Params} {x y : XlState} (hx : x = y) (b : Byte) :
    dueAt p x (.xlByte (some b)) = .instr (xlRow p y b) := by
  subst hx
  cases x <;> simp only [dueAt, XlState.format, decode, byteRow_toNat, xlRow]

theorem mainDue_xlByte {s : State} {x : XlState} {b : Byte} {k : List Point} (hc : s.cont = .xlByte (some b) :: k)
    (hx : s.xlState = x) : mainDue s = .instr (xlRow s.params x b) :=
  (mainDue_cons hc).trans (dueAt_xlByte hx b)

theorem dueAt_xlEntry (p : Params) (x : XlState) (e : Byte) : dueAt p x (.xlEntry e) = .instr (teRow e) := by
  simp only [dueAt, decode, byteRow_toNat]

theorem teRow_valid {e : Byte} (h7 : e.getLsbD 7 = true) : teRow e = .xlOutputValid (e.extractLsb' 0 7) := if_pos h7

theorem teRow_sentinel {e : Byte} (h7 : e.getLsbD 7 = false) : teRow e = .xlOutputSentinel (e.extractLsb' 0 7) :=
  if_neg (ne_true_of_eq_false h7)

/-- A row whose rule, run at the state `t` that has `s`'s modifiers or new ones, ends the call without output (R240). -/
theorem exec_noOutput {i : Instr} {s t : State} (hd : mainDue s = .instr i)
    (hi : exec i s = if mainDue s = .instr i then .next t.noOutput else .refused .outOfSequence) :
    exec i s = .next t.noOutput := hi.trans (if_pos hd)

/-! ## The bytes of a call -/

theorem exec_translatePoll {s : State} {k : List Point} (hm : MayCall .translatePoll s k) : exec .translatePoll s
    = .next { s with xlState := .ground, cont := .op .ps2RecvNonblocking :: .xlAwait :: k } := by
  rw [exec, execTranslatePoll, whenCalled_may _ hm]

/-- A row that calls for one more byte awaits it with the blocking receive (R241, R242, R255, D24). -/
theorem exec_xlMore {s : State} {i : Instr} {b : Byte} {k : List Point} {x y : XlState}
    (hi : exec i s = whenDue i s fun _ t => xlMore y t) (hc : s.cont = .xlByte (some b) :: k) (hx : s.xlState = x)
    (hr : xlRow s.params x b = i) :
    exec i s = .next { s with xlState := y, cont := .op .ps2RecvBlocking :: .xlAwait :: k } := by
  rw [hi, whenDue_cons _ hc (hr ▸ dueAt_xlByte hx b), xlMore_eq]

/-- Settles O34: the call and the empty result by their rules, each prefix by `exec_xlMore`. -/
theorem translatorFetchesItsBytes : Obligations.TranslatorFetchesItsBytes := fun _ _ =>
  ⟨exec_translatePoll, fun hc => exec_noOutput (mainDue_cons hc) rfl,
    fun hc hx => exec_xlMore rfl hc hx rfl, fun hc hx => exec_xlMore rfl hc hx rfl,
    fun hc hx => exec_xlMore rfl hc hx rfl, fun hc hx => exec_xlMore rfl hc hx rfl⟩

/-! ## Bytes without output -/

/-- Settles O35: each of the eight codes is due at its byte, and its rule sets or clears the bit and ends the call. -/
theorem modifierCodesSetAndClearTheirBit : Obligations.ModifierCodesSetAndClearTheirBit := by
  intro s k
  refine ⟨fun hx => ⟨?_, ?_, ?_, ?_, ?_, ?_⟩, fun hx => ⟨?_, ?_⟩⟩
  all_goals exact fun hc => exec_noOutput (mainDue_xlByte hc hx) rfl

/-- Settles O36: every discarded row that is due answers by the one rule that ends the call without output. -/
theorem discardedCodesHaveNoEffect : Obligations.DiscardedCodesHaveNoEffect := by
  intro s i hd hi
  simp only [List.mem_cons, List.not_mem_nil, or_false] at hi
  rcases hi with (rfl | rfl | rfl | rfl | rfl | rfl | rfl | rfl) | ⟨x, rfl⟩ | ⟨x, rfl⟩ | ⟨x, rfl⟩ | ⟨x, rfl⟩ | ⟨b, rfl⟩
    | ⟨b, rfl⟩ | ⟨b, rfl⟩ | ⟨x, rfl⟩
  all_goals exact exec_noOutput hd rfl

/-! ## Lookup -/

section
variable {s : State} {k : List Point} {e : Byte}

theorem exec_xlLookup {code : Byte} (hl : WellFormed s.params (.xlLookup code) = true)
    (hc : s.cont = .xlByte (some code) :: k) (hx : s.xlState = .ground)
    (he : (s.params.table.row s.row)[code.toNat]? = some e) :
    exec (.xlLookup code) s = .next { s with xlState := .ground, cont := .xlEntry e :: k } := by
  have hd := dueAt_xlByte (p := s.params) hx code
  rw [xlRow, scRow_lookup hl] at hd
  rw [exec, execXlLookup, whenDue_cons _ hc hd, xlRead_some (by exact he)]

/-- An arrow is looked up at its slot, which passes the filter (R244). -/
theorem exec_arrow {i : Instr} {b slot : Byte} (hi : exec i s = whenDue i s fun _ t => xlFilter slot t)
    (hslot : slot = Config.slotLeft ∨ slot = Config.slotRight) (hp : s.params.wf = true)
    (hc : s.cont = .xlByte (some b) :: k) (hx : s.xlState = .afterE0) (hr : scE0Row b = i)
    (he : (s.params.table.row s.row)[slot.toNat]? = some e) :
    exec i s = .next { s with xlState := .ground, cont := .xlEntry e :: k } := by
  rw [hi, whenDue_cons _ hc (hr ▸ dueAt_xlByte hx b), xlFilter_slot (by exact hp) hslot, xlRead_some (by exact he)]
end

theorem wellFormed_lookup_lt {p : Params} {code : Byte} (h : WellFormed p (.xlLookup code) = true) :
    code.toNat < 58 := by
  simp only [WellFormed, Bool.and_eq_true] at h
  obtain ⟨⟨⟨-, hlt⟩, -⟩, -⟩ := h
  exact of_decide_eq_true hlt

/-- Settles O37: the row named by the modifiers has an entry at every slot below 58, and the rule reads it. -/
theorem lookupReadsTheRowOfTheModifiers : Obligations.LookupReadsTheRowOfTheModifiers := by
  intro s code k hp hl hc hx
  obtain ⟨e, he⟩ := row_getElem hp s.row (wellFormed_lookup_lt hl)
  refine ⟨e, ?_, (exec_xlLookup hl hc hx he).trans (by rw [← hx])⟩
  refine ⟨?_, ?_, ?_, ?_⟩ <;> rintro ⟨hs, hct⟩ <;> simpa only [State.row, hs, hct, Table.row] using he

/-- Settles O38: both slots are below 58, so the row has an entry there, and `exec_arrow` reads it. -/
theorem arrowsAreLookedUpAtTheirSlots : Obligations.ArrowsAreLookedUpAtTheirSlots := by
  intro s k hp hx
  obtain ⟨l, hl⟩ := row_getElem hp s.row (show 55 < 58 by decide)
  obtain ⟨r, hr⟩ := row_getElem hp s.row (show 56 < 58 by decide)
  exact ⟨fun hc => ⟨l, hl, exec_arrow rfl (.inl rfl) hp hc hx rfl hl⟩,
    fun hc => ⟨r, hr, exec_arrow rfl (.inr rfl) hp hc hx rfl hr⟩⟩

/-! ## The table entry -/

/-- A byte with bit 7 set is that bit and its low seven. -/
theorem bit7_append_low7 : ∀ {e : Byte}, e.getLsbD 7 = true → (1#1 ++ e.extractLsb' 0 7 : BitVec 8) = e := by decide

section
variable {s : State} {e : Byte} {k : List Point} (hc : s.cont = .xlEntry e :: k)
include hc

theorem exec_xlOutputValid (h7 : e.getLsbD 7 = true) : exec (.xlOutputValid (e.extractLsb' 0 7)) s
    = .next (returnTo (.opt (some e)) { s with xlState := .ground, cont := k }) := by
  have hd := dueAt_xlEntry s.params s.xlState e
  rw [teRow_valid h7] at hd
  rw [exec, execXlOutputValid, whenDue_cons _ hc hd, bit7_append_low7 h7, xlReturn_eq]

theorem exec_xlOutputSentinel (h7 : e.getLsbD 7 = false) : exec (.xlOutputSentinel (e.extractLsb' 0 7)) s
    = .next (returnTo (.opt none) { s with xlState := .ground, cont := k }) := by
  have hd := dueAt_xlEntry s.params s.xlState e
  rw [teRow_sentinel h7] at hd
  rw [exec, execXlOutputSentinel, whenDue_cons _ hc hd, xlReturn_eq]
end

/-- Settles O39, by bit 7 of the entry. -/
theorem entriesWithBit7AreReturned : Obligations.EntriesWithBit7AreReturned :=
  fun _ _ _ hc => ⟨exec_xlOutputValid hc, exec_xlOutputSentinel hc⟩

/-! ## The writers of the modifiers -/

/-- Both modifier bits are as they were (R29). -/
def SameModifiers (s t : State) : Prop := t.ctrlDown = s.ctrlDown ∧ t.shiftDown = s.shiftDown

theorem takeEdge_sameModifiers {s t : State} (h : takeEdge s = .next t) : SameModifiers s t := by
  obtain ⟨_, _, _, _, _, _, _, rfl⟩ := takeEdge_next h
  exact ⟨rfl, rfl⟩

/-- Settles O40: every row of `Writes` but the eleven excepted ones names neither bit. -/
theorem onlyEightInputsChangeTheModifiers : Obligations.OnlyEightInputsChangeTheModifiers := by
  intro i s t h hi
  have hw := exec_writes h
  cases i
  case xlCtrlMake | xlCtrlBreak | xlShiftMake2A | xlShiftMake36 | xlShiftBreakAA | xlShiftBreakB6 | xlE0Ctrl1D
      | xlE0Ctrl9D | init | reset | wdtExpire =>
    simp at hi
  case rxIdleStart | rxIdleBadstart | rxData | rxParity | rxStopBad | rxStopOk | rxError | bufPush | bufPushFull =>
    obtain ⟨_, _, _, _, _, _, _, rfl⟩ := hw; exact ⟨rfl, rfl⟩
  case kbdFrame => obtain ⟨_, _, _, _, _, _, _, _, _, _, rfl⟩ := hw; exact ⟨rfl, rfl⟩
  case txInhibit =>
    rcases hw with ⟨_, _, _, rfl⟩ | ⟨-, _, he⟩
    · exact ⟨rfl, rfl⟩
    · exact (takeEdge_sameModifiers he :)
  case txFinish =>
    rcases hw with ⟨_, _, rfl⟩ | ⟨-, _, _, he⟩
    · exact ⟨rfl, rfl⟩
    · exact (takeEdge_sameModifiers he :)
  case a2Write => obtain ⟨_, _, _, _, rfl, -⟩ := hw; exact ⟨rfl, rfl⟩
  case ps2RecvNonblocking | ps2RecvBlocking => obtain ⟨_, _, _, _, rfl⟩ := hw; exact ⟨rfl, rfl⟩
  case startup => obtain ⟨-, _, _, rfl⟩ := hw; exact ⟨rfl, rfl⟩
  case txPrepare | txRtsRelease | wdtReset => obtain ⟨_, rfl⟩ := hw; exact ⟨rfl, rfl⟩
  case ps2Send | txSettle | txAck | txAckEnd | cmdSetLeds | cmdSetTypematic | cmdSetScanset | respAck | respResend
      | kbdCommand | loopIteration | txRtsData | txReleaseData | txBit =>
    obtain ⟨_, _, rfl⟩ := hw; exact ⟨rfl, rfl⟩
  -- the translator's other rows: continuation, result and position
  all_goals obtain ⟨_, _, _, rfl⟩ := hw; exact ⟨rfl, rfl⟩

end Sys2Proof.Machine
end

section
/-! The translator in the block: runs of MAIN with nothing else scheduled, from the top of the loop through a call of
`translate_poll` to the Apple II (spec/95_test_vectors.md S4 to S6). -/

namespace Sys2Proof.Machine

open Sys2Proof

/-! ## Runs -/

/-- Two runs, one after the other. -/
theorem run_trans {m n : Nat} {s t u : State} (h1 : Sys2Proof.core.run m s = .next t)
    (h2 : Sys2Proof.core.run n t = .next u) : Sys2Proof.core.run (m + n) s = .next u := by
  induction m generalizing s with
  | zero =>
    obtain rfl := Host.Outcome.next.inj h1
    rwa [Nat.zero_add]
  | succ m ih =>
    cases hs : step s with
    | next r =>
      rw [run_succ hs] at h1
      rw [Nat.add_right_comm, run_succ hs, ih h1]
    | fault r => simp only [Host.Core.run, show Sys2Proof.core.step s = .fault r from hs, reduceCtorEq] at h1
    | refused r => simp only [Host.Core.run, show Sys2Proof.core.step s = .refused r from hs, reduceCtorEq] at h1

/-- A run begins with the instruction that is due. -/
theorem run_main {n : Nat} {s t : State} {i : Instr} (h : s.inputs = []) (hd : mainDue s = .instr i)
    (he : exec i s = .next t) : Sys2Proof.core.run (n + 1) s = Sys2Proof.core.run n t :=
  run_succ ((step_main h hd).trans he)

/-- The same where the control point is known. -/
theorem run_cons {n : Nat} {s t : State} {i : Instr} {p : Point} {k : List Point} (h : s.inputs = [])
    (hc : s.cont = p :: k) (hd : dueAt s.params s.xlState p = .instr i) (he : exec i s = .next t) :
    Sys2Proof.core.run (n + 1) s = Sys2Proof.core.run n t :=
  run_succ ((step_cons h hc hd).trans he)

/-! ## The bytes of a call -/

/-- MAIN moves, pops are atomic, and the buffer holds the bytes `q`, oldest first. -/
structure Holds (s : State) (q : List (Option Byte)) : Prop where
  inputs : s.inputs = []
  atomic : s.params.bufPopAtomic = true
  buffer : BufOk s
  queue : s.queue = q

/-- MAIN's control state and the output do not matter to it. -/
theorem Holds.congr {s t : State} {q : List (Option Byte)} (h : Holds s q) (hi : t.inputs = s.inputs)
    (hb : t.buf = s.buf) (hw : t.bufWr = s.bufWr) (hr : t.bufRd = s.bufRd) (hc : t.bufCount = s.bufCount)
    (hp : t.params = s.params) : Holds t q where
  inputs := hi.trans h.inputs
  atomic := by rw [hp]; exact h.atomic
  buffer := h.buffer.congr hb hw hr hc hp
  queue := (queue_congr hb hr hc hp).trans h.queue

/-- A receive has taken the oldest byte `v` out of the buffer, for the translator in position `x` to classify. -/
def State.taken (s : State) (x : XlState) (blocking : Bool) (v : Byte) (k : List Point) : State :=
  { s with
    bufCount := s.bufCount - 1, bufRd := (s.bufRd + 1) % s.params.bufCap, xlState := x, ret := received blocking v
    cont := .xlByte (some v) :: k }

section
variable {s : State} {v : Byte} {q : List (Option Byte)} {k : List Point} (h : Holds s (some v :: q))
include h

theorem Holds.taken (x : XlState) (b : Bool) (k : List Point) : Holds (s.taken x b v k) q := by
  obtain ⟨hc, -, hq⟩ := queue_head h.buffer h.queue
  exact {
    inputs := h.inputs
    atomic := h.atomic
    buffer := (h.buffer.pop hc).congr rfl rfl rfl rfl rfl
    queue := hq }

/-- A receive of the translator's takes the oldest byte (R163, R164, R240). -/
theorem run_receive {b : Bool} (hc : s.cont = .op (popOperation b) :: .xlAwait :: k) :
    Sys2Proof.core.run 1 s = .next (s.taken s.xlState b v k) := by
  obtain ⟨h0, hv, -⟩ := queue_head h.buffer h.queue
  have he := exec_popOperation_atomic (.inl hc) h0 h.atomic h.buffer.rd hv
  rw [run_cons h.inputs hc rfl he]
  cases b <;> rfl

/-- The call fetches its first byte (R240). -/
theorem run_firstByte (hc : s.cont = .op .translatePoll :: k) :
    Sys2Proof.core.run 2 s = .next (s.taken .ground false v k) := by
  rw [run_cons h.inputs hc rfl (exec_translatePoll (.inl hc))]
  exact run_receive (b := false) (by exact h.congr rfl rfl rfl rfl rfl rfl) rfl

/-- After a row that calls for one more byte the call fetches it (R241, R242, R255). -/
theorem run_nextByte {b : Byte} {x y : XlState} (i : Instr) (hc : s.cont = .xlByte (some b) :: k) (hx : s.xlState = x)
    (hr : xlRow s.params x b = i) (hi : exec i s = whenDue i s fun _ t => xlMore y t) :
    Sys2Proof.core.run 2 s = .next (s.taken y true v k) := by
  rw [run_main h.inputs (hr ▸ mainDue_xlByte hc hx) (exec_xlMore hi hc hx hr)]
  exact run_receive (b := true) (by exact h.congr rfl rfl rfl rfl rfl rfl) rfl

/-- After E1, the bytes 1D and 9D call for a third one (R255). -/
theorem run_e1Cont {c : Byte} (hcont : c = 0x1D ∨ c = 0x9D) (hc : s.cont = .xlByte (some c) :: k)
    (hx : s.xlState = .afterE1) : Sys2Proof.core.run 2 s = .next (s.taken .afterE1Cont true v k) := by
  rcases hcont with rfl | rfl
  · exact run_nextByte h .xlE1Cont1D hc hx rfl rfl
  · exact run_nextByte h .xlE1Cont9D hc hx rfl rfl
end

/-- Without output, the dispatch loop's iteration ends with the call (R305). -/
theorem noOutput_loopOut {s : State} {p : Point} {k : List Point} (hc : s.cont = p :: .loopOut :: k) :
    s.noOutput = { s with xlState := .ground, ret := .opt none, cont := k } := by
  rw [State.noOutput, popPoint_cons hc]
  exact returnTo_of_cont (returnTo_loopOut_none _ _ rfl)

/-- The third byte of an E1 sequence is discarded (R256). -/
theorem run_e1Third {s : State} {b : Byte} {k : List Point} (hin : s.inputs = [])
    (hc : s.cont = .xlByte (some b) :: .loopOut :: k) (hx : s.xlState = .afterE1Cont) :
    Sys2Proof.core.run 1 s = .next { s with xlState := .ground, ret := .opt none, cont := k } := by
  have hd := mainDue_xlByte hc hx
  rw [run_main hin hd (exec_noOutput hd rfl), noOutput_loopOut hc, run_zero]

/-- Settles O41: the call takes three bytes, the second and the third because of the byte before, and discards the
third. -/
theorem pauseSequenceIsConsumedWhole : Obligations.PauseSequenceIsConsumedWhole := by
  intro s c x q hb ha hin hc hcont hq
  have h0 : Holds s (some 0xE1 :: some c :: some x :: q) := ⟨hin, ha, hb, hq⟩
  have h1 := h0.taken .ground false [.loopOut]
  have h2 := h1.taken .afterE1 true [.loopOut]
  have h3 := h2.taken .afterE1Cont true [.loopOut]
  have r1 := run_firstByte h0 hc
  have r2 := run_nextByte h1 .xlE1 rfl rfl rfl rfl
  have r3 := run_e1Cont h2 hcont rfl rfl
  have r4 := run_e1Third h3.inputs rfl rfl
  exact ⟨_, run_trans r1 (run_trans r2 (run_trans r3 r4)), h3.queue, rfl, rfl, rfl, rfl, rfl, rfl, rfl, rfl⟩

/-! ## The writer -/

section
variable {s : State} {c : BitVec 7} {k : List Point}

theorem dueAt_a2Byte {p : Params} {x : XlState} {e : Byte} (h7 : e.getLsbD 7 = true) :
    dueAt p x (.a2Byte e) = .instr (.a2Write (e.extractLsb' 0 7)) := by
  simp only [dueAt, decode, byteRow_toNat, h7, if_true]

/-- The byte is put on the data lines (R291). -/
theorem exec_a2Byte {e : Byte} (hc : s.cont = .a2Byte e :: k) (h7 : e.getLsbD 7 = true) :
    exec (.a2Write (e.extractLsb' 0 7)) s
      = .next { s with a2Data := e, cont := .a2Setup (e.extractLsb' 0 7) :: k } := by
  rw [exec, execA2Write, whenCalled_cons _ hc (dueAt_a2Byte h7)]
  simp only [bit7_append_low7 h7]
  rfl

/-- The settle delay (R291). -/
theorem exec_a2Setup (hc : s.cont = .a2Setup c :: k) :
    exec (.a2Write c) s = .next { s with cont := .a2Fall c :: k } := by
  rw [exec, execA2Write, whenCalled_cons _ hc rfl]
  rfl

/-- The strobe falls, and the Apple II latches the seven data lines if it was high (R291, R293). -/
theorem exec_a2Fall (hc : s.cont = .a2Fall c :: k) : exec (.a2Write c) s
    = .next { s with
        a2StrobeN := false
        a2Seen := if s.a2StrobeN = true then s.a2Seen ++ [s.a2Data.extractLsb' 0 7] else s.a2Seen
        cont := .a2Hold c :: k } := by
  rw [exec, execA2Write, whenCalled_cons _ hc rfl]
  rfl

/-- The pulse width (R291). -/
theorem exec_a2Hold (hc : s.cont = .a2Hold c :: k) :
    exec (.a2Write c) s = .next { s with cont := .a2Rise c :: k } := by
  rw [exec, execA2Write, whenCalled_cons _ hc rfl]
  rfl

/-- The strobe rises (R291). -/
theorem exec_a2Rise (hc : s.cont = .a2Rise c :: k) :
    exec (.a2Write c) s = .next { s with a2StrobeN := true, cont := k } := by
  rw [exec, execA2Write, whenCalled_cons _ hc rfl]
end

/-- `a2_write` puts the byte on the data lines and strobes it once (R291, R293). -/
theorem run_a2Write {s : State} {e : Byte} {k : List Point} (hin : s.inputs = []) (hc : s.cont = .a2Byte e :: k)
    (hn : s.a2StrobeN = true) (h7 : e.getLsbD 7 = true) : Sys2Proof.core.run 5 s
      = .next { s with a2Data := e, a2Seen := s.a2Seen ++ [e.extractLsb' 0 7], cont := k } := by
  rw [run_cons hin hc (dueAt_a2Byte h7) (exec_a2Byte hc h7), run_cons (by exact hin) rfl rfl (exec_a2Setup rfl),
    run_cons (by exact hin) rfl rfl (exec_a2Fall rfl), run_cons (by exact hin) rfl rfl (exec_a2Hold rfl),
    run_cons (by exact hin) rfl rfl (exec_a2Rise rfl)]
  simp only [run_zero, hn, if_true]

/-! ## From a table entry to the top of the loop -/

section
variable {s : State} {e : Byte} (hin : s.inputs = []) (hc : s.cont = [.xlEntry e, .loopOut])
include hin hc

/-- A valid entry is returned and written (R254, R305). -/
theorem run_entryValid (hn : s.a2StrobeN = true) (h7 : e.getLsbD 7 = true) : Sys2Proof.core.run 6 s
    = .next { s with
        xlState := .ground, ret := .opt (some e), a2Data := e, a2Seen := s.a2Seen ++ [e.extractLsb' 0 7]
        cont := [] } := by
  have hd := dueAt_xlEntry s.params s.xlState e
  rw [teRow_valid h7] at hd
  rw [run_cons hin hc hd (exec_xlOutputValid hc h7)]
  exact run_a2Write hin rfl hn h7

/-- A sentinel ends the iteration without a write (R254, R305). -/
theorem run_entrySentinel (h7 : e.getLsbD 7 = false) :
    Sys2Proof.core.run 1 s = .next { s with xlState := .ground, ret := .opt none, cont := [] } := by
  have hd := dueAt_xlEntry s.params s.xlState e
  rw [teRow_sentinel h7] at hd
  exact run_cons hin hc hd (exec_xlOutputSentinel hc h7)
end

/-! ## One iteration -/

theorem exec_loopIteration {s : State} {k : List Point} (hm : MayCall .loopIteration s k) : exec .loopIteration s
    = .next { s with cont := .op .wdtReset :: .op .translatePoll :: .loopOut :: k } := by
  rw [exec, execLoopIteration, whenCalled_may _ hm]

theorem exec_wdtReset {s : State} {k : List Point} (hm : MayCall .wdtReset s k) :
    exec .wdtReset s = .next { s with wdt := 0, cont := k } := by
  rw [exec, execWdtReset, whenCalled_may _ hm]

/-- MAIN, between two iterations of the loop, services the watchdog and calls the translator (R305, R306). -/
def State.polling (s : State) : State := { s with wdt := 0, cont := [.op .translatePoll, .loopOut] }

theorem run_iterationStart {s : State} (hl : AtLoopTop s) : Sys2Proof.core.run 2 s = .next s.polling := by
  obtain ⟨hm, hc, hin⟩ := hl
  have hd : mainDue s = .instr .loopIteration := by rw [mainDue, mainTop_loop hc hm, dueAt]
  rw [run_main hin hd (exec_loopIteration (.inr ⟨hc, rfl⟩))]
  exact run_cons hin rfl rfl (exec_wdtReset (.inl rfl))

theorem Holds.polling {s : State} {q : List (Option Byte)} (hl : AtLoopTop s) (ha : s.params.bufPopAtomic = true)
    (hb : BufOk s) (hq : s.queue = q) : Holds s.polling q := by
  obtain ⟨-, -, hin⟩ := hl
  exact Holds.congr ⟨hin, ha, hb, hq⟩ rfl rfl rfl rfl rfl rfl

/-- The iteration has taken a code out of the buffer and has read the entry `e` for it. -/
def ReadsEntry (s t : State) (e : Byte) : Prop :=
  ∃ n d x r, t = { s with
    wdt := 0, bufCount := n, bufRd := d, xlState := x, ret := r, cont := [.xlEntry e, .loopOut] }

/-- The iteration is over: the buffer holds `q`, the data lines `a`, the Apple II has latched `seen`, the watchdog is
serviced, and the modifiers are those of `s`. -/
def EndsIteration (s t : State) (q : List (Option Byte)) (a : Byte) (seen : List (BitVec 7)) : Prop :=
  AtLoopTop t ∧ t.queue = q ∧ t.a2Data = a ∧ t.a2StrobeN = true ∧ t.a2Seen = seen ∧ t.wdt = 0
    ∧ t.ctrlDown = s.ctrlDown ∧ t.shiftDown = s.shiftDown

section
variable {s t : State} {n : Nat} {e : Byte} {q : List (Option Byte)} (hl : AtLoopTop s) (hn : s.a2StrobeN = true)
  (hrun : Sys2Proof.core.run n s = .next t) (he : ReadsEntry s t e) (hq : t.queue = q)
include hl hn hrun he hq

/-- An iteration that has read an entry shows it to the Apple II, or nothing, by the entry's bit 7 (R254, R291, R305). -/
theorem iteration_showsEntry :
    (e.getLsbD 7 = true → ∃ u, Sys2Proof.core.run (n + 6) s = .next u
      ∧ EndsIteration s u q e (s.a2Seen ++ [e.extractLsb' 0 7]))
    ∧ (e.getLsbD 7 = false → ∃ u, Sys2Proof.core.run (n + 1) s = .next u
      ∧ EndsIteration s u q s.a2Data s.a2Seen) := by
  obtain ⟨hm, -, hin⟩ := hl
  obtain ⟨_, _, _, _, rfl⟩ := he
  exact ⟨fun h7 => ⟨_, run_trans hrun (run_entryValid hin rfl hn h7), ⟨hm, rfl, hin⟩, hq, rfl, hn, rfl, rfl, rfl, rfl⟩,
    fun h7 => ⟨_, run_trans hrun (run_entrySentinel hin rfl h7), ⟨hm, rfl, hin⟩, hq, rfl, hn, rfl, rfl, rfl, rfl⟩⟩
end

/-- A code that no other class takes is looked up in the row of the modifiers (R253). -/
theorem run_xlLookup {s : State} {code e : Byte} {k : List Point} (hin : s.inputs = [])
    (hl : WellFormed s.params (.xlLookup code) = true) (hc : s.cont = .xlByte (some code) :: k) (hx : s.xlState = .ground)
    (he : (s.params.table.row s.row)[code.toNat]? = some e) :
    Sys2Proof.core.run 1 s = .next { s with xlState := .ground, cont := .xlEntry e :: k } := by
  have hd := mainDue_xlByte hc hx
  rw [xlRow, scRow_lookup hl] at hd
  exact run_main hin hd (exec_xlLookup hl hc hx he)

/-- Settles O48: the first byte of the call is looked up, and `iteration_showsEntry` ends the iteration. -/
theorem keyReachesTheAppleAsItsEntry : Obligations.KeyReachesTheAppleAsItsEntry := by
  intro s code e q hb hp ha hl hn hq hcode he
  have h0 := Holds.polling hl ha hb hq
  have h1 := h0.taken .ground false [.loopOut]
  have r1 := run_trans (run_iterationStart hl) (run_firstByte h0 rfl)
  have r2 := run_xlLookup h1.inputs hcode rfl rfl he
  exact iteration_showsEntry hl hn (run_trans r1 r2) ⟨_, _, _, _, rfl⟩ h1.queue

/-- The byte of an arrow, after E0, is looked up at the arrow's slot (R244). -/
theorem run_arrow {s : State} {b e : Byte} {slot : Nat} {k : List Point} (hin : s.inputs = [])
    (hs : b = 0x4B ∧ slot = 55 ∨ b = 0x4D ∧ slot = 56) (hp : s.params.wf = true)
    (hc : s.cont = .xlByte (some b) :: k) (hx : s.xlState = .afterE0)
    (he : (s.params.table.row s.row)[slot]? = some e) :
    Sys2Proof.core.run 1 s = .next { s with xlState := .ground, cont := .xlEntry e :: k } := by
  rcases hs with ⟨rfl, rfl⟩ | ⟨rfl, rfl⟩
  · exact run_main hin (mainDue_xlByte hc hx) (exec_arrow (i := .xlE0Arrow4B) rfl (.inl rfl) hp hc hx rfl he)
  · exact run_main hin (mainDue_xlByte hc hx) (exec_arrow (i := .xlE0Arrow4D) rfl (.inr rfl) hp hc hx rfl he)

/-- Settles O49: E0 fetches the arrow's byte, which is looked up, and `iteration_showsEntry` ends the iteration. -/
theorem arrowReachesTheAppleFromItsSlot : Obligations.ArrowReachesTheAppleFromItsSlot := by
  intro s b slot e q hb hp ha hl hn hq hslot he
  have h0 := Holds.polling hl ha hb hq
  have h1 := h0.taken .ground false [.loopOut]
  have h2 := h1.taken .afterE0 true [.loopOut]
  have r1 := run_trans (run_iterationStart hl) (run_firstByte h0 rfl)
  have r2 := run_nextByte h1 .xlE0 rfl rfl rfl rfl
  have r3 := run_arrow h2.inputs hslot hp rfl rfl he
  exact iteration_showsEntry hl hn (run_trans r1 (run_trans r2 r3)) ⟨_, _, _, _, rfl⟩ h2.queue

end Sys2Proof.Machine
end

section
/-! The writer, one step at a time (spec/45_writer.md R291, R293): the steps of `a2_write` from its call, and the one
step of all at which the Apple II observes a code. -/

namespace Sys2Proof.Machine

open Sys2Proof

/-! ## The steps of the write -/

/-- Called as an operation, the write puts its byte on the data lines (R291). -/
theorem exec_a2Write_called {s : State} {c : BitVec 7} {k : List Point} (hm : MayCall (.a2Write c) s k) :
    exec (.a2Write c) s = .next { s with a2Data := (1#1 ++ c : BitVec 8), cont := .a2Setup c :: k } := by
  rw [exec, execA2Write, whenCalled_may _ hm]
  rfl

/-- Reached from the loop with the byte 1ccccccc, it does the same (R291, R305). -/
theorem exec_a2Write_byte {s : State} {c : BitVec 7} {k : List Point}
    (hc : s.cont = .a2Byte (1#1 ++ c : BitVec 8) :: k) :
    exec (.a2Write c) s = .next { s with a2Data := (1#1 ++ c : BitVec 8), cont := .a2Setup c :: k } := by
  have h7 : (1#1 ++ c : BitVec 8).getLsbD 7 = true := by rw [BitVec.getLsbD_append]; rfl
  have hlow : (1#1 ++ c : BitVec 8).extractLsb' 0 7 = c := BitVec.extractLsb'_append_eq_right
  have he := exec_a2Byte hc h7
  rwa [hlow] at he

/-- Settles O42, by the control point: the byte from a call or from the loop, then the strobe's two edges, each after a
delay. -/
theorem writerDrivesDataThenStrobe : Obligations.WriterDrivesDataThenStrobe :=
  fun _ _ _ => ⟨fun h => h.elim exec_a2Write_called exec_a2Write_byte, exec_a2Setup, exec_a2Fall, exec_a2Hold,
    exec_a2Rise⟩

/-! ## What the Apple II observes -/

/-- An edge event of the receiver shows the Apple II nothing. -/
theorem takeEdge_a2Seen {s t : State} (h : takeEdge s = .next t) : t.a2Seen = s.a2Seen := by
  obtain ⟨_, _, _, _, _, _, _, rfl⟩ := takeEdge_next h
  rfl

/-- No row of `Writes` but that of `a2_write` names the record; the two resets carry it over (log entry 15). -/
theorem Writes.a2Seen {i : Instr} {s t : State} (h : Writes s t i) (hi : ∀ c, i ≠ .a2Write c) :
    t.a2Seen = s.a2Seen := by
  cases i
  case a2Write c => exact absurd rfl (hi c)
  case rxIdleStart | rxIdleBadstart | rxData | rxParity | rxStopBad | rxStopOk | rxError | bufPush | bufPushFull =>
    obtain ⟨_, _, _, _, _, _, _, rfl⟩ := h; rfl
  case kbdFrame => obtain ⟨_, _, _, _, _, _, _, _, _, _, rfl⟩ := h; rfl
  case txInhibit =>
    rcases h with ⟨_, _, _, rfl⟩ | ⟨-, _, he⟩
    · rfl
    · exact (takeEdge_a2Seen he :)
  case txFinish =>
    rcases h with ⟨_, _, rfl⟩ | ⟨-, _, _, he⟩
    · rfl
    · exact (takeEdge_a2Seen he :)
  case ps2RecvNonblocking | ps2RecvBlocking => obtain ⟨_, _, _, _, rfl⟩ := h; rfl
  case init => obtain ⟨-, _, rfl⟩ := h; rfl
  case startup => obtain ⟨-, _, _, rfl⟩ := h; rfl
  case wdtExpire => obtain ⟨-, rfl⟩ := h; rfl
  case reset => obtain rfl := h; rfl
  case txPrepare | txRtsRelease | wdtReset => obtain ⟨_, rfl⟩ := h; rfl
  case ps2Send | txSettle | txAck | txAckEnd | cmdSetLeds | cmdSetTypematic | cmdSetScanset | respAck | respResend
      | kbdCommand | loopIteration | txRtsData | txReleaseData | txBit | xlCtrlMake | xlE0Ctrl1D | xlCtrlBreak
      | xlE0Ctrl9D | xlShiftMake2A | xlShiftMake36 | xlShiftBreakAA | xlShiftBreakB6 =>
    obtain ⟨_, _, rfl⟩ := h; rfl
  -- the translator's other rows: continuation, result and position
  all_goals obtain ⟨_, _, _, rfl⟩ := h; rfl

/-- The row of `a2_write`: the record is as it was, or the strobe fell and the data lines were latched (R293). -/
theorem Writes.a2Write_observes {c : BitVec 7} {s t : State} (h : Writes s t (.a2Write c)) :
    t.a2Seen = s.a2Seen ∨ s.a2StrobeN = true ∧ t.a2StrobeN = false
      ∧ t.a2Seen = s.a2Seen ++ [s.a2Data.extractLsb' 0 7] := by
  obtain ⟨_, _, _, _, rfl, hl⟩ := h
  exact hl

/-- Settles O43, by whether the instruction is `a2_write`. -/
theorem onlyTheStrobesFallIsObserved : Obligations.OnlyTheStrobesFallIsObserved := by
  intro i s t h
  have hw := exec_writes h
  by_cases hi : ∃ c, i = .a2Write c
  · obtain ⟨c, rfl⟩ := hi
    exact hw.a2Write_observes.imp_right fun hfall => ⟨⟨c, rfl⟩, hfall⟩
  · exact .inl (hw.a2Seen (not_exists.mp hi))

end Sys2Proof.Machine
end

section
/-! MAIN's program, one step at a time (spec/46_dispatch_loop.md R300 to R306): initialisation, the startup commands, and
an iteration of the loop. -/

namespace Sys2Proof.Machine

open Sys2Proof

/-! ## Initialisation and startup -/

/-- With no operation under way, the one that the phase calls for runs from its beginning. -/
theorem whenDue_nil {i : Instr} {s : State} (f : Point → State → Out) (hc : s.cont = []) (hp : mainTop s = .op i) :
    whenDue i s f = f (.op i) s := by
  have hd : mainDue s = .instr i := by rw [mainDue, hp, dueAt]
  rw [whenDue, if_pos hd, hp, popPoint_nil hc]

/-- Settles O44: in phase Init the operation is due and runs; in another phase another operation is due. -/
theorem initPreparesTheFirstCommand : Obligations.InitPreparesTheFirstCommand := by
  refine fun s hc => ⟨fun hm => ?_, fun hm => if_neg fun hd => ?_⟩
  · have hp : mainTop s = .op .init := by rw [mainTop_nil hc, hm]
    rw [exec, execInit, whenDue_nil _ hc hp]
    exact if_pos hm
  · have hp := op_of_mainDue_nil hc hd
    rw [mainTop_nil hc] at hp
    split at hp
    · exact hm ‹_›
    all_goals cases hp

section
variable {s : State} {n : Nat} (hm : s.mainPhase = .startup n)
include hm

/-- `startup` issues its n-th command (R302). -/
theorem exec_startup_issues {c : Instr} (hc : s.cont = []) (hn : (startupCommands s.params)[n]? = some c) :
    exec .startup s = .next { s with cont := [.op c, .startupNext] } := by
  rw [exec, execStartup, whenDue_nil _ hc (by rw [mainTop_nil hc, hm])]
  simp only [hm, hn, hc]

/-- After the last command it enters the loop (R302, R304). -/
theorem exec_startup_ends (hc : s.cont = []) (hn : (startupCommands s.params)[n]? = none) :
    exec .startup s = .next { s with mainPhase := .loop } := by
  rw [exec, execStartup, whenDue_nil _ hc (by rw [mainTop_nil hc, hm])]
  simp only [hm, hn]

/-- A command has returned: the next one is due (R302, R303). -/
theorem exec_startupNext {k : List Point} (hc : s.cont = .startupNext :: k) :
    exec .startup s = .next { s with mainPhase := .startup (n + 1), cont := k } := by
  rw [exec, execStartup, whenDue_cons _ hc rfl]
  simp only [hm]
end

/-- A command's response goes to nobody: it is only recorded (R303). -/
theorem returnTo_startupNext {s : State} {k : List Point} (hc : s.cont = .startupNext :: k) (r : Ret) :
    returnTo r s = { s with ret := r } :=
  returnTo_of_cont (returnTo_cont_of_plain s r (by simp [hc]))

/-- Settles O45, by the place of the n-th command; a return to startup only records the response. -/
theorem startupIssuesItsCommandsInOrder : Obligations.StartupIssuesItsCommandsInOrder := by
  refine fun s n k hm => ⟨fun hc => ⟨fun e he => ?leds, fun hn => ?typematic, fun hn => ?scanset, fun hn => ?none⟩,
    fun hc => ⟨fun v => returnTo_startupNext hc (.byte v), exec_startupNext hm hc⟩⟩
  case leds =>
    obtain ⟨hlt, -⟩ := List.getElem?_eq_some_iff.mp he
    refine exec_startup_issues hm hc ?_
    rw [startupCommands, List.getElem?_append_left (by rwa [List.length_map]), List.getElem?_map, he, Option.map_some]
  case typematic => exact exec_startup_issues hm hc (by simp [startupCommands, hn])
  case scanset => exact exec_startup_issues hm hc (by simp [startupCommands, hn, Config.scansetId])
  case none => exact exec_startup_ends hm hc (List.getElem?_eq_none (by simpa [startupCommands] using hn))

/-! ## The loop -/

/-- Settles O46: the iteration and the service run from their beginnings; the test of the result belongs to the return. -/
theorem iterationServicesThenPolls : Obligations.IterationServicesThenPolls := fun s k =>
  ⟨fun _ => exec_loopIteration, exec_wdtReset,
    fun hc => ⟨fun a => returnTo_of_cont (returnTo_loopOut_some s a k hc),
      returnTo_of_cont (returnTo_loopOut_none s k hc)⟩⟩

/-- On an empty buffer a call of the translator finds no byte (R163, R240). -/
theorem run_noByte {s : State} {k : List Point} (hin : s.inputs = []) (h0 : s.bufCount = 0)
    (hc : s.cont = .op .translatePoll :: k) :
    Sys2Proof.core.run 2 s = .next { s with xlState := .ground, ret := .opt none, cont := .xlByte none :: k } := by
  rw [run_cons hin hc rfl (exec_translatePoll (.inl hc))]
  have he := exec_popOperation_empty (b := false) (k := .xlAwait :: k)
    (s := { s with xlState := .ground, cont := .op .ps2RecvNonblocking :: .xlAwait :: k }) (.inl rfl) h0
  exact run_cons hin rfl rfl he

/-- Without a byte the call ends, and with it the iteration (R258, R305). -/
theorem run_xlEmpty {s : State} {k : List Point} (hin : s.inputs = []) (hc : s.cont = .xlByte none :: .loopOut :: k) :
    Sys2Proof.core.run 1 s = .next { s with xlState := .ground, ret := .opt none, cont := k } := by
  have hd : mainDue s = .instr .xlEmpty := mainDue_cons hc
  rw [run_main hin hd (exec_noOutput hd rfl), noOutput_loopOut hc, run_zero]

/-- Settles O47: the watchdog is serviced, the call finds no byte, and the iteration ends with it. -/
theorem emptyIterationOnlyServicesTheWatchdog : Obligations.EmptyIterationOnlyServicesTheWatchdog := by
  intro s hl h0
  have r := run_iterationStart hl
  obtain ⟨-, hc, hin⟩ := hl
  rw [run_trans r (run_trans (run_noByte hin h0 rfl) (run_xlEmpty hin rfl)), ← hc]
  rfl

end Sys2Proof.Machine
end

section
/-! No admissible step stops (R304, R322): what is due to MAIN in a state of the invariant, that it answers, and that the
other agents' steps do. -/

namespace Sys2Proof.Machine

open Sys2Proof

/-! ## What is due to MAIN -/

/-- What an instruction needs to be MAIN's next one: `init` and `startup` their phase, a lookup a code that the table has
a slot for; the other agents' instructions are never due to MAIN (R13, R34, R62). -/
def MainMayRun (s : State) : Instr → Prop
  | .init => s.mainPhase = .init
  | .startup => ∃ n, s.mainPhase = .startup n
  | .xlLookup code => code.toNat < 58
  | .rxIdleStart | .rxIdleBadstart | .rxData _ | .rxParity _ | .rxStopBad | .rxStopOk | .rxError _ _ | .kbdFrame _
  | .bufPush _ | .bufPushFull _ | .wdtExpire | .reset => False
  | _ => True

/-- An instruction of MAIN's is due. -/
def MainIsDue (s : State) : Prop := ∃ i, mainDue s = .instr i ∧ MainMayRun s i

/-- A translator's row that is due at a byte or an entry is well-formed, so a lookup has a slot (R253). -/
theorem mainIsDue_decoded {s : State} {f : Format} {w : Nat} {i : Instr} (hp : s.params.wf = true)
    (hd : mainDue s = decode s.params f w) (hw : decode s.params f w = .instr i) (hi : translates i = true) :
    MainIsDue s := by
  obtain ⟨hwf, -⟩ := decodedInstructionIsWellFormed _ hp f w i hw
  refine ⟨i, hd.trans hw, ?_⟩
  cases i <;> cases hi
  case xlLookup => exact wellFormed_lookup_lt hwf
  all_goals trivial

/-- With a send under way its phase is due, whichever it is (R180). -/
theorem mainIsDue_send {s : State} {k : List Point} (hc : s.cont = k) (hs : sendShape k = true) : MainIsDue s := by
  unfold sendShape at hs
  split at hs
  case h_14 => cases hs
  all_goals exact ⟨_, mainDue_cons hc, trivial⟩

section
variable {s : State} (hv : Inv s)
include hv

/-- In the loop something is due at every control point, by the shapes of the continuation (R305). -/
theorem mainIsDue_loop (hm : s.mainPhase = .loop) : MainIsDue s := by
  have hs : loopShape s.cont = true := (controlShape_loop hm).symm.trans hv.control.shape
  unfold loopShape at hs
  split at hs
  case h_1 hc => exact ⟨.loopIteration, by rw [mainDue, mainTop_loop hc hm, dueAt], trivial⟩
  case h_6 r hc =>
    cases r with
    | none => exact ⟨_, mainDue_cons hc, trivial⟩
    | some b =>
      have hd := dueAt_xlByte (p := s.params) (x := s.xlState) rfl b
      exact mainIsDue_decoded (f := s.xlState.format) hv.params (mainDue_cons hc) hd (translates_of_byte hd)
  case h_7 e hc =>
    have hd := dueAt_xlEntry s.params s.xlState e
    exact mainIsDue_decoded (f := .te) hv.params (mainDue_cons hc) hd (translates_of_entry hd)
  case h_8 hc => exact ⟨_, (mainDue_cons hc).trans (dueAt_a2Byte hs), trivial⟩
  case h_13 => cases hs
  all_goals
    rename_i hc
    exact ⟨_, mainDue_cons hc, trivial⟩

/-- During startup something is due at every control point (R302). -/
theorem mainIsDue_startup {n : Nat} (hm : s.mainPhase = .startup n) : MainIsDue s := by
  have hs : startupShape s.cont = true := (controlShape_startup hm).symm.trans hv.control.shape
  unfold startupShape at hs
  split at hs
  case h_1 hc => exact ⟨.startup, by rw [mainDue, mainTop_nil hc, hm, dueAt], n, hm⟩
  case h_2 hc => exact ⟨_, mainDue_cons hc, n, hm⟩
  case h_10 hc =>
    refine ⟨_, (mainDue_cons hc).trans (dueAt_cmdResp ..), ?_⟩
    split_ifs <;> trivial
  case h_11 => exact mainIsDue_send rfl hs
  all_goals
    rename_i hc
    exact ⟨_, mainDue_cons hc, trivial⟩

/-- Something is always due to MAIN: its program has no end (R34, R304). -/
theorem Inv.mainIsDue : MainIsDue s := by
  cases hm : s.mainPhase with
  | init =>
    have hc : s.cont = [] := by
      have hs := hv.control.shape
      simp only [controlShape, hm] at hs
      exact List.isEmpty_iff.mp hs
    exact ⟨.init, by rw [mainDue, mainTop_nil hc, hm, dueAt], hm⟩
  | startup n => exact mainIsDue_startup hv hm
  | loop => exact mainIsDue_loop hv hm
end

/-! ## What is due answers -/

/-- The outcome is a next state. -/
def Answers (o : Out) : Prop := ∃ t, o = .next t

theorem Answers.of_eq {o p : Out} (h : o = p) (hp : Answers p) : Answers o := h ▸ hp

theorem Answers.ite {c : Prop} [Decidable c] {o p : Out} (ho : Answers o) (hp : Answers p) :
    Answers (if c then o else p) := by
  split
  · exact ho
  · exact hp

/-- A change of the clock's drives is answered, with an edge event or without (R64, R130). -/
theorem clockChanged_answers (old : State) {new : State} (hw : new.bufWr < new.params.bufCap) :
    Answers (clockChanged old new) :=
  .ite (.ite (takeEdge_total hw) ⟨_, rfl⟩) ⟨_, rfl⟩

/-- The table has an entry at every slot below 58 (R62). -/
theorem xlRead_answers {s : State} {code : Byte} (hp : s.params.wf = true) (hc : code.toNat < 58) :
    Answers (xlRead code s) := by
  obtain ⟨e, he⟩ := row_getElem hp s.row hc
  exact ⟨_, xlRead_some he⟩

theorem xlFilter_answers {s : State} {slot : Byte} (hp : s.params.wf = true)
    (hs : slot = Config.slotLeft ∨ slot = Config.slotRight) : Answers (xlFilter slot s) := by
  rw [xlFilter_slot hp hs]
  exact xlRead_answers hp (by rcases hs with rfl | rfl <;> decide)

/-- A receive answers: on a buffer that is not empty the cell at the read cursor has been written (R42, R163, R164). -/
theorem popOperation_answers {s : State} {b : Bool} (hv : Inv s) (hd : mainDue s = .instr (popOperation b)) :
    Answers (exec (popOperation b) s) := by
  refine .of_eq ((exec_popOperation b s).trans (if_pos hd)) ?_
  split
  case h_4 =>
    by_cases h0 : s.bufCount = 0
    · exact ⟨_, if_pos h0⟩
    · obtain ⟨v, hcell⟩ := hv.buffer.head (Nat.pos_of_ne_zero h0)
      exact ⟨_, (if_neg h0).trans (pop_atomic b hv.atomic hv.buffer.rd hcell)⟩
  all_goals exact ⟨_, rfl⟩

/-- What is due to MAIN answers a next state: most rules are one assignment; the others turn on the phase, the table, the
cell at the read cursor, or the receiver's answer to an edge. -/
theorem exec_answers {s : State} {i : Instr} (hv : Inv s) (hd : mainDue s = .instr i) (hr : MainMayRun s i) :
    Answers (exec i s) := by
  cases i
  case rxIdleStart | rxIdleBadstart | rxData | rxParity | rxStopBad | rxStopOk | rxError | kbdFrame | bufPush
      | bufPushFull | wdtExpire | reset => exact hr.elim
  case init => exact ⟨_, (if_pos hd).trans (if_pos hr)⟩
  case startup =>
    refine .of_eq (if_pos hd) ?_
    obtain ⟨n, hm⟩ := hr
    simp only [popPoint_mainPhase, hm]
    split
    · exact ⟨_, rfl⟩
    · split <;> exact ⟨_, rfl⟩
  case xlLookup => exact .of_eq (if_pos hd) (xlRead_answers hv.params hr)
  case xlE0Arrow4B => exact .of_eq (if_pos hd) (xlFilter_answers hv.params (.inl rfl))
  case xlE0Arrow4D => exact .of_eq (if_pos hd) (xlFilter_answers hv.params (.inr rfl))
  case ps2RecvNonblocking => exact popOperation_answers (b := false) hv hd
  case ps2RecvBlocking => exact popOperation_answers (b := true) hv hd
  case txInhibit =>
    refine .of_eq (if_pos hd) ?_
    split
    · exact ⟨_, rfl⟩
    · exact clockChanged_answers s hv.buffer.wr
  case txFinish =>
    refine .of_eq (if_pos hd) (.ite (takeEdge_total ?_) ⟨_, rfl⟩)
    simpa only [returnTo_bufWr, returnTo_params, popPoint_bufWr, popPoint_params] using hv.buffer.wr
  case txBit | txAck =>
    refine .of_eq (if_pos hd) ?_
    split
    · exact ⟨_, rfl⟩
    all_goals exact .ite ⟨_, rfl⟩ ⟨_, rfl⟩
  case txAckEnd => exact .of_eq (if_pos hd) (.ite ⟨_, rfl⟩ ⟨_, rfl⟩)
  case kbdCommand =>
    refine .of_eq (if_pos hd) ?_
    split
    · exact ⟨_, rfl⟩
    · exact .ite ⟨_, rfl⟩ ⟨_, rfl⟩
  case respAck =>
    refine .of_eq (if_pos hd) ?_
    split <;> exact ⟨_, rfl⟩
  case a2Write =>
    refine .of_eq (if_pos hd) ?_
    split <;> exact ⟨_, rfl⟩
  case ps2Send | cmdSetLeds | cmdSetTypematic | cmdSetScanset | translatePoll | loopIteration | wdtReset =>
    exact ⟨_, if_pos hd⟩
  -- the other phases of a send and the rows of the translator that return or await one more byte
  all_goals exact ⟨_, if_pos hd⟩

/-! ## Every agent's step -/

theorem kbdPulse_answers {s : State} (hv : Inv s) (d : Bool) : Answers (kbdPulse d s) := by
  have hw : ((s.setKbd .released (driveOf d)).setKbd .low (driveOf d)).bufWr < s.params.bufCap := hv.buffer.wr
  obtain ⟨u, hu⟩ := clockChanged_answers (s.setKbd .released (driveOf d)) hw
  exact ⟨_, by rw [kbdPulse, hu, andThen_next]⟩

/-- The keyboard's pulses are answered, each at a state of the invariant (R108, R130). -/
theorem kbdPulses_answers {s : State} (hv : Inv s) (ls : List Bool) : Answers (kbdPulses ls s) := by
  induction ls generalizing s with
  | nil => exact ⟨s, rfl⟩
  | cons d ds ih =>
    obtain ⟨u, hu⟩ := kbdPulse_answers hv d
    rw [kbdPulses, hu, andThen_next]
    exact ih (kbdPulse_inv hu hv)

/-- Settles O60, by the agent that moves: MAIN has an instruction due, and it answers; so do the receiver and the
keyboard's frame; the watchdog's step is enabled where it is admissible. -/
theorem noAdmissibleStepStops : Obligations.NoAdmissibleStepStops := by
  intro s hv ha
  have henv : ∀ r, Inv { s with inputs := r } := fun r => hv.environment s.kbdClkDrive s.kbdDataDrive r s.wdt
  obtain ⟨i, hd, hr⟩ := hv.mainIsDue
  cases hs : s.inputs with
  | nil => exact step_main hs hd ▸ exec_answers hv hd hr
  | cons a r =>
    cases a with
    | main => exact step_main_scheduled hs hd ▸ exec_answers (henv r) hd hr
    | lines c d => exact step_lines hs ▸ clockChanged_answers s hv.buffer.wr
    | frame b => exact step_frame hs ▸ kbdPulses_answers (henv r) (frameLevels b)
    | tick => exact ⟨_, step_tick hs⟩
    | wdt => exact ⟨_, (step_wdt hs).trans (if_pos (ha r hs))⟩
    | powerOn => exact ⟨_, step_powerOn hs⟩

end Sys2Proof.Machine
end

section
/-! The two resets (spec/70_reset_and_hazards.md R370, R372) and the hang at a wait, which only they end
(spec/60_exceptions.md R340, R345). -/

namespace Sys2Proof.Machine

open Sys2Proof

/-! ## The resets -/

theorem watchdogEnabled_iff (s : State) :
    watchdogEnabled s = true ↔ inSpin s = true ∨ (s.params.wdtMode = .wide ∧ s.wdt ≠ 0) := by
  rw [watchdogEnabled, Bool.or_eq_true, Bool.and_eq_true, beq_iff_eq, bne_iff_ne]

theorem exec_wdtExpire_enabled {s : State} (h : watchdogEnabled s = true) : exec .wdtExpire s = .next s.afterReset :=
  if_pos h

theorem exec_wdtExpire_disabled {s : State} (h : ¬ watchdogEnabled s = true) :
    exec .wdtExpire s = .refused .watchdogNotEnabled := if_neg h

/-- Outside a spin, without the wide variant or before the watchdog has counted, its reset is not enabled (R345). -/
theorem watchdog_off {s : State} (hi : inSpin s = false) (hw : s.params.wdtMode = .spinOnly ∨ s.wdt = 0) :
    ¬ watchdogEnabled s = true := by
  rw [watchdogEnabled_iff, hi]
  rintro (h | ⟨hwide, hcount⟩)
  · cases h
  · rcases hw with h | h
    · rw [h] at hwide; cases hwide
    · exact hcount h

/-- Settles O6: both resets give `State.afterReset`, whose fields are read off; the two free registers are in range by
the types of their values. -/
theorem resetAndWatchdogRestoreTheBlock : Obligations.ResetAndWatchdogRestoreTheBlock := fun s =>
  ⟨⟨s.afterReset, rfl, rfl, Nat.le_of_lt_succ (Config.resetRxBitcnt (s.resets + 1)).isLt,
      Nat.le_of_lt_succ (Config.resetRxParity (s.resets + 1)).isLt, fun _ => rfl, rfl, rfl, rfl, rfl, rfl, rfl, rfl,
      rfl, rfl, rfl, rfl, rfl, rfl, rfl, rfl, rfl, rfl, rfl, rfl,
      fun h => exec_wdtExpire_enabled ((watchdogEnabled_iff s).mpr h)⟩,
    fun hi hw => exec_wdtExpire_disabled (watchdog_off hi hw)⟩

/-! ## The hang -/

/-- A wait is the innermost point of an operation under way. -/
theorem cont_of_awaited {s : State} {c : Bool} (h : awaited s = some c) : ∃ p k, s.cont = p :: k := by
  cases hc : s.cont with
  | cons p k => exact ⟨p, k, rfl⟩
  | nil =>
    rw [awaited, mainTop_nil hc] at h
    cases hm : s.mainPhase <;> rw [hm] at h <;> cases h

/-- Every wait is a spin (R19, R340). -/
theorem inSpin_of_awaited {s : State} {c : Bool} (h : awaited s = some c) : inSpin s = true := by
  obtain ⟨p, k, hc⟩ := cont_of_awaited h
  rw [awaited, mainTop_cons hc] at h
  rw [inSpin, mainTop_cons hc]
  split at h
  case h_6 => cases h
  all_goals rfl

/-- A phase whose rule leaves the state as it is, is a step of MAIN to the same state (R17). -/
theorem mainStep_self {s : State} {i : Instr} {p : Point} {k : List Point} {f : Point → State → Out}
    (hc : s.cont = p :: k) (hd : dueAt s.params s.xlState p = .instr i) (hi : exec i s = whenDue i s f)
    (hf : f p { s with cont := k } = .next s) : MainStep s s :=
  ⟨i, (mainDue_cons hc).trans hd, by rw [hi, whenDue_cons f hc hd, hf]⟩

/-- MAIN's step at a wait whose condition does not hold leaves the whole state as it is (R17, R340). -/
theorem mainStep_of_awaited {s : State} (h : awaited s = some false) : MainStep s s := by
  obtain ⟨p, k, hc⟩ := cont_of_awaited h
  rw [awaited, mainTop_cons hc] at h
  split at h
  case h_1 | h_3 =>
    have hhigh : s.clkLevel = true := by simpa using h
    exact mainStep_self hc rfl (by rw [exec]; rfl) (if_pos hhigh)
  case h_2 =>
    have hlow : ¬ s.clkLevel = true := by simpa using h
    exact mainStep_self hc rfl (by rw [exec]; rfl) (if_neg hlow)
  case h_4 =>
    have hlow : ¬ (s.clkLevel && s.dataLevel) = true := by simpa using h
    exact mainStep_self hc rfl (by rw [exec]; rfl) (if_neg hlow)
  case h_5 =>
    have hempty : s.bufCount = 0 := by simpa using h
    have hw := exec_popOperation_empty (b := true) (.inl hc) hempty
    exact ⟨_, mainDue_cons hc, hw.trans (congrArg _ (goto_left hc))⟩
  case h_6 => cases h

/-- A step that leaves the state as it is can be taken any number of times. -/
theorem run_of_step_self {s : State} (h : step s = .next s) (n : Nat) : Sys2Proof.core.run n s = .next s := by
  induction n with
  | zero => rfl
  | succ n ih => rw [run_succ h, ih]

/-- Settles O30: MAIN's step at such a wait leaves the state as it is, so any number of them does; and a wait is a spin,
in which the watchdog's reset is enabled. -/
theorem aWaitHangsUntilTheWatchdog : Obligations.AWaitHangsUntilTheWatchdog := by
  intro s hin h
  obtain ⟨i, hd, he⟩ := mainStep_of_awaited h
  have hspin : watchdogEnabled s = true := (watchdogEnabled_iff s).mpr (.inl (inSpin_of_awaited h))
  exact ⟨run_of_step_self ((step_main hin hd).trans he), exec_wdtExpire_enabled hspin⟩

end Sys2Proof.Machine
end

section
/-! The receiver's registers and the buffer's write side: what an edge event writes of the state (spec/60_exceptions.md
R330, R331), that MAIN leaves them alone (R21, R330), and which steps leave an error state (R323, R324). -/

namespace Sys2Proof.Machine

open Sys2Proof

/-! ## What an edge event writes -/

theorem execBufPush_next {s t : State} {v : Byte} (h : exec (.bufPush v) s = .next t) :
    t = { s with
      buf := s.buf.write s.bufWr v
      bufWr := (s.bufWr + 1) % s.params.bufCap
      bufCount := s.bufCount + 1 } := by
  rw [exec, execBufPush] at h
  split at h
  · exact (push_next h).2
  · cases h

theorem execBufPushFull_next {s t : State} {v : Byte} (h : exec (.bufPushFull v) s = .next t) :
    t = raiseRx .overrun s := by
  rw [exec, execBufPushFull] at h
  split at h
  · cases h
  · exact (Host.Outcome.next.inj h).symm

/-- Only the receiver's state and its working registers are written (R330). -/
def WritesRegisters (s t : State) : Prop :=
  t = { s with rxState := t.rxState, rxAcc := t.rxAcc, rxBitcnt := t.rxBitcnt, rxParity := t.rxParity }

/-- Only the receiver's state, the write cursor, the count and the cell at the write cursor are written (R161, R330). -/
def WritesCell (s t : State) : Prop :=
  t = { s with rxState := t.rxState, buf := t.buf, bufWr := t.bufWr, bufCount := t.bufCount }
    ∧ ∀ j ≠ s.bufWr, t.buf.read j = s.buf.read j

theorem execRxError_writesRegisters {e : RxErr} {d : Bool} {s t : State} (h : execRxError e d s = .next t) :
    WritesRegisters s t := by
  obtain ⟨-, rfl | ⟨-, rfl⟩⟩ := execRxError_next h <;> rfl

theorem execRxStopOk_writesCell {s t : State} (h : execRxStopOk s = .next t) : WritesCell s t := by
  obtain ⟨-, ⟨-, -, rfl⟩ | ⟨-, rfl⟩⟩ := execRxStopOk_next h
  · exact ⟨rfl, fun j hj => read_write_other _ _ _ _ hj⟩
  · exact ⟨rfl, fun _ _ => rfl⟩

/-- Settles O50, event by event: a rule that commits no byte, a push, the pulses of a frame. -/
theorem edgeEventsWriteOnlyInterruptState : Obligations.EdgeEventsWriteOnlyInterruptState := by
  refine fun i s t h => ⟨fun hi => ?_, fun hi => ?_, ?_⟩
  · show WritesRegisters s t
    simp only [List.mem_cons, List.not_mem_nil, or_false] at hi
    obtain (rfl | rfl | rfl) | ⟨d, rfl⟩ | ⟨d, rfl⟩ | ⟨e, d, rfl⟩ | ⟨v, rfl⟩ := hi
    · obtain ⟨-, rfl⟩ := execRxIdleStart_next h; rfl
    · obtain ⟨-, rfl⟩ := execRxIdleBadstart_next h; rfl
    · obtain ⟨-, rfl⟩ := execRxStopBad_next h; rfl
    · obtain ⟨-, rfl⟩ := execRxData_next h; rfl
    · obtain ⟨-, rfl⟩ := execRxParity_next h; rfl
    · exact execRxError_writesRegisters h
    · obtain rfl := execBufPushFull_next h; rfl
  · show WritesCell s t
    obtain rfl | ⟨v, rfl⟩ := hi
    · exact execRxStopOk_writesCell h
    · obtain rfl := execBufPush_next h
      exact ⟨rfl, fun j hj => read_write_other _ _ _ _ hj⟩
  · rintro ⟨b, rfl⟩
    rw [exec, execKbdFrame, frameLevels_stop] at h
    exact ⟨kbdPulses_lines h, fun j hj => kbdPulses_cell h (Nat.le_refl 11) hj⟩

/-! ## MAIN leaves the receiver alone -/

/-- The receiver's state, its working registers, the cells and the write cursor are as they were (R330). -/
def SameReceiver (s t : State) : Prop :=
  t.rxAcc = s.rxAcc ∧ t.rxBitcnt = s.rxBitcnt ∧ t.rxParity = s.rxParity ∧ t.buf = s.buf ∧ t.bufWr = s.bufWr
    ∧ t.rxState = s.rxState

/-- The instructions that can write one of these: the receiver's own, those of a send that force the receiver idle or
can deliver an edge, `init` and the resets. -/
def reachesReceiver : Instr → Bool
  | .rxIdleStart | .rxIdleBadstart | .rxData _ | .rxParity _ | .rxStopBad | .rxStopOk | .rxError _ _ | .bufPush _
  | .bufPushFull _ | .kbdFrame _ | .txPrepare | .txInhibit | .txFinish _ | .init | .reset | .wdtExpire => true
  | _ => false

/-- The two receives, which write the count. -/
def receives : Instr → Bool
  | .ps2RecvNonblocking | .ps2RecvBlocking => true
  | _ => false

/-- Every other row of `Writes` names none of them, and of MAIN's only the receives name the count. -/
theorem Writes.sameReceiver {i : Instr} {s t : State} (h : Writes s t i) (hi : reachesReceiver i = false) :
    SameReceiver s t ∧ (receives i = false → t.bufCount = s.bufCount) := by
  cases i
  case rxIdleStart | rxIdleBadstart | rxData | rxParity | rxStopBad | rxStopOk | rxError | bufPush | bufPushFull
      | kbdFrame | txPrepare | txInhibit | txFinish | init | reset | wdtExpire =>
    cases hi
  case ps2RecvNonblocking | ps2RecvBlocking =>
    obtain ⟨_, _, _, _, rfl⟩ := h; exact ⟨⟨rfl, rfl, rfl, rfl, rfl, rfl⟩, nofun⟩
  case a2Write => obtain ⟨_, _, _, _, rfl, -⟩ := h; exact ⟨⟨rfl, rfl, rfl, rfl, rfl, rfl⟩, fun _ => rfl⟩
  case startup => obtain ⟨-, _, _, rfl⟩ := h; exact ⟨⟨rfl, rfl, rfl, rfl, rfl, rfl⟩, fun _ => rfl⟩
  case txRtsRelease | wdtReset => obtain ⟨_, rfl⟩ := h; exact ⟨⟨rfl, rfl, rfl, rfl, rfl, rfl⟩, fun _ => rfl⟩
  case ps2Send | txSettle | txAck | txAckEnd | cmdSetLeds | cmdSetTypematic | cmdSetScanset | respAck | respResend
      | kbdCommand | loopIteration | txRtsData | txReleaseData | txBit | xlCtrlMake | xlE0Ctrl1D | xlCtrlBreak
      | xlE0Ctrl9D | xlShiftMake2A | xlShiftMake36 | xlShiftBreakAA | xlShiftBreakB6 =>
    obtain ⟨_, _, rfl⟩ := h; exact ⟨⟨rfl, rfl, rfl, rfl, rfl, rfl⟩, fun _ => rfl⟩
  -- the translator's other rows: continuation, result and position
  all_goals obtain ⟨_, _, _, rfl⟩ := h; exact ⟨⟨rfl, rfl, rfl, rfl, rfl, rfl⟩, fun _ => rfl⟩

/-- Settles O51: a row of `Writes` that reaches the receiver is excepted, or is TX.PREPARE, which writes `rx_state`
only, or a phase of a send that has delivered no edge. -/
theorem mainLeavesTheReceiverAlone : Obligations.MainLeavesTheReceiverAlone := by
  intro i s t h
  have hw := exec_writes h
  by_cases hi : reachesReceiver i = false
  · obtain ⟨⟨h1, h2, h3, h4, h5, h6⟩, -⟩ := hw.sameReceiver hi
    exact .inr ⟨h1, h2, h3, h4, h5, .inr h6⟩
  · cases i <;> simp only [reachesReceiver, not_true_eq_false] at hi
    case txPrepare =>
      obtain ⟨_, rfl⟩ := hw
      exact .inr ⟨rfl, rfl, rfl, rfl, rfl, .inl rfl⟩
    case txInhibit =>
      rcases hw with ⟨_, _, _, rfl⟩ | ⟨hirq, -⟩
      · exact .inr ⟨rfl, rfl, rfl, rfl, rfl, .inr rfl⟩
      · exact .inl (by simp [hirq])
    case txFinish =>
      rcases hw with ⟨_, _, rfl⟩ | ⟨hpend, -⟩
      · exact .inr ⟨rfl, rfl, rfl, rfl, rfl, .inr rfl⟩
      · exact .inl (by simp [hpend])
    -- the receiver's own, `init` and the resets
    all_goals exact .inl (by simp)

/-! ## The exits of an error state -/

/-- Pulses of the keyboard leave an error state as it is (R138, D7), whether they reach the receiver or not. -/
theorem kbdPulse_error {s t : State} {d : Bool} (h : kbdPulse d s = .next t) (he : s.rxState.isError = true)
    (hp : s.params.rxErrorRecovery = .externalResetOnly) : t.rxState = s.rxState ∧ t.params = s.params := by
  obtain ⟨u, hu, ht⟩ := andThen_eq_next h
  obtain rfl := Host.Outcome.next.inj ht
  rcases clockChanged_next hu with ⟨-, -, hedge⟩ | ⟨-, -, rfl⟩ | ⟨-, rfl⟩
  · obtain rfl := takeEdge_error hedge he hp
    exact ⟨rfl, rfl⟩
  · exact ⟨missEdge_rxState _, missEdge_params _⟩
  · exact ⟨rfl, rfl⟩

theorem kbdPulses_error {ls : List Bool} {s t : State} (h : kbdPulses ls s = .next t) (he : s.rxState.isError = true)
    (hp : s.params.rxErrorRecovery = .externalResetOnly) : t.rxState = s.rxState := by
  induction ls generalizing s with
  | nil => obtain rfl := Host.Outcome.next.inj h; rfl
  | cons d ds ih =>
    obtain ⟨u, hu, ht⟩ := andThen_eq_next h
    obtain ⟨hx, hpar⟩ := kbdPulse_error hu he hp
    exact (ih ht (hx ▸ he) (hpar ▸ hp)).trans hx

/-- Settles O52: an instruction that does not reach the receiver leaves `rx_state` alone; an edge, alone or in a frame
or delivered by a phase of a send, finds the error state and is ignored; a push does not write `rx_state`. -/
theorem errorStatesHaveTwoExits : Obligations.ErrorStatesHaveTwoExits := by
  intro i s t h he hp
  have hw := exec_writes h
  by_cases hi : reachesReceiver i = false
  · obtain ⟨⟨-, -, -, -, -, hx⟩, -⟩ := hw.sameReceiver hi
    exact .inl hx
  · cases i <;> simp only [reachesReceiver, not_true_eq_false] at hi
    case txPrepare | init | reset | wdtExpire => exact .inr (.inl (by simp))
    case bufPushFull v => exact .inr (.inr ⟨v, rfl⟩)
    case bufPush => obtain rfl := execBufPush_next h; exact .inl rfl
    case kbdFrame => exact .inl (kbdPulses_error h he hp)
    case rxError =>
      obtain ⟨-, rfl | ⟨hr, -⟩⟩ := execRxError_next h
      · exact .inl rfl
      · rw [hp] at hr; cases hr
    case txInhibit =>
      rcases hw with ⟨_, _, _, rfl⟩ | ⟨-, _, hedge⟩
      · exact .inl rfl
      · obtain rfl := takeEdge_error hedge he hp; exact .inl rfl
    case txFinish =>
      rcases hw with ⟨_, _, rfl⟩ | ⟨-, _, _, hedge⟩
      · exact .inl rfl
      · obtain rfl := takeEdge_error hedge he hp; exact .inl rfl
    -- the rules of the states that are no error
    all_goals
      obtain ⟨hx, -⟩ := whenRx_next h
      rw [hx] at he
      cases he

/-! ## Silence in the dispatch loop -/

theorem translates_leaves {i : Instr} (h : translates i = true) : reachesReceiver i = false ∧ receives i = false := by
  cases i <;> cases h <;> exact ⟨rfl, rfl⟩

/-- What is due in the loop reaches neither the receiver nor the count, or it is a receive at its beginning (R305). -/
theorem loop_due {s : State} {i : Instr} (hm : s.mainPhase = .loop) (hs : loopShape s.cont = true)
    (hd : mainDue s = .instr i) : (reachesReceiver i = false ∧ receives i = false)
      ∨ ∃ b k, i = popOperation b ∧ s.cont = .op (popOperation b) :: k := by
  have hat : ∀ {p k}, s.cont = p :: k → dueAt s.params s.xlState p = .instr i :=
    fun hc => (mainDue_cons hc).symm.trans hd
  unfold loopShape at hs
  split at hs
  case h_1 hc =>
    rw [mainDue, mainTop_loop hc hm] at hd
    obtain rfl := Decoded.instr.inj hd
    exact .inl ⟨rfl, rfl⟩
  case h_4 hc => exact .inr ⟨false, _, (Decoded.instr.inj (hat hc)).symm, hc⟩
  case h_5 hc => exact .inr ⟨true, _, (Decoded.instr.inj (hat hc)).symm, hc⟩
  case h_6 hc => exact .inl (translates_leaves (translates_of_byte (hat hc)))
  case h_7 hc => exact .inl (translates_leaves (translates_of_entry (hat hc)))
  case h_8 hc =>
    obtain rfl := Decoded.instr.inj ((dueAt_a2Byte hs).symm.trans (hat hc))
    exact .inl ⟨rfl, rfl⟩
  case h_13 => cases hs
  -- the watchdog's service, the poll and the writer's steps
  all_goals
    rename_i hc
    obtain rfl := Decoded.instr.inj (hat hc)
    exact .inl ⟨rfl, rfl⟩

/-- In the loop, with the receiver as it was and no byte more in the buffer (R324). -/
def StaysSilent (s t : State) : Prop := t.rxState = s.rxState ∧ t.mainPhase = .loop ∧ t.bufCount ≤ s.bufCount

/-- MAIN's steps in the loop: a receive takes at most a byte out of the buffer, the others leave it alone. -/
theorem mainStep_staysSilent {s t : State} (hv : Inv s) (hm : s.mainPhase = .loop) (h : MainStep s t) :
    StaysSilent s t := by
  have hs : loopShape s.cont = true := (controlShape_loop hm).symm.trans hv.control.shape
  obtain ⟨i, hd, he⟩ := h
  rcases loop_due hm hs hd with ⟨hi, hr⟩ | ⟨b, k, rfl, hc⟩
  · obtain ⟨⟨-, -, -, -, -, hx⟩, hcount⟩ := (exec_writes he).sameReceiver hi
    have hnot : i ∉ [Instr.init, .reset, .wdtExpire] := by
      intro hmem
      simp only [List.mem_cons, List.not_mem_nil, or_false] at hmem
      rcases hmem with rfl | rfl | rfl <;> cases hi
    obtain ⟨-, -, -, -, hphase | rfl⟩ := controlElementsHaveTheirWriters i s t he hnot
    · exact ⟨hx, hphase.trans hm, (hcount hr).le⟩
    · obtain ⟨⟨n, hn⟩, -⟩ := exec_writes he
      rw [hm] at hn
      cases hn
  · obtain rfl | ⟨-, v, rfl⟩ := MainStep.received ⟨_, hd, he⟩ hv.atomic hc
    · cases b
      · exact ⟨returnTo_rxState _ _, (returnTo_mainPhase _ _).trans hm, (returnTo_bufCount _ _).le⟩
      · exact ⟨rfl, hm, le_rfl⟩
    · exact ⟨returnTo_rxState _ _, (returnTo_mainPhase _ _).trans hm,
        (returnTo_bufCount _ _).trans_le (Nat.sub_le _ _)⟩

/-- Settles O54, by the agent that moves: MAIN by `mainStep_staysSilent`, an edge and a frame are ignored (R138), the
resets are excluded, and the other moves are the environment's. -/
theorem anErrorInTheLoopIsNeverCleared : Obligations.AnErrorInTheLoopIsNeverCleared := by
  intro s t hv hm he hp h hno
  show StaysSilent s t
  have hshape : loopShape s.cont = true := (controlShape_loop hm).symm.trans hv.control.shape
  cases step_cases h with
  | main i r hs hd hexec =>
    have hv' : Inv { s with inputs := r } := hv.environment s.kbdClkDrive s.kbdDataDrive r s.wdt
    have hsilent : StaysSilent { s with inputs := r } t := mainStep_staysSilent hv' hm ⟨i, hd, hexec⟩
    exact hsilent
  | edge r c d hs hi hedge => obtain rfl := takeEdge_error hedge he hp; exact ⟨rfl, hm, le_rfl⟩
  | frame r b hs hexec =>
    have hirq : s.irqEnable = true := (hv.control.linesFree (by simp [hm]) (loop_outside hm hshape)).enable
    have hlost := frameWithoutAListenerIsLost { s with inputs := r } b (.inr ⟨he, hirq, hp⟩)
    obtain rfl := Host.Outcome.next.inj (hexec.symm.trans hlost)
    exact ⟨rfl, hm, le_rfl⟩
  | missed r c d hs hi ht => subst ht; exact ⟨rfl, hm, le_rfl⟩
  | quiet r c d hs ht => subst ht; exact ⟨rfl, hm, le_rfl⟩
  | tick r hs ht => subst ht; exact ⟨rfl, hm, le_rfl⟩
  | wdt r hs hexec => exact absurd hs (hno r).1
  | powerOn r hs ht => exact absurd hs (hno r).2

end Sys2Proof.Machine
end

section
/-! Any eleven levels received from Idle: the checks in wire order (spec/60_exceptions.md R326). -/

namespace Sys2Proof.Machine

open Sys2Proof

/-! ## The checks, one after the other -/

/-- In an error state the pulses that are left move the keyboard's lines only (R138, R326). -/
theorem kbdPulses_after_error {s : State} (h : Listening s) (hp : s.params.rxErrorRecovery = .externalResetOnly)
    {x : RxState} (hx : x.isError = true) (d : Bool) (a : Byte) (n p : Nat) (ls : List Bool) :
    ∃ e, kbdPulses ls (s.afterPulse d x a n p) = .next (s.afterPulse e x a n p) := by
  have hdeaf : Deaf (s.afterPulse d x a n p) := .inr ⟨hx, h.1, hp⟩
  rcases List.eq_nil_or_concat' ls with rfl | ⟨ls, e, rfl⟩
  · exact ⟨d, rfl⟩
  · exact ⟨e, kbdPulses_deaf hdeaf ls e⟩

/-- The frame is rejected: the receiver is in state `x`, and nothing else has changed but its working registers and the
keyboard's lines. -/
def Rejected (s : State) (o : Out) (x : RxState) : Prop := ∃ d a n p, o = .next (s.afterPulse d x a n p)

/-- The frame is accepted: the same with the receiver idle and the byte `v` pushed (R136, R161). -/
def Committed (s : State) (o : Out) (v : Byte) : Prop :=
  ∃ d n p, o = .next { s.afterPulse d .idle v n p with
    buf := s.buf.write s.bufWr v, bufWr := (s.bufWr + 1) % s.params.bufCap, bufCount := s.bufCount + 1 }

section
variable {s : State} (hl : Listening s)
include hl

/-- A start level of 1 is the first check to fail (R132). -/
theorem rejected_start (hx : s.rxState = .idle) (hp : s.params.rxErrorRecovery = .externalResetOnly) (ls : List Bool) :
    Rejected s (kbdPulses (true :: ls) s) .errorStart := by
  obtain ⟨e, he⟩ := kbdPulses_after_error hl hp (x := .errorStart) rfl true s.rxAcc s.rxBitcnt s.rxParity ls
  exact ⟨e, _, _, _, by rw [kbdPulses, pulse_badstart hl hx, andThen_next, he]⟩

variable {d p : Bool} {a : Byte} {m n : Nat}

/-- The parity bit's pulse accepts the frame unless the sum is even (R134). -/
theorem pulses_parity (ls : List Bool) : kbdPulses (p :: ls) (s.afterPulse d .expectingParity a m n)
    = kbdPulses ls (s.afterPulse p (if (n + p.toNat) % 2 = 0 then .errorParity else .expectingStop) a m
        (n + p.toNat)) := by
  have hsum : parityAccepts (n + p.toNat) = true ↔ ¬ (n + p.toNat) % 2 = 0 :=
    beq_iff_eq.trans Nat.mod_two_ne_zero.symm
  rw [kbdPulses, pulse_parity (afterPulse_listening hl ..) rfl, andThen_next]
  simp only [State.afterPulse, hsum, ite_not]

/-- An even sum is the next check to fail (R134). -/
theorem rejected_parity (hp : s.params.rxErrorRecovery = .externalResetOnly) (heven : (n + p.toNat) % 2 = 0)
    (ls : List Bool) : Rejected s (kbdPulses (p :: ls) (s.afterPulse d .expectingParity a m n)) .errorParity := by
  rw [pulses_parity hl, if_pos heven]
  obtain ⟨e, he⟩ := kbdPulses_after_error hl hp (x := .errorParity) rfl p a m (n + p.toNat) ls
  exact ⟨e, _, _, _, he⟩

/-- A stop level of 0 is the next check to fail, whether the buffer is full or not (R135). -/
theorem rejected_stop : Rejected s (kbdPulses [false] (s.afterPulse d .expectingStop a m n)) .errorStop :=
  ⟨false, a, m, n, by rw [kbdPulses, pulse_badstop (afterPulse_listening hl ..) rfl]; rfl⟩

/-- A full buffer is the last check to fail (R162). -/
theorem rejected_full (hfull : ¬ s.bufCount < s.params.bufCap) :
    Rejected s (kbdPulses [true] (s.afterPulse d .expectingStop a m n)) .errorOverrun :=
  ⟨true, a, m, n, by rw [kbdPulses, pulse_overrun (afterPulse_listening hl ..) rfl hfull]; rfl⟩

/-- A frame that passes every check is committed (R136). -/
theorem committed_valid (hroom : s.bufCount < s.params.bufCap) (hw : s.bufWr < s.params.bufCap) :
    Committed s (kbdPulses [true] (s.afterPulse d .expectingStop a m n)) a :=
  ⟨true, m, n, by rw [kbdPulses, pulse_stop (afterPulse_listening hl ..) rfl hroom hw]; rfl⟩
end

/-! ## The frame's result -/

/-- What a frame may leave: the receiver's state, and the byte `v` pushed if the frame passes every check (`valid`);
what MAIN owns is as it was. -/
def FrameResult (s t : State) (x : RxState) (valid : Prop) (v : Byte) : Prop :=
  t.rxState = x
    ∧ (valid → t.buf = s.buf.write s.bufWr v ∧ t.bufWr = (s.bufWr + 1) % s.params.bufCap
        ∧ t.bufCount = s.bufCount + 1)
    ∧ (¬ valid → t.buf = s.buf ∧ t.bufWr = s.bufWr ∧ t.bufCount = s.bufCount)
    ∧ t.bufRd = s.bufRd ∧ t.cont = s.cont ∧ t.mainPhase = s.mainPhase ∧ t.ctrlDown = s.ctrlDown
    ∧ t.shiftDown = s.shiftDown ∧ t.xlState = s.xlState ∧ t.a2Data = s.a2Data ∧ t.a2StrobeN = s.a2StrobeN
    ∧ t.a2Seen = s.a2Seen ∧ t.irqEnable = s.irqEnable ∧ t.wdt = s.wdt ∧ t.ret = s.ret

theorem Rejected.result {s : State} {o : Out} {x y : RxState} {valid : Prop} {v : Byte} (h : Rejected s o y)
    (hy : x = y) (hv : ¬ valid) : ∃ t, o = .next t ∧ FrameResult s t x valid v := by
  obtain ⟨_, _, _, _, rfl⟩ := h
  exact ⟨_, rfl, hy.symm, fun h => absurd h hv, fun _ => ⟨rfl, rfl, rfl⟩, rfl, rfl, rfl, rfl, rfl, rfl, rfl, rfl, rfl,
    rfl, rfl, rfl⟩

theorem Committed.result {s : State} {o : Out} {x : RxState} {valid : Prop} {v : Byte} (h : Committed s o v)
    (hy : x = .idle) (hv : valid) : ∃ t, o = .next t ∧ FrameResult s t x valid v := by
  obtain ⟨_, _, _, rfl⟩ := h
  exact ⟨_, rfl, hy.symm, fun _ => ⟨rfl, rfl, rfl⟩, fun h => absurd hv h, rfl, rfl, rfl, rfl, rfl, rfl, rfl, rfl, rfl,
    rfl, rfl, rfl⟩

/-- Settles O15, check by check in wire order. -/
theorem firstFailingCheckDecidesTheFrame : Obligations.FirstFailingCheckDecidesTheFrame := by
  intro s l d0 d1 d2 d3 d4 d5 d6 d7 p e hl hx hp hw
  cases l with
  | true => exact (rejected_start hl hx hp _).result (if_pos rfl) (fun h => nomatch h.1.1)
  | false =>
    rw [pulses_nine hl hx]
    by_cases heven : (d0.toNat + d1.toNat + d2.toNat + d3.toNat + d4.toNat + d5.toNat + d6.toNat + d7.toNat
        + p.toNat) % 2 = 0
    · exact (rejected_parity hl hp heven _).result (if_pos heven) (fun h => by omega)
    rw [pulses_parity hl, if_neg heven]
    cases e with
    | false => exact (rejected_stop hl).result (if_neg heven) (fun h => nomatch h.1.2.2)
    | true =>
      by_cases hroom : s.bufCount < s.params.bufCap
      · exact (committed_valid hl hroom hw).result ((if_neg heven).trans (if_pos hroom))
          ⟨⟨rfl, Nat.mod_two_ne_zero.mp heven, rfl⟩, hroom⟩
      · exact (rejected_full hl hroom).result ((if_neg heven).trans (if_neg hroom)) (fun h => hroom h.2)

end Sys2Proof.Machine
end
